-- ==== Sys2Proof/Word.lean ====
section
/-! DEFINITION. The bit-vector types of QRIM-CORE (spec/10_state.md, spec/20_memory.md). -/

namespace Sys2Proof

/-- A bus word or a 32-bit register (R50, section 2 of 10_state.md). -/
abbrev Word := BitVec 32

/-- A byte: a GF(256) element, a payload byte, a codeword (R41..R44, R100). -/
abbrev Byte := BitVec 8

/-- A WORK cell's 2-bit code (R45). -/
abbrev Code := BitVec 2

end Sys2Proof
end

