-- ==== Sys2Proof/Syntax.lean ====
section
/-! DEFINITION. The command set (spec/30_encoding.md R80..R83): one constructor per row of spec/opcode_table.json,
and the fields of a command word. -/

namespace Sys2Proof

/-- The commands. A command carries no operand but MASK and TEST, and only MATRIX_BUILD uses those (R82). -/
inductive Instr where
  | nop
  | softReset
  | gfExp
  | gfLog
  | gfMul
  | polyMul
  | polyMod
  | rsGenpoly
  | rsEcc
  | bbClear
  | bbPut
  | bbGet
  | segLoad
  | selectVersion
  | buildCodewords
  | matrixBuild (mask : BitVec 3) (test : Bool)
  | penalty
  | commit
  | maskSearch
  | encode
  | query
  deriving DecidableEq, Repr

/-- The four fields of a command word (R80). -/
structure Fields where
  rsvd : BitVec 20
  test : BitVec 1
  mask : BitVec 3
  op : BitVec 8
  deriving DecidableEq, Repr

end Sys2Proof
end

