-- ==== Sys2Proof/WellFormed.lean ====
section
/-! DEFINITION. Legality of a command word's fields (spec/30_encoding.md R84): three checks, each under its own name.
An `Instr` needs no check of its own: its MASK is a 3-bit vector and its TEST a Bool, so every value it can hold
encodes to a legal word. -/

namespace Sys2Proof

/-- The assigned opcodes of R83. -/
def assignedOps : List (BitVec 8) :=
  [0x00, 0x01, 0x10, 0x11, 0x12, 0x18, 0x19, 0x1A, 0x1B, 0x20, 0x21, 0x22] ++
  [0x30, 0x31, 0x32, 0x40, 0x41, 0x42, 0x43, 0x50, 0x60]

/-- R84, first condition: OP is assigned. -/
def Fields.opAssigned (f : Fields) : Bool := assignedOps.contains f.op

/-- R84, second condition: bits [31:12] are 0. -/
def Fields.rsvdZero (f : Fields) : Bool := f.rsvd == 0

/-- R84, third condition: bits [11:8] are 0 unless OP = 0x40. -/
def Fields.maskTestZero (f : Fields) : Bool := f.op == 0x40 || (f.mask == 0 && f.test == 0)

/-- R84: a command word is legal when all three hold. -/
def Fields.wellFormed (f : Fields) : Bool := f.opAssigned && f.rsvdZero && f.maskTestZero

end Sys2Proof
end

