-- ==== Sys2Proof/Decode.lean ====
section
/-! DEFINITION. The decoder of command words (spec/30_encoding.md R80..R85), total and rejecting by name, and the
encoder. A command is exactly one 32-bit word (R81). -/

namespace Sys2Proof

/-- Why a word is no command (R84, R85). The engine then completes with ILLEGAL_COMMAND (R301). -/
inductive Reject where
  /-- bits [31:12] are not 0 -/
  | reservedBits
  /-- OP is none of R83's opcodes -/
  | reservedOpcode (op : BitVec 8)
  /-- bits [11:8] are not 0 and OP is not 0x40 -/
  | maskOrTest (op : BitVec 8)
  deriving DecidableEq, Repr

/-- The OP field of a command word (R80). -/
def opField (w : Word) : Byte := w.extractLsb' 0 8

/-- The fields of a command word (R80). -/
def Fields.ofWord (w : Word) : Fields :=
  ⟨w.extractLsb' 12 20, w.extractLsb' 11 1, w.extractLsb' 8 3, w.extractLsb' 0 8⟩

/-- The word with the given fields (R80): `rrrrrrrrrrrrrrrrrrrr t mmm oooooooo`. -/
def Fields.toWord (f : Fields) : Word := f.rsvd ++ f.test ++ f.mask ++ f.op

/-- The opcode map of R83, for a word whose MASK and TEST fields are `mask` and `test`. -/
def ofOpcode (op : BitVec 8) (mask : BitVec 3) (test : Bool) : Option Instr :=
  match op.toNat with
  | 0x00 => some .nop
  | 0x01 => some .softReset
  | 0x10 => some .gfExp
  | 0x11 => some .gfLog
  | 0x12 => some .gfMul
  | 0x18 => some .polyMul
  | 0x19 => some .polyMod
  | 0x1A => some .rsGenpoly
  | 0x1B => some .rsEcc
  | 0x20 => some .bbClear
  | 0x21 => some .bbPut
  | 0x22 => some .bbGet
  | 0x30 => some .segLoad
  | 0x31 => some .selectVersion
  | 0x32 => some .buildCodewords
  | 0x40 => some (.matrixBuild mask test)
  | 0x41 => some .penalty
  | 0x42 => some .commit
  | 0x43 => some .maskSearch
  | 0x50 => some .encode
  | 0x60 => some .query
  | _ => none

/-- The decoder, on fields. -/
def decodeFields (f : Fields) : Except Reject Instr :=
  if f.rsvd ≠ 0 then .error .reservedBits
  else match ofOpcode f.op f.mask (f.test == 1) with
    | none => .error (.reservedOpcode f.op)
    | some i => if f.op ≠ 0x40 ∧ (f.mask ≠ 0 ∨ f.test ≠ 0) then .error (.maskOrTest f.op) else .ok i

/-- The decoder (R84, R301). -/
def decode (w : Word) : Except Reject Instr := decodeFields (Fields.ofWord w)

/-- The OP field of a command (R83). -/
def Instr.opcode : Instr → BitVec 8
  | .nop => 0x00
  | .softReset => 0x01
  | .gfExp => 0x10
  | .gfLog => 0x11
  | .gfMul => 0x12
  | .polyMul => 0x18
  | .polyMod => 0x19
  | .rsGenpoly => 0x1A
  | .rsEcc => 0x1B
  | .bbClear => 0x20
  | .bbPut => 0x21
  | .bbGet => 0x22
  | .segLoad => 0x30
  | .selectVersion => 0x31
  | .buildCodewords => 0x32
  | .matrixBuild _ _ => 0x40
  | .penalty => 0x41
  | .commit => 0x42
  | .maskSearch => 0x43
  | .encode => 0x50
  | .query => 0x60

/-- The MASK field of a command: 0 but for MATRIX_BUILD (R80). -/
def Instr.maskField : Instr → BitVec 3
  | .matrixBuild mask _ => mask
  | _ => 0

/-- The TEST field of a command: 0 but for MATRIX_BUILD (R80). -/
def Instr.testField : Instr → Bool
  | .matrixBuild _ test => test
  | _ => false

/-- The fields of a command's word (R80). -/
def Instr.fields (i : Instr) : Fields := ⟨0, BitVec.ofBool i.testField, i.maskField, i.opcode⟩

/-- The command word of a command (R80, R83). -/
def encode (i : Instr) : Word := i.fields.toWord

/-- The command the decoder reads from an instruction whose bits are `w` in the opcode table's numbering, of which the
table gives `nbits`. A command word is 32 bits (R81): `nbits` above that is no command. -/
def decodeTableWord (nbits w : Nat) : Option Instr :=
  if 32 < nbits then none
  else match decode (BitVec.ofNat 32 (w % 2 ^ nbits)) with
    | .ok i => some i
    | .error _ => none

end Sys2Proof
end

