-- ==== Sys2Proof/Config.lean ====
section
/-! DEFINITION. What an implementation fixes (spec/00_scope.md R8), and the free values of the spec
(R11 "unspecified", R306, R341; 93_implementation_defined.md U1..U7). -/

namespace Sys2Proof

/-! The depths of R8. MASK_LANES is unobservable (R249) and BASE is the platform's (U20): neither has a constant. -/

abbrev Config.textDepth : Nat := 4096
abbrev Config.segDepth : Nat := 2953
abbrev Config.bbBits : Nat := 32768
abbrev Config.cwDepth : Nat := 3706
abbrev Config.polyDepth : Nat := 256
abbrev Config.maxN : Nat := 177
/-- Cells of WORK and of GRID: MAX_N rows of MAX_N cells (R45). -/
abbrev Config.cellCount : Nat := 31329

/-- The behavioural parameters of R8; each alternative value is a valid model argument (D29, D30, D32, D33). -/
structure Params where
  /-- RUN_EXCESS_BASE of R241: 5, alternative 4. -/
  runExcessBase : Nat
  /-- FINDER_EDGE_LIGHT of R243: true, alternative false. -/
  finderEdgeLight : Bool
  /-- MASK_REMAINDER_BITS of R212: false, alternative true. -/
  maskRemainderBits : Bool
  /-- DARK_MODULE_IN_TEST of R209: true, alternative false. -/
  darkModuleInTest : Bool
  deriving DecidableEq, Repr

/-- The values QRIM-CORE takes (R8). `State.reset` has them; a machine with other values has them in its state's `params`. -/
def Config.params : Params := ⟨5, true, false, true⟩

/-! Free values (notes/assumptions/3, 4, 5). Nothing constrains them. `epoch` numbers the draw a memory's unwritten
locations come from, `i` the location. -/

/-- What a bus read of a register or window other than ID, STATUS, ERRCODE, IRQ_EN returns while BUSY (R306): draw number `n`. -/
opaque Config.freeBusWord (n : Nat) : Word
/-- A TEXT word nothing has written (R341). -/
opaque Config.freeWord (epoch i : Nat) : Word
/-- A byte of SEG, CW, PA, PB or PR nothing has written (R41, R43, R44, R341). -/
opaque Config.freeByte (epoch i : Nat) : Byte
/-- A bit of BB, or a GRID module, nothing has written (R42, R45, R341). -/
opaque Config.freeBit (epoch i : Nat) : Bool
/-- A WORK cell nothing has written: any of the four codes (R341, U3). -/
opaque Config.freeCode (epoch i : Nat) : Code

end Sys2Proof
end

