-- ==== Sys2Proof/Machine/State.lean ====
section
/-! DEFINITION. The state of QRIM-CORE and of its host (spec/10_state.md; 30_encoding.md R86; 70_reset_and_hazards.md
R341), the reasons a step can stop, and the reset state. STATE IS PLAIN DATA. -/

namespace Sys2Proof.Machine

/-- The engine phase (R21): IDLE, or BUSY with the accepted command word. STATUS.BUSY is this phase. -/
inductive Phase where
  | idle
  | busy (word : Word)
  deriving DecidableEq, Repr

/-- The stored bits of STATUS (R24). -/
structure Status where
  done : Bool
  err : Bool
  haz : Bool
  segValid : Bool
  verValid : Bool
  cwValid : Bool
  workValid : Bool
  workTest : Bool
  gridValid : Bool
  deriving DecidableEq, Repr

/-- The error codes (R307). Their numbers are `ErrCode.code`. -/
inductive ErrCode where
  | dataTooLong
  | capacityExceeded
  | outOfRange
  | gfLogZero
  | badOperand
  | illegalCommand
  | invalidCodepoint
  | sequence
  | unsetCell
  | bufferOverflow
  deriving DecidableEq, Repr

/-- ERRCODE (R25). -/
structure ErrRecord where
  code : Byte
  op : Byte
  step : Byte
  deriving DecidableEq, Repr

/-- IRQ_EN (R26). -/
structure IrqEnable where
  doneIe : Bool
  errIe : Bool
  hazIe : Bool
  deriving DecidableEq, Repr

/-- The other registers (R27..R39), each at the width of its field; a register's reserved bits are not stored. -/
structure Regs where
  ecLevel : BitVec 2
  forceVersion : BitVec 6
  textLen : BitVec 13
  opa : Word
  opb : Word
  res : Word
  paLen : BitVec 9
  pbLen : BitVec 9
  prLen : BitVec 9
  bbLen : BitVec 16
  segLen : BitVec 12
  version : BitVec 6
  moduleCount : BitVec 8
  selEc : BitVec 2
  dataCw : BitVec 12
  totalCw : BitVec 12
  numBlocks : BitVec 7
  workSize : BitVec 8
  /-- MASK [2:0], TEST [3], VERSION [9:4], EC [11:10] (R36) -/
  workInfo : BitVec 12
  /-- MASK [2:0], VERSION [9:4], EC [11:10]; bit 3 is reserved (R37) -/
  gridInfo : BitVec 12
  gridSize : BitVec 8
  qrow : Word
  qcol : Word
  bestMask : BitVec 3
  penTotal : Word
  penN1 : Word
  penN2 : Word
  penN3 : Word
  penN4 : Word
  /-- PENALTY0..PENALTY7 (R39) -/
  penalties : Vector Word 8
  deriving DecidableEq, Repr

/-- One internal memory: the locations written, as (index, value) pairs with strictly rising indices, and the number of
the draw that its other locations hold (R341; notes/assumptions/3, 13). A byte memory's `cells` is a `List Host.Cell`. -/
structure Mem (α : Type) where
  epoch : Nat
  cells : List (Nat × α)
  deriving DecidableEq, Repr

/-- The internal memories (R40..R45). WORK and GRID cell (r, c) has index 177·r + c. -/
structure Mems where
  text : Mem Word
  seg : Mem Byte
  bb : Mem Bool
  cw : Mem Byte
  pa : Mem Byte
  pb : Mem Byte
  pr : Mem Byte
  work : Mem Code
  grid : Mem Bool
  deriving DecidableEq, Repr

/-- The registers by name (the table of 10_state.md section 2). -/
inductive Reg where
  | id | cmd | status | errcode | irqEn | ecLevel | forceVersion | textLen
  | opa | opb | res | paLen | pbLen | prLen | bbLen | segLen
  | version | moduleCount | selEc | dataCw | totalCw | numBlocks | workSize | workInfo
  | gridInfo | gridSize | qrow | qcol | bestMask | penTotal | penN1 | penN2 | penN3 | penN4
  | penalty (m : Fin 8)
  deriving DecidableEq, Repr

/-- The windows of the address map (R52). -/
inductive Window where
  | text | seg | bb | cw | pa | pb | pr | work | grid | expRom | logRom
  deriving DecidableEq, Repr

/-- The size of a bus access: only `word` is admitted (R51). -/
inductive AccessSize where
  | byte
  | half
  | word
  deriving DecidableEq, Repr

/-- A host bus access (R50): an offset from BASE and, for a write, the data. -/
inductive Access where
  | read (size : AccessSize) (addr : BitVec 18)
  | write (size : AccessSize) (addr : BitVec 18) (data : Word)
  deriving DecidableEq, Repr

/-- The target of a host line (R86). -/
inductive Target where
  | reg (r : Reg)
  | word (w : Window) (k : Nat)
  | raw (addr : BitVec 18)
  deriving DecidableEq, Repr

/-- A line of a host program (R86). Names and labels are numbers; a label is the index of a line. R86 gives no production
for the condition of a BR; a test of one bit of a named value is the model's choice, and so is a command line that carries
mask= and test for MATRIX_BUILD only (notes/assumptions/12). -/
inductive HostLine where
  /-- `WR target, value` -/
  | wr (target : Target) (value : Word)
  /-- `RD target -> name` -/
  | rd (target : Target) (name : Option Nat)
  /-- a command mnemonic, `WR CMD, word`, for a legal word; an illegal one is written as a `wr` line to CMD -/
  | command (i : Instr)
  /-- `BR name[bit]==value, label` -/
  | br (name : Nat) (bit : Fin 32) (value : Bool) (label : Nat)
  /-- `EXPECT name == value` -/
  | expect (name : Nat) (value : Word)
  /-- a bus access of any size, which R86's lines cannot express (R51) -/
  | bus (a : Access)
  deriving DecidableEq, Repr

/-- The host agent (R20, R315, R316): its program, the line it is at, the values it has named, newest first, and
whether an EXPECT has failed. -/
structure HostAgent where
  prog : List HostLine
  line : Nat
  named : List (Nat × Word)
  failed : Bool
  deriving DecidableEq, Repr

/-- Whose turn it is (R308(e), R319; notes/assumptions/1). -/
inductive Turn where
  | host
  | engine
  /-- RST asserted (true) or released (false) (R340) -/
  | rst (asserted : Bool)
  deriving DecidableEq, Repr

/-- The state of the whole system. `sched` and `draws` are the model's own (notes/assumptions/1, 3, 4). -/
structure State where
  /-- the implementation's parameters (R8): no step changes them (notes/assumptions/15) -/
  params : Params
  phase : Phase
  status : Status
  errcode : ErrRecord
  irqEn : IrqEnable
  regs : Regs
  mems : Mems
  /-- the level of the RST input (R340) -/
  rst : Bool
  host : HostAgent
  /-- the turns still to be taken; when it is empty the default order applies -/
  sched : List Turn
  /-- the number of the next free draw -/
  draws : Nat
  deriving DecidableEq, Repr

/-- Why a bus access is not admitted (R51, R58, R340, U8). -/
inductive NotAdmitted where
  /-- narrower than 4 bytes -/
  | narrow
  /-- not 4-byte aligned -/
  | misaligned
  /-- no mapped region of R52 -/
  | unmapped
  /-- RST is asserted (R340) -/
  | inReset
  deriving DecidableEq, Repr

/-- A fault: no agent can move. -/
inductive Fault where
  /-- Raised by `State.nextMove` when the engine is IDLE, no scheduled turn is left, and the host is at an access that is
  not admitted: the host has no step and the run does not end (R51, R317, U8). Safe: the model stops where the
  hardware stands still. -/
  | hostStuck (why : NotAdmitted)
  deriving DecidableEq, Repr

/-- A refusal. None is about a command: the engine refuses no word (R301). -/
inductive Refusal where
  /-- Raised by a rejected arm of `exec` for a command without a meaning: there is none left. Safe. -/
  | notModelled (mnemonic : String)
  /-- Raised by `State.hostTurn` when a host program's BR or EXPECT names a value no RD has named (R86 gives it no
  meaning; R317: a property of the program text). Safe. -/
  | unboundName (name : Nat)
  /-- Raised by `State.hostTurn` when a host line's target names no word of its window (R86; R317). Safe. -/
  | badTarget (w : Window) (k : Nat)
  deriving DecidableEq, Repr

/-- STATUS at reset (R24, R341). -/
def Status.reset : Status := ⟨false, false, false, false, false, false, false, false, false⟩

/-- ERRCODE at reset (R25, R341). -/
def ErrRecord.reset : ErrRecord := ⟨0, 0, 0⟩

/-- IRQ_EN at reset (R26, R341). -/
def IrqEnable.reset : IrqEnable := ⟨false, false, false⟩

/-- The other registers at reset (R341). -/
def Regs.reset : Regs where
  ecLevel := 0
  forceVersion := 0
  textLen := 0
  opa := 0
  opb := 0
  res := 0
  paLen := 0
  pbLen := 0
  prLen := 0
  bbLen := 0
  segLen := 0
  version := 0
  moduleCount := 0
  selEc := 0
  dataCw := 0
  totalCw := 0
  numBlocks := 0
  workSize := 0
  workInfo := 0
  gridInfo := 0
  gridSize := 0
  qrow := 0
  qcol := 0
  bestMask := 0
  penTotal := 0
  penN1 := 0
  penN2 := 0
  penN3 := 0
  penN4 := 0
  penalties := #v[0, 0, 0, 0, 0, 0, 0, 0]

/-- Memories nothing has written, their contents draws `d` to `d + 8` (R341). -/
def Mems.fresh (d : Nat) : Mems where
  text := ⟨d, []⟩
  seg := ⟨d + 1, []⟩
  bb := ⟨d + 2, []⟩
  cw := ⟨d + 3, []⟩
  pa := ⟨d + 4, []⟩
  pb := ⟨d + 5, []⟩
  pr := ⟨d + 6, []⟩
  work := ⟨d + 7, []⟩
  grid := ⟨d + 8, []⟩

/-- The machine right after reset (R341), RST released, with QRIM-CORE's parameters (R8), no host program and no turn
scheduled. -/
def State.reset : State where
  params := Config.params
  phase := .idle
  status := Status.reset
  errcode := ErrRecord.reset
  irqEn := IrqEnable.reset
  regs := Regs.reset
  mems := Mems.fresh 0
  rst := false
  host := ⟨[], 0, [], false⟩
  sched := []
  draws := 9

end Sys2Proof.Machine
end

