-- ==== Sys2Proof/Machine/Ops.lean ====
section
/-! DEFINITION. The named operations over memories and registers, and the command lifecycle: acceptance (R300),
completion (R302), an error (R303) as one shared operation, its acknowledgement (R311), reset (R340). -/

namespace Sys2Proof.Machine

/-! ## One memory -/

/-- The value listed for index `i`. -/
def findCell {α : Type} : List (Nat × α) → Nat → Option α
  | [], _ => none
  | (k, v) :: rest, i => if k = i then some v else findCell rest i

/-- List `v` for index `i`, keeping the indices rising. -/
def putCell {α : Type} : List (Nat × α) → Nat → α → List (Nat × α)
  | [], i, v => [(i, v)]
  | (k, w) :: rest, i, v =>
    if i < k then (i, v) :: (k, w) :: rest
    else if i = k then (i, v) :: rest
    else (k, w) :: putCell rest i v

/-- The values `vs` at consecutive indices from `start`. -/
def numbered {α : Type} (start : Nat) : List α → List (Nat × α)
  | [] => []
  | v :: vs => (start, v) :: numbered (start + 1) vs

/-- What location `i` holds: the value written, else the free value of the memory's draw (R341). -/
def Mem.read {α : Type} (free : Nat → Nat → α) (m : Mem α) (i : Nat) : α :=
  (findCell m.cells i).getD (free m.epoch i)

/-- The `len` locations from `start` on. -/
def Mem.readBlock {α : Type} (free : Nat → Nat → α) (m : Mem α) (start len : Nat) : List α :=
  (List.range len).map fun j => m.read free (start + j)

/-- Store one value. A memory of `depth` locations has no location `depth` or above (notes/assumptions/21). -/
def Mem.write {α : Type} (depth : Nat) (m : Mem α) (i : Nat) (v : α) : Mem α :=
  if i < depth then { m with cells := putCell m.cells i v } else m

/-- Store the values `vs` from `start` on. -/
def Mem.writeBlock {α : Type} (depth : Nat) (m : Mem α) (start : Nat) (vs : List α) : Mem α :=
  { m with
    cells := m.cells.filter (fun c => c.1 < start) ++ numbered start (vs.take (depth - start)) ++
      m.cells.filter (fun c => start + vs.length ≤ c.1) }

/-- A memory that holds `vs` from location 0 on, every other location unspecified: draw `epoch`
(R41, R43, R44; notes/assumptions/5). -/
def Mem.renewed {α : Type} (depth epoch : Nat) (vs : List α) : Mem α := ⟨epoch, numbered 0 (vs.take depth)⟩

/-- The listed indices rise strictly, from `lo` on, and stay below `hi`. -/
def cellsWithin {α : Type} (lo hi : Nat) : List (Nat × α) → Bool
  | [] => true
  | (k, _) :: rest => decide (lo ≤ k) && decide (k < hi) && cellsWithin (k + 1) hi rest

/-- The canonical form of a memory of `depth` locations. -/
def Mem.wf {α : Type} (depth : Nat) (m : Mem α) : Bool := cellsWithin 0 depth m.cells

/-- The canonical form of all memories. -/
def Mems.wf (m : Mems) : Bool :=
  m.text.wf Config.textDepth && m.seg.wf Config.segDepth && m.bb.wf Config.bbBits && m.cw.wf Config.cwDepth &&
  m.pa.wf Config.polyDepth && m.pb.wf Config.polyDepth && m.pr.wf Config.polyDepth &&
  m.work.wf Config.cellCount && m.grid.wf Config.cellCount

/-- The numbers of the draws the memories' unwritten locations hold. -/
def Mems.epochs (m : Mems) : List Nat :=
  [m.text.epoch, m.seg.epoch, m.bb.epoch, m.cw.epoch, m.pa.epoch, m.pb.epoch, m.pr.epoch, m.work.epoch, m.grid.epoch]

/-! ## The memories of the state -/

/-- TEXT[k] (R40). -/
def State.textAt (s : State) (k : Nat) : Word := s.mems.text.read Config.freeWord k
/-- SEG[j] (R41). -/
def State.segAt (s : State) (j : Nat) : Byte := s.mems.seg.read Config.freeByte j
/-- BB[i] (R42). -/
def State.bbAt (s : State) (i : Nat) : Bool := s.mems.bb.read Config.freeBit i
/-- CW[j] (R43). -/
def State.cwAt (s : State) (j : Nat) : Byte := s.mems.cw.read Config.freeByte j
/-- PA[j] (R44). -/
def State.paAt (s : State) (j : Nat) : Byte := s.mems.pa.read Config.freeByte j
/-- PB[j] (R44). -/
def State.pbAt (s : State) (j : Nat) : Byte := s.mems.pb.read Config.freeByte j
/-- PR[j] (R44). -/
def State.prAt (s : State) (j : Nat) : Byte := s.mems.pr.read Config.freeByte j

/-- The index of cell (r, c) in WORK and GRID (R45). -/
def cellIndex (r c : Nat) : Nat := Config.maxN * r + c

/-- WORK[r][c] (R45). -/
def State.workAt (s : State) (r c : Nat) : Code := s.mems.work.read Config.freeCode (cellIndex r c)
/-- GRID[r][c] (R45): true is dark. -/
def State.gridAt (s : State) (r c : Nat) : Bool := s.mems.grid.read Config.freeBit (cellIndex r c)

/-- Store rows of cells, row `r` of the list at row `r` of the matrix, from column 0 on. -/
def Mem.writeRows {α : Type} (m : Mem α) (r : Nat) : List (List α) → Mem α
  | [] => m
  | row :: rows => (m.writeBlock Config.cellCount (cellIndex r 0) row).writeRows (r + 1) rows

/-- RES <- v (R30). -/
def State.setRes (s : State) (v : Word) : State := { s with regs := { s.regs with res := v } }

/-- PR[0..len(r)) <- r and PR_LEN <- len(r), the coefficients from PR_LEN on unspecified (R31, R44). -/
def State.setPr (s : State) (r : List Byte) : State :=
  { s with
    regs := { s.regs with prLen := BitVec.ofNat 9 r.length }
    mems := { s.mems with pr := Mem.renewed Config.polyDepth s.draws r }
    draws := s.draws + 1 }

/-! ## The command lifecycle -/

/-- The number of an error code (R307). -/
def ErrCode.code : ErrCode → Byte
  | .dataTooLong => 0x01
  | .capacityExceeded => 0x02
  | .outOfRange => 0x03
  | .gfLogZero => 0x04
  | .badOperand => 0x05
  | .illegalCommand => 0x06
  | .invalidCodepoint => 0x07
  | .sequence => 0x08
  | .unsetCell => 0x09
  | .bufferOverflow => 0x0A

/-- The accepted command word w: phase <- BUSY(w), DONE <- 0, nothing else (R300, third row). -/
def State.accept (s : State) (w : Word) : State :=
  { s with phase := .busy w, status := { s.status with done := false } }

/-- Completion: phase <- IDLE (so BUSY = 0) and DONE <- 1 (R302). -/
def State.complete (s : State) : State :=
  { s with phase := .idle, status := { s.status with done := true } }

/-- AN ERROR: the completion of a command that raised `e`. `s` already carries the error-time effects of R303(c).
ERR and DONE are set and ERRCODE records the code, the opcode and the step; no control is transferred (R303, R310). -/
def State.raise (s : State) (e : ErrCode) (op step : Byte) : State :=
  { s with
    phase := .idle
    status := { s.status with done := true, err := true }
    errcode := ⟨e.code, op, step⟩ }

/-- THE RETURN FROM AN ERROR: the W1C write of STATUS clears the bits of DONE, ERR and HAZ written as 1 (R24). Clearing
ERR re-enables command acceptance and restores nothing (R304, R311). -/
def State.acknowledge (s : State) (v : Word) : State :=
  { s with
    status :=
      { s.status with
        done := s.status.done && !v.getLsbD 1
        err := s.status.err && !v.getLsbD 2
        haz := s.status.haz && !v.getLsbD 3 } }

/-- HAZ <- 1: a host write was dropped (R304, R305). -/
def State.setHaz (s : State) : State := { s with status := { s.status with haz := true } }

/-- How a command's pseudocode ends (R11): with a state to complete, or with `raise e`. On `raise`, the state is the one
before the command but for the error-time effects of R303(c). -/
inductive Result where
  | ok (s : State)
  | raise (e : ErrCode) (s : State)
  deriving DecidableEq, Repr

/-- The completion of a command with opcode `op` (R302, R303(b)). -/
def finish (op : Byte) : Result → Host.Outcome State Fault Refusal
  | .ok s => .next s.complete
  | .raise e s => .next (s.raise e op op)

/-- The registers' reset values but for IRQ_EN, with STATUS 0; memories kept (R271). -/
def State.resetRegisters (s : State) : State :=
  { s with status := Status.reset, errcode := ErrRecord.reset, regs := Regs.reset }

/-- RST asserted: the reset state of R341, a command in flight abandoned (R340). Every memory is unspecified anew. The
parameters, the host, its program and the schedule are outside the reset (notes/assumptions/10). -/
def State.assertReset (s : State) : State :=
  { State.reset with
    params := s.params
    mems := Mems.fresh s.draws
    rst := true
    host := s.host
    sched := s.sched
    draws := s.draws + 9 }

/-- RST released (R340). -/
def State.releaseReset (s : State) : State := { s with rst := false }

end Sys2Proof.Machine
end

