-- ==== Sys2Proof/Machine/Operands.lean ====
section
/-! DEFINITION. How a command reads its operands (spec/30_encoding.md R82). -/

namespace Sys2Proof.Machine

/-- sint(w): the whole word as two's complement (R10, R82). -/
def sint (w : Word) : Int := w.toInt

/-- uint(w) (R10, R82). -/
def uint (w : Word) : Nat := w.toNat

/-- byte(w): bits [7:0], with bits [31:8] required to be 0; a failure is BAD_OPERAND (R82). -/
def byteOperand (w : Word) : Option Byte := if w.extractLsb' 8 24 = 0 then some (w.extractLsb' 0 8) else none

/-- PA[0..PA_LEN), or none where PA_LEN is above POLY_DEPTH (R82, R112). -/
def State.paOperand (s : State) : Option (List Byte) :=
  if s.regs.paLen.toNat ≤ Config.polyDepth then
    some (s.mems.pa.readBlock Config.freeByte 0 s.regs.paLen.toNat)
  else none

/-- PB[0..PB_LEN), or none where PB_LEN is above POLY_DEPTH (R82, R112). -/
def State.pbOperand (s : State) : Option (List Byte) :=
  if s.regs.pbLen.toNat ≤ Config.polyDepth then
    some (s.mems.pb.readBlock Config.freeByte 0 s.regs.pbLen.toNat)
  else none

/-- TEXT[0..TEXT_LEN), or none where TEXT_LEN is above TEXT_DEPTH (R82, R147, R153). -/
def State.textOperand (s : State) : Option (List Word) :=
  if s.regs.textLen.toNat ≤ Config.textDepth then
    some (s.mems.text.readBlock Config.freeWord 0 s.regs.textLen.toNat)
  else none

/-- SEG[0..SEG_LEN) (R82). -/
def State.segOperand (s : State) : List Byte := s.mems.seg.readBlock Config.freeByte 0 s.regs.segLen.toNat

/-- CW[0..TOTAL_CW) (R82). -/
def State.cwOperand (s : State) : List Byte := s.mems.cw.readBlock Config.freeByte 0 s.regs.totalCw.toNat

/-- WORK[0..n)², row by row (R82). -/
def State.workOperand (s : State) (n : Nat) : List (List Code) :=
  (List.range n).map fun r => s.mems.work.readBlock Config.freeCode (cellIndex r 0) n

end Sys2Proof.Machine
end

