-- ==== Sys2Proof/Machine/Gf.lean ====
section
/-! DEFINITION. GF(256), polynomials and Reed–Solomon (spec/41_gf_poly.md R100..R120). A polynomial is a list of bytes,
highest degree first (R107). -/

namespace Sys2Proof.Machine

/-! ## Field functions -/

/-- gexp(e) = EXP[e mod 255] for every integer e (R104). -/
def gexp (e : Int) : Byte := expAt (e % 255).toNat

/-- a ⊗ b (R106). -/
def gmul (a b : Byte) : Byte := if a = 0 ∨ b = 0 then 0 else expAt ((logAt a + logAt b) % 255)

/-! ## Polynomials -/

/-- norm(p): the leading zeros stripped (R107). -/
def norm (p : List Byte) : List Byte := p.dropWhile (· == 0)

/-- The coefficients r[i+j] = ⊕ a[i] ⊗ b[j] of R108, for a non-empty b. -/
def convolve (b : List Byte) : List Byte → List Byte
  | [] => List.replicate (b.length - 1) 0
  | x :: xs => List.zipWith (· ^^^ ·) (b.map (gmul x) ++ List.replicate xs.length 0) (0 :: convolve b xs)

/-- pmul(a, b) (R108). -/
def pmul (a b : List Byte) : List Byte :=
  if norm a = [] ∨ norm b = [] then [] else convolve (norm b) (norm a)

/-- a[i] ⊕ d[i] for i below len(d); a is at least as long as d. -/
def xorFront : List Byte → List Byte → List Byte
  | a, [] => a
  | [], _ => []
  | x :: a, y :: d => (x ^^^ y) :: xorFront a d

/-- One pass of the loop of R109 on a normalized a with len(a) >= len(b): a[0] becomes 0 and is stripped. -/
def reduceOnce (a b : List Byte) : List Byte :=
  let ratio : Int := (logAt (a.headD 0) : Int) - (logAt (b.headD 0) : Int)
  norm (xorFront a (b.map fun x => gmul x (gexp ratio)))

/-- The loop of R109. Each pass makes a shorter, so len(a) passes are enough. -/
def reduceLoop (b : List Byte) : Nat → List Byte → List Byte
  | 0, a => a
  | fuel + 1, a => if b.length ≤ a.length then reduceLoop b fuel (reduceOnce a b) else a

/-- pmod(a, b), for b with norm(b) ≠ [] (R109). -/
def pmod (a b : List Byte) : List Byte := reduceLoop (norm b) (norm a).length (norm a)

/-- g_n (R110). -/
def genPoly : Nat → List Byte
  | 0 => [0x01]
  | k + 1 => pmul (genPoly k) [0x01, gexp k]

/-- `r` left-padded with zeros to `n` coefficients. -/
def padLeft (n : Nat) (r : List Byte) : List Byte := List.replicate (n - r.length) 0 ++ r

/-- rs_ecc(data, n) (R111). -/
def rsEcc (data : List Byte) (n : Nat) : List Byte := padLeft n (pmod (data ++ List.replicate n 0) (genPoly n))

/-! ## Commands -/

/-- GF_EXP's pseudocode (R113). -/
def gfExp (s : State) : Result := .ok (s.setRes ((gexp (sint s.regs.opa)).setWidth 32))

/-- `GF_EXP` (R113). -/
def execGfExp (s : State) : Host.Outcome State Fault Refusal := finish 0x10 (gfExp s)

/-- GF_LOG's pseudocode (R114). -/
def gfLog (s : State) : Result :=
  match byteOperand s.regs.opa with
  | none => .raise .badOperand s
  | some a => if a = 0 then .raise .gfLogZero s else .ok (s.setRes (BitVec.ofNat 32 (logAt a)))

/-- `GF_LOG` (R114). -/
def execGfLog (s : State) : Host.Outcome State Fault Refusal := finish 0x11 (gfLog s)

/-- GF_MUL's pseudocode (R115). -/
def gfMul (s : State) : Result :=
  match byteOperand s.regs.opa, byteOperand s.regs.opb with
  | some a, some b => .ok (s.setRes ((gmul a b).setWidth 32))
  | _, _ => .raise .badOperand s

/-- `GF_MUL` (R115). -/
def execGfMul (s : State) : Host.Outcome State Fault Refusal := finish 0x12 (gfMul s)

/-- POLY_MUL's pseudocode (R116). -/
def polyMul (s : State) : Result :=
  match s.paOperand, s.pbOperand with
  | some pa, some pb =>
    if norm pa ≠ [] ∧ norm pb ≠ [] ∧ Config.polyDepth < (norm pa).length + (norm pb).length - 1 then
      .raise .badOperand s
    else .ok (s.setPr (pmul pa pb))
  | _, _ => .raise .badOperand s

/-- `POLY_MUL` (R116). -/
def execPolyMul (s : State) : Host.Outcome State Fault Refusal := finish 0x18 (polyMul s)

/-- POLY_MOD's pseudocode (R117). -/
def polyMod (s : State) : Result :=
  match s.paOperand, s.pbOperand with
  | some pa, some pb => if norm pb = [] then .raise .badOperand s else .ok (s.setPr (pmod pa pb))
  | _, _ => .raise .badOperand s

/-- `POLY_MOD` (R117). -/
def execPolyMod (s : State) : Host.Outcome State Fault Refusal := finish 0x19 (polyMod s)

/-- RS_GENPOLY's pseudocode (R118). -/
def rsGenpoly (s : State) : Result :=
  if 255 < uint s.regs.opa then .raise .badOperand s else .ok (s.setPr (genPoly (uint s.regs.opa)))

/-- `RS_GENPOLY` (R118). -/
def execRsGenpoly (s : State) : Host.Outcome State Fault Refusal := finish 0x1A (rsGenpoly s)

/-- RS_ECC's pseudocode (R119). -/
def rsEccCmd (s : State) : Result :=
  match s.paOperand with
  | none => .raise .badOperand s
  | some pa => if 255 < uint s.regs.opa then .raise .badOperand s else .ok (s.setPr (rsEcc pa (uint s.regs.opa)))

/-- `RS_ECC` (R119). -/
def execRsEcc (s : State) : Host.Outcome State Fault Refusal := finish 0x1B (rsEccCmd s)

end Sys2Proof.Machine
end

