-- ==== Sys2Proof/Machine/Flags.lean ====
section
/-! DEFINITION. STATUS, ERRCODE and IRQ_EN as words, the validity flags' updates and the interrupt line (spec/10_state.md
R24..R26, R47, R48; 60_exceptions.md R309). -/

namespace Sys2Proof.Machine

/-- STATUS.BUSY (R24): 1 while the engine phase is BUSY. -/
def Phase.isBusy : Phase → Bool
  | .idle => false
  | .busy _ => true

/-- STATUS as a word (R24). -/
def State.statusWord (s : State) : Word :=
  (0 : BitVec 22) ++ BitVec.ofBool s.status.gridValid ++ BitVec.ofBool s.status.workTest ++
    BitVec.ofBool s.status.workValid ++ BitVec.ofBool s.status.cwValid ++ BitVec.ofBool s.status.verValid ++
    BitVec.ofBool s.status.segValid ++ BitVec.ofBool s.status.haz ++ BitVec.ofBool s.status.err ++
    BitVec.ofBool s.status.done ++ BitVec.ofBool s.phase.isBusy

/-- ERRCODE as a word (R25). -/
def ErrRecord.word (e : ErrRecord) : Word := (0 : BitVec 8) ++ e.step ++ e.op ++ e.code

/-- IRQ_EN as a word (R26). -/
def IrqEnable.word (e : IrqEnable) : Word :=
  (0 : BitVec 28) ++ BitVec.ofBool e.hazIe ++ BitVec.ofBool e.errIe ++ BitVec.ofBool e.doneIe ++ (0 : BitVec 1)

/-- IRQ_EN written as a word; reserved bits are ignored (R19, R26). -/
def IrqEnable.ofWord (v : Word) : IrqEnable := ⟨v.getLsbD 1, v.getLsbD 2, v.getLsbD 3⟩

/-- The interrupt output, a pure function of the state (R309). -/
def State.irq (s : State) : Bool :=
  (s.status.done && s.irqEn.doneIe) || (s.status.err && s.irqEn.errIe) || (s.status.haz && s.irqEn.hazIe)

/-- A build's WORK_INFO: MASK, TEST, VERSION, EC (R36). -/
def packInfo (mask : BitVec 3) (test : Bool) (version : BitVec 6) (ec : BitVec 2) : BitVec 12 :=
  ec ++ version ++ BitVec.ofBool test ++ mask

/-- GRID_INFO from WORK_INFO: bit 3 cleared (R37, R272). -/
def gridInfoOf (workInfo : BitVec 12) : BitVec 12 := workInfo &&& 0xFF7

/-- SEG_VALID <- 1; VER_VALID <- 0; CW_VALID <- 0 (R153). -/
def Status.segmentLoaded (t : Status) : Status := { t with segValid := true, verValid := false, cwValid := false }

/-- The error-time effect of SEG_LOAD on the flags (R303). -/
def Status.segmentLost (t : Status) : Status := { t with segValid := false, verValid := false, cwValid := false }

/-- VER_VALID <- 1; CW_VALID <- 0 (R173). -/
def Status.versionSelected (t : Status) : Status := { t with verValid := true, cwValid := false }

/-- The error-time effect of SELECT_VERSION on the flags (R303). -/
def Status.versionLost (t : Status) : Status := { t with verValid := false, cwValid := false }

/-- WORK_VALID <- 1; WORK_TEST <- test (R214). -/
def Status.workBuilt (t : Status) (test : Bool) : Status := { t with workValid := true, workTest := test }

/-- A host write to WORK or WORK_SIZE clears WORK_VALID (R36, R56). -/
def State.clearWorkValid (s : State) : State := { s with status := { s.status with workValid := false } }

end Sys2Proof.Machine
end

