-- ==== Sys2Proof/Machine/Segment.lean ====
section
/-! DEFINITION. The bit buffer and the byte-mode data segment (spec/42_bitbuf_segment.md R140..R153). -/

namespace Sys2Proof.Machine

/-! ## Bit buffer -/

/-- The bits of a field of `len` bits, most significant first: value[len - 1 - k] for k in 0..len-1 (R142). -/
def fieldBits (value len : Nat) : List Bool := (List.range len).map fun k => value.testBit (len - 1 - k)

/-- The 8 bits of a byte, most significant first (R142). -/
def byteBits (b : Byte) : List Bool := fieldBits b.toNat 8

/-- put: append the bits of a field at BB_LEN, and write no other bit (R142; for R140's sentence on the bits from the new
BB_LEN on, notes/assumptions/6). -/
def State.putField (s : State) (value len : Nat) : State :=
  { s with
    regs := { s.regs with bbLen := BitVec.ofNat 16 (s.regs.bbLen.toNat + len) }
    mems :=
      { s.mems with
        bb := s.mems.bb.writeBlock Config.bbBits s.regs.bbLen.toNat (fieldBits value len) } }

/-- BB[i] <- bits[i], 0 from len(bits) on; BB_LEN <- len(bits) (R143, R176, R177). -/
def State.setBitBuffer (s : State) (bits : List Bool) : State :=
  { s with
    regs := { s.regs with bbLen := BitVec.ofNat 16 bits.length }
    mems :=
      { s.mems with
        bb := s.mems.bb.writeBlock Config.bbBits 0 (bits ++ List.replicate (Config.bbBits - bits.length) false) } }

/-- BB_CLEAR's pseudocode (R143). -/
def bbClear (s : State) : Result := .ok (s.setBitBuffer [])

/-- `BB_CLEAR` (R143). -/
def execBbClear (s : State) : Host.Outcome State Fault Refusal := finish 0x20 (bbClear s)

/-- BB_PUT's pseudocode (R144). -/
def bbPut (s : State) : Result :=
  if 32 < uint s.regs.opb then .raise .badOperand s
  else if Config.bbBits < s.regs.bbLen.toNat + uint s.regs.opb then .raise .bufferOverflow s
  else .ok (s.putField (uint s.regs.opa) (uint s.regs.opb))

/-- `BB_PUT` (R144). -/
def execBbPut (s : State) : Host.Outcome State Fault Refusal := finish 0x21 (bbPut s)

/-- BB_GET's pseudocode (R145). -/
def bbGet (s : State) : Result :=
  if s.regs.bbLen.toNat ≤ uint s.regs.opa then .raise .outOfRange s
  else .ok (s.setRes ((BitVec.ofBool (s.bbAt (uint s.regs.opa))).setWidth 32))

/-- `BB_GET` (R145). -/
def execBbGet (s : State) : Host.Outcome State Fault Refusal := finish 0x22 (bbGet s)

/-! ## Byte-mode data segment -/

/-- Validity of a code point (R148). -/
def validCodepoint (w : Word) : Bool := decide (w.toNat ≤ 0x10FFFF) && !(decide (0xD800 ≤ w.toNat) && decide (w.toNat ≤ 0xDFFF))

/-- The lowest index, counted from `k`, of a word that is no valid code point (R153). -/
def firstInvalid : Nat → List Word → Option Nat
  | _, [] => none
  | k, w :: ws => if validCodepoint w then firstInvalid (k + 1) ws else some k

/-- A UTF-8 continuation byte: 0x80 ⊕ (x & 0x3F) (R149). -/
def continuation (x : Nat) : Byte := 0x80 ^^^ BitVec.ofNat 8 (x &&& 0x3F)

/-- utf8(c) of one valid code point (R149). -/
def utf8 (c : Nat) : List Byte :=
  if c ≤ 0x7F then [BitVec.ofNat 8 c]
  else if c ≤ 0x7FF then [0xC0 ^^^ BitVec.ofNat 8 (c >>> 6), continuation c]
  else if c ≤ 0xFFFF then [0xE0 ^^^ BitVec.ofNat 8 (c >>> 12), continuation (c >>> 6), continuation c]
  else [0xF0 ^^^ BitVec.ofNat 8 (c >>> 18), continuation (c >>> 12), continuation (c >>> 6), continuation c]

/-- The byte-order mark (R150). -/
def byteOrderMark : List Byte := [0xEF, 0xBB, 0xBF]

/-- payload(text) (R150). -/
def payload (text : List Word) : List Byte :=
  let b := text.flatMap fun w => utf8 w.toNat
  if b.length ≠ text.length then byteOrderMark ++ b else b

/-- SEG[0..len(b)) <- b and SEG_LEN <- len(b), the bytes from SEG_LEN on unspecified (R33, R41, R153). -/
def State.setSegment (s : State) (b : List Byte) : State :=
  { s with
    regs := { s.regs with segLen := BitVec.ofNat 12 b.length }
    mems := { s.mems with seg := Mem.renewed Config.segDepth s.draws b }
    draws := s.draws + 1
    status := s.status.segmentLoaded }

/-- The error-time effects of SEG_LOAD on every error (R303(c)). -/
def State.loseSegment (s : State) : State := { s with status := s.status.segmentLost }

/-- SEG_LOAD's pseudocode (R153). -/
def segLoad (s : State) : Result :=
  match s.textOperand with
  | none => .raise .badOperand s.loseSegment
  | some text =>
    match firstInvalid 0 text with
    | some k => .raise .invalidCodepoint (s.loseSegment.setRes (BitVec.ofNat 32 k))
    | none =>
      if Config.segDepth < (payload text).length then .raise .dataTooLong s.loseSegment
      else .ok (s.setSegment (payload text))

/-- `SEG_LOAD` (R153). -/
def execSegLoad (s : State) : Host.Outcome State Fault Refusal := finish 0x30 (segLoad s)

end Sys2Proof.Machine
end

