-- ==== Sys2Proof/Machine/Codeword.lean ====
section
/-! DEFINITION. Version selection and codeword construction (spec/43_codeword.md R170..R181). -/

namespace Sys2Proof.Machine

/-! ## Version selection -/

/-- The first version v in 1..40 with CAP[v][col(ec)] >= len (R173). -/
def smallestVersion (ec : BitVec 2) (len : Nat) : Option Nat :=
  ((List.range 40).map (· + 1)).find? fun v => decide (len ≤ cap v ec)

/-- The registers and flags of a successful selection of version v at level ec (R173). CW is left as it is, its bytes that a
smaller TOTAL_CW leaves at TOTAL_CW and above included: R43 and U7 call those unspecified, and keeping them is the model's
choice (notes/assumptions/24). -/
def State.setVersion (s : State) (v : Nat) (ec : BitVec 2) : State :=
  { s with
    regs :=
      { s.regs with
        version := BitVec.ofNat 6 v
        moduleCount := BitVec.ofNat 8 (moduleCountOf v)
        selEc := ec
        dataCw := BitVec.ofNat 12 (dataCodewords v ec)
        totalCw := BitVec.ofNat 12 (totalCodewords v ec)
        numBlocks := BitVec.ofNat 7 (blocks v ec).length }
    status := s.status.versionSelected }

/-- The error-time effects of SELECT_VERSION on every error (R303(c)). -/
def State.loseVersion (s : State) : State :=
  { s with regs := { s.regs with version := 0, moduleCount := 0 }, status := s.status.versionLost }

/-- SELECT_VERSION's pseudocode (R173). -/
def selectVersion (s : State) : Result :=
  let ec := s.regs.ecLevel
  let fv := s.regs.forceVersion.toNat
  let len := s.regs.segLen.toNat
  if s.status.segValid = false then .raise .sequence s.loseVersion
  else if 40 < fv then .raise .badOperand s.loseVersion
  else if fv ≠ 0 then
    if cap fv ec < len then .raise .dataTooLong s.loseVersion else .ok (s.setVersion fv ec)
  else if cap 40 ec < len then .raise .dataTooLong s.loseVersion
  else .ok (s.setVersion ((smallestVersion ec len).getD 40) ec)

/-- `SELECT_VERSION` (R173). -/
def execSelectVersion (s : State) : Host.Outcome State Fault Refusal := finish 0x31 (selectVersion s)

/-! ## Codeword construction -/

/-- The mode indicator, the length field and the payload (R151, R177). -/
def segmentBits (seg : List Byte) (v : Nat) : List Bool :=
  fieldBits 0x4 4 ++ fieldBits seg.length (lenBits v) ++ seg.flatMap byteBits

/-- The terminator, where 4 bits of room remain (R177). -/
def addTerminator (room : Nat) (bits : List Bool) : List Bool :=
  if bits.length + 4 ≤ room then bits ++ fieldBits 0 4 else bits

/-- Zero bits up to a byte boundary (R177). -/
def padToByte (bits : List Bool) : List Bool := bits ++ List.replicate ((8 - bits.length % 8) % 8) false

/-- Pad byte k: 0xEC for even k, else 0x11 (R177). -/
def padByte (k : Nat) : Byte := if k % 2 = 0 then 0xEC else 0x11

/-- Pad bytes while fewer than `room` bits are there (R177). -/
def addPadBytes (room : Nat) (bits : List Bool) : List Bool :=
  bits ++ (List.range ((room - bits.length + 7) / 8)).flatMap fun k => byteBits (padByte k)

/-- The bits of bitstream(seg, v, D), or none for CAPACITY_EXCEEDED (R177). -/
def bitstream (seg : List Byte) (v d : Nat) : Option (List Bool) :=
  let bits := segmentBits seg v
  if 8 * d < bits.length then none else some (addPadBytes (8 * d) (padToByte (addTerminator (8 * d) bits)))

/-- Eight bits, most significant first, as a byte (R141). -/
def bitsByte (bits : List Bool) : Byte := BitVec.ofNat 8 (bits.foldl (fun n b => 2 * n + b.toNat) 0)

/-- Bytes 0..d-1 of a bit sequence: byte j is bits 8j..8j+7, most significant first (R177). -/
def packBytes (bits : List Bool) : Nat → List Byte
  | 0 => []
  | d + 1 => bitsByte (bits.take 8) :: packBytes (bits.drop 8) d

/-- The block split and the EC of each block (R178): consecutive slices, in table order. -/
def splitBlocks : List (Nat × Nat) → List Byte → List (List Byte × List Byte)
  | [], _ => []
  | (t, d) :: rest, data => (data.take d, rsEcc (data.take d) (t - d)) :: splitBlocks rest (data.drop d)

/-- The i-th elements of the lists that have one, list by list. -/
def column {α : Type} (i : Nat) (lists : List (List α)) : List α := lists.filterMap (·[i]?)

/-- Columns 0, 1, … up to the longest list (R180). -/
def interleave {α : Type} (lists : List (List α)) : List α :=
  (List.range ((lists.map List.length).foldl max 0)).flatMap fun i => column i lists

/-- The codeword stream (R180). -/
def codewordStream (data : List Byte) (v : Nat) (ec : BitVec 2) : List Byte :=
  let split := splitBlocks (blocks v ec) data
  interleave (split.map (·.1)) ++ interleave (split.map (·.2))

/-- CW[0..T) <- stream and CW_VALID <- 1, the bytes from T on unspecified (R43, R176). -/
def State.setCodewords (s : State) (stream : List Byte) : State :=
  { s with
    mems := { s.mems with cw := Mem.renewed Config.cwDepth s.draws stream }
    draws := s.draws + 1
    status := { s.status with cwValid := true } }

/-- The error-time effect of BUILD_CODEWORDS on every error (R303(c)). -/
def State.loseCodewords (s : State) : State := { s with status := { s.status with cwValid := false } }

/-- BUILD_CODEWORDS's pseudocode (R176). -/
def buildCodewords (s : State) : Result :=
  if s.status.verValid = false then .raise .sequence s.loseCodewords
  else match bitstream s.segOperand s.regs.version.toNat s.regs.dataCw.toNat with
    | none => .raise .capacityExceeded s.loseCodewords
    | some bits =>
      .ok ((s.setBitBuffer bits).setCodewords
        (codewordStream (packBytes bits s.regs.dataCw.toNat) s.regs.version.toNat s.regs.selEc))

/-- `BUILD_CODEWORDS` (R176). -/
def execBuildCodewords (s : State) : Host.Outcome State Fault Refusal := finish 0x32 (buildCodewords s)

end Sys2Proof.Machine
end

