-- ==== Sys2Proof/Machine/Matrix.lean ====
section
/-! DEFINITION. The matrix pattern generator, data placement and masking (spec/44_matrix.md R200..R215). -/

namespace Sys2Proof.Machine

/-- A cell under construction (R200). -/
inductive Cell where
  | unset
  | light
  | dark
  deriving DecidableEq, Repr

/-- Dark for true, light for false (R10). -/
def Cell.ofBool (b : Bool) : Cell := if b then .dark else .light

/-- The 2-bit code of a cell (R45). -/
def Cell.code : Cell → Code
  | .unset => 0
  | .light => 1
  | .dark => 2

/-- The cell of a 2-bit code; 11 is treated as unset (R45). -/
def Cell.ofCode (c : Code) : Cell :=
  match c.toNat with
  | 1 => .light
  | 2 => .dark
  | _ => .unset

/-- A matrix under construction: a list of rows. -/
abbrev Matrix := List (List Cell)

/-- n × n unset cells (R200, step 1). -/
def Matrix.blank (n : Nat) : Matrix := List.replicate n (List.replicate n .unset)

/-- W[r][c]. -/
def Matrix.cell (w : Matrix) (r c : Nat) : Cell := (w.getD r []).getD c .unset

/-- W[r][c] <- x, where the cell is inside the matrix. -/
def Matrix.put (w : Matrix) (r c : Nat) (x : Cell) : Matrix := w.set r ((w.getD r []).set c x)

/-- A run of writes W[r][c] <- x, in order. -/
def Matrix.putAll (w : Matrix) (writes : List ((Nat × Nat) × Cell)) : Matrix :=
  writes.foldl (fun w p => w.put p.1.1 p.1.2 p.2) w

/-! ## Function patterns -/

/-- The cell of the finder pattern and its separator at offset (dr, dc), each in -1..7 (R201). -/
def probeCell (dr dc : Int) : Cell :=
  Cell.ofBool ((decide (0 ≤ dr ∧ dr ≤ 6) && (dc == 0 || dc == 6)) || (decide (0 ≤ dc ∧ dc ≤ 6) && (dr == 0 || dr == 6)) ||
    decide (2 ≤ dr ∧ dr ≤ 4 ∧ 2 ≤ dc ∧ dc ≤ 4))

/-- The offsets -1..7 (R201). -/
def probeOffsets : List Int := [-1, 0, 1, 2, 3, 4, 5, 6, 7]

/-- probe(r0, c0) on an n × n matrix, clipped at its edge (R201). -/
def probe (n r0 c0 : Nat) (w : Matrix) : Matrix :=
  w.putAll (probeOffsets.flatMap fun dr => probeOffsets.filterMap fun dc =>
    let r := (r0 : Int) + dr
    let c := (c0 : Int) + dc
    if 0 ≤ r ∧ r < n ∧ 0 ≤ c ∧ c < n then some ((r.toNat, c.toNat), probeCell dr dc) else none)

/-- The three finder patterns with their separators (R201). -/
def placeFinders (n : Nat) (w : Matrix) : Matrix := probe n 0 (n - 7) (probe n (n - 7) 0 (probe n 0 0 w))

/-- The cell of the alignment pattern at row i and column j of its 5 × 5 square, the centre at (2, 2) (R204). -/
def alignmentCell (i j : Nat) : Cell := Cell.ofBool (i == 0 || i == 4 || j == 0 || j == 4 || (i == 2 && j == 2))

/-- One alignment pattern with centre (a, b), skipped whole where the centre is set (R204). -/
def placeAlignment (w : Matrix) (a b : Nat) : Matrix :=
  if w.cell a b ≠ .unset then w
  else w.putAll ((List.range 5).flatMap fun i => (List.range 5).map fun j => ((a + i - 2, b + j - 2), alignmentCell i j))

/-- The alignment patterns at every pair of POS(v), in list order (R204). -/
def placeAlignments (v : Nat) (w : Matrix) : Matrix :=
  (alignmentCentres v).foldl (fun w a => (alignmentCentres v).foldl (fun w b => placeAlignment w a b) w) w

/-- W[r][c] <- x where W[r][c] is unset. -/
def Matrix.putUnset (w : Matrix) (r c : Nat) (x : Cell) : Matrix := if w.cell r c = .unset then w.put r c x else w

/-- The indices 8..n-9 (R205). -/
def timingIndices (n : Nat) : List Nat := (List.range (n - 16)).map (· + 8)

/-- The timing patterns: column 6, then row 6, dark at even indices (R205). -/
def placeTiming (n : Nat) (w : Matrix) : Matrix :=
  let w := (timingIndices n).foldl (fun w r => w.putUnset r 6 (Cell.ofBool (r % 2 == 0))) w
  (timingIndices n).foldl (fun w c => w.putUnset 6 c (Cell.ofBool (c % 2 == 0))) w

/-! ## Format and version information -/

/-- bits(d): the position of the highest set bit plus 1, 0 for 0 (R206). -/
def bitLength (d : Nat) : Nat := if d = 0 then 0 else d.log2 + 1

/-- bch_rem(d, G): each pass clears the highest set bit, so bits(d) passes are enough (R206). -/
def bchLoop (g : Nat) : Nat → Nat → Nat
  | 0, d => d
  | fuel + 1, d => if bitLength g ≤ bitLength d then bchLoop g fuel (d ^^^ (g <<< (bitLength d - bitLength g))) else d

/-- bch_rem(d, G) (R206). -/
def bchRem (d g : Nat) : Nat := bchLoop g (bitLength d) d

/-- format_word(ec, m) (R206). -/
def formatWord (ec m : Nat) : Nat :=
  let data := (ec <<< 3) ||| m
  ((data <<< 10) ||| bchRem (data <<< 10) 0x537) ^^^ 0x5412

/-- version_word(v) (R206). -/
def versionWord (v : Nat) : Nat := (v <<< 12) ||| bchRem (v <<< 12) 0x1F25

/-- Copy A's cell for format bit i (R208). -/
def formatCellA (n i : Nat) : Nat × Nat :=
  if i ≤ 5 then (i, 8) else if i = 6 then (7, 8) else if i = 7 then (8, 8) else (n - 15 + i, 8)

/-- Copy B's cell for format bit i (R208). -/
def formatCellB (n i : Nat) : Nat × Nat :=
  if i ≤ 7 then (8, n - 1 - i) else if i = 8 then (8, 7) else (8, 14 - i)

/-- The value written for bit i of an information word: light in a test build (R208, R210). -/
def infoCell (test : Bool) (word i : Nat) : Cell := Cell.ofBool (!test && word.testBit i)

/-- The two copies of format information (R208). -/
def placeFormat (n ec m : Nat) (test : Bool) (w : Matrix) : Matrix :=
  w.putAll ((List.range 15).flatMap fun i =>
    [(formatCellA n i, infoCell test (formatWord ec m) i), (formatCellB n i, infoCell test (formatWord ec m) i)])

/-- The dark module (R209). -/
def placeDarkModule (p : Params) (n : Nat) (test : Bool) (w : Matrix) : Matrix :=
  w.put (n - 8) 8 (Cell.ofBool (!test || p.darkModuleInTest))

/-- The two copies of version information, for v ≥ 7 (R210). -/
def placeVersion (n v : Nat) (test : Bool) (w : Matrix) : Matrix :=
  if v < 7 then w
  else w.putAll ((List.range 18).flatMap fun i =>
    [((i / 3, n - 11 + i % 3), infoCell test (versionWord v) i), ((n - 11 + i % 3, i / 3), infoCell test (versionWord v) i)])

/-! ## Data placement -/

/-- maskbit(m, i, j) (R213). -/
def maskbit (m i j : Nat) : Bool :=
  match m with
  | 0 => (i + j) % 2 == 0
  | 1 => i % 2 == 0
  | 2 => j % 3 == 0
  | 3 => (i + j) % 3 == 0
  | 4 => (i / 2 + j / 3) % 2 == 0
  | 5 => (i * j) % 2 + (i * j) % 3 == 0
  | 6 => ((i * j) % 2 + (i * j) % 3) % 2 == 0
  | _ => ((i * j) % 3 + (i + j) % 2) % 2 == 0

/-- The right columns of the pairs still to come, from column `col` on, column 6 skipped to 5 (R212). -/
def pairColumns : Nat → Nat → List Nat
  | 0, _ => []
  | fuel + 1, col =>
    if col = 0 then []
    else
      let col := if col = 6 then 5 else col
      col :: pairColumns fuel (col - 2)

/-- The cells of a pair of columns: rows upward or downward, the right cell of each row first (R212). -/
def pairCells (n col : Nat) (up : Bool) : List (Nat × Nat) :=
  (if up then (List.range n).reverse else List.range n).flatMap fun r => [(r, col), (r, col - 1)]

/-- The cells of pairs of columns, the first in direction `up` and each later one reversed (R212). -/
def snake (n : Nat) : List Nat → Bool → List (Nat × Nat)
  | [], _ => []
  | col :: cols, up => pairCells n col up ++ snake n cols (!up)

/-- The order in which data placement visits the cells (R212). -/
def zigzag (n : Nat) : List (Nat × Nat) := snake n (pairColumns n (n - 1)) true

/-- Fill the unset cells among those visited with the bits, masked; then the remainder cells (R212). -/
def placeBits (p : Params) (m : Nat) : List (Nat × Nat) → List Bool → Matrix → Matrix
  | [], _, w => w
  | (r, c) :: cells, bits, w =>
    if w.cell r c = .unset then
      match bits with
      | d :: rest => placeBits p m cells rest (w.put r c (Cell.ofBool (d ^^ maskbit m r c)))
      | [] => placeBits p m cells [] (w.put r c (Cell.ofBool (p.maskRemainderBits && maskbit m r c)))
    else placeBits p m cells bits w

/-- Data placement with masking of the codeword stream (R212). -/
def placeData (p : Params) (n m : Nat) (cw : List Byte) (w : Matrix) : Matrix :=
  placeBits p m (zigzag n) (cw.flatMap byteBits) w

/-- The function patterns: steps 1..7 of R200. -/
def functionPatterns (p : Params) (v ec : Nat) (test : Bool) (m : Nat) : Matrix :=
  let n := moduleCountOf v
  placeVersion n v test (placeDarkModule p n test (placeFormat n ec m test
    (placeTiming n (placeAlignments v (placeFinders n (Matrix.blank n))))))

/-- build(v, ec, cw, test, m) (R200). -/
def build (p : Params) (v ec : Nat) (cw : List Byte) (test : Bool) (m : Nat) : Matrix :=
  placeData p (moduleCountOf v) m cw (functionPatterns p v ec test m)

/-! ## Command -/

/-- The build of the current selection and codewords (R214, R248). -/
def State.buildMatrix (s : State) (test : Bool) (mask : BitVec 3) : Matrix :=
  build s.params s.regs.version.toNat s.regs.selEc.toNat s.cwOperand test mask.toNat

/-- MATRIX_BUILD's pseudocode (R214). -/
def matrixBuild (mask : BitVec 3) (test : Bool) (s : State) : Result :=
  if s.status.cwValid = false then .raise .sequence s
  else .ok
    { s with
      regs :=
        { s.regs with
          workSize := BitVec.ofNat 8 (moduleCountOf s.regs.version.toNat)
          workInfo := packInfo mask test s.regs.version s.regs.selEc }
      mems := { s.mems with work := s.mems.work.writeRows 0 ((s.buildMatrix test mask).map (·.map Cell.code)) }
      status := s.status.workBuilt test }

/-- `MATRIX_BUILD` (R214). -/
def execMatrixBuild (mask : BitVec 3) (test : Bool) (s : State) : Host.Outcome State Fault Refusal :=
  finish 0x40 (matrixBuild mask test s)

end Sys2Proof.Machine
end

