-- ==== Sys2Proof/Machine/Commit.lean ====
section
/-! DEFINITION. COMMIT (spec/46_control.md R272). -/

namespace Sys2Proof.Machine

/-- COMMIT's pseudocode (R272). -/
def commitCmd (s : State) : Result :=
  if s.status.workValid = false ∨ s.status.workTest = true then .raise .sequence s
  else .ok
    { s with
      regs := { s.regs with gridSize := s.regs.workSize, gridInfo := gridInfoOf s.regs.workInfo }
      mems :=
        { s.mems with
          grid := s.mems.grid.writeRows 0 ((s.workOperand s.regs.workSize.toNat).map (·.map fun c => Cell.ofCode c == .dark)) }
      status := { s.status with gridValid := true } }

/-- `COMMIT` (R272). -/
def execCommit (s : State) : Host.Outcome State Fault Refusal := finish 0x42 (commitCmd s)

end Sys2Proof.Machine
end

