-- ==== Sys2Proof/Machine/Penalty.lean ====
section
/-! DEFINITION. The mask penalty evaluator and the mask search (spec/45_mask_penalty.md R240..R249). -/

namespace Sys2Proof.Machine

/-! ## Penalty rules. A scored matrix is its rows of cells, true for dark (R240). -/

/-- The columns of n rows of n cells (R240). -/
def columnsOf (n : Nat) (m : List (List Bool)) : List (List Bool) :=
  (List.range n).map fun c => m.map fun row => row.getD c false

/-- The lines: the rows, then the columns (R240). -/
def linesOf (n : Nat) (m : List (List Bool)) : List (List Bool) := m ++ columnsOf n m

/-- The lengths of the maximal runs after `len` cells of colour `x` (R241). -/
def runsFrom (x : Bool) (len : Nat) : List Bool → List Nat
  | [] => [len]
  | y :: rest => if y = x then runsFrom x (len + 1) rest else len :: runsFrom y 1 rest

/-- The lengths of the maximal runs of equal cells in a line (R241). -/
def runLengths : List Bool → List Nat
  | [] => []
  | x :: rest => runsFrom x 1 rest

/-- What a run of length `len` adds to N1 (R241). -/
def runPenalty (base len : Nat) : Nat := if 5 ≤ len then 3 + (len - base) else 0

/-- N1 (R241). -/
def penaltyN1 (p : Params) (lines : List (List Bool)) : Nat :=
  (lines.map fun l => ((runLengths l).map (runPenalty p.runExcessBase)).sum).sum

/-- The number of 2 × 2 blocks of one colour in two adjacent rows (R242). -/
def blocksInRows : List Bool → List Bool → Nat
  | a :: b :: r, x :: y :: t => (if a == x && a == b && a == y then 1 else 0) + blocksInRows (b :: r) (y :: t)
  | _, _ => 0

/-- The number of 2 × 2 blocks of one colour (R242). -/
def blockCount : List (List Bool) → Nat
  | r :: t :: rest => blocksInRows r t + blockCount (t :: rest)
  | _ => 0

/-- N2 (R242). -/
def penaltyN2 (m : List (List Bool)) : Nat := 3 * blockCount m

/-- Whether ℓ[i] is light; outside the line, FINDER_EDGE_LIGHT says (R243). -/
def lightAt (edge : Bool) (line : List Bool) (i : Int) : Bool :=
  if 0 ≤ i ∧ i < line.length then !line.getD i.toNat false else edge

/-- ℓ[k..k+6] = 1,0,1,1,1,0,1 (R243). -/
def coreAt (line : List Bool) (k : Nat) : Bool := (line.drop k).take 7 == [true, false, true, true, true, false, true]

/-- A core at k with four light cells before it or after it (R243). -/
def finderLikeAt (edge : Bool) (line : List Bool) (k : Nat) : Bool :=
  coreAt line k &&
    (([-4, -3, -2, -1] : List Int).all (fun d => lightAt edge line (k + d)) ||
      ([7, 8, 9, 10] : List Int).all (fun d => lightAt edge line (k + d)))

/-- N3 (R243), for lines of n cells. -/
def penaltyN3 (p : Params) (n : Nat) (lines : List (List Bool)) : Nat :=
  40 * (lines.map fun l => ((List.range (n - 6)).filter (finderLikeAt p.finderEdgeLight l)).length).sum

/-- |a - b| of two counts. -/
def distance (a b : Nat) : Nat := (a - b) + (b - a)

/-- N4 for d dark cells of n² (R244). -/
def balancePenalty (d n : Nat) : Nat :=
  let k := 20 * d / (n * n)
  10 * min (distance k 10) (distance k 9)

/-- N4 (R244). -/
def penaltyN4 (n : Nat) (m : List (List Bool)) : Nat := balancePenalty (m.map fun row => row.count true).sum n

/-- The four components of a penalty (R245). -/
structure Score where
  n1 : Nat
  n2 : Nat
  n3 : Nat
  n4 : Nat
  deriving DecidableEq, Repr

/-- penalty(M) (R245). -/
def Score.total (x : Score) : Nat := x.n1 + x.n2 + x.n3 + x.n4

/-- The penalty of an n × n matrix (R240..R245). -/
def score (p : Params) (n : Nat) (m : List (List Bool)) : Score :=
  ⟨penaltyN1 p (linesOf n m), penaltyN2 m, penaltyN3 p n (linesOf n m), penaltyN4 n m⟩

/-- The dark cells of a complete matrix (R240). -/
def Matrix.darkRows (w : Matrix) : List (List Bool) := w.map fun row => row.map (· == .dark)

/-! ## Commands -/

/-- PEN_N1..PEN_N4 and PEN_TOTAL <- the components and the total (R246, R248). -/
def State.setScore (s : State) (x : Score) : State :=
  { s with
    regs :=
      { s.regs with
        penTotal := BitVec.ofNat 32 x.total
        penN1 := BitVec.ofNat 32 x.n1
        penN2 := BitVec.ofNat 32 x.n2
        penN3 := BitVec.ofNat 32 x.n3
        penN4 := BitVec.ofNat 32 x.n4 } }

/-- n is 4v + 17 for some v in 1..40 (R246). -/
def isModuleCount (n : Nat) : Bool := (List.range 40).any fun k => n == moduleCountOf (k + 1)

/-- PENALTY's pseudocode (R246). -/
def penaltyCmd (s : State) : Result :=
  let n := s.regs.workSize.toNat
  let w : Matrix := (s.workOperand n).map (·.map Cell.ofCode)
  if n = 0 then .raise .sequence s
  else if !isModuleCount n then .raise .badOperand s
  else if w.any (·.any (· == .unset)) then .raise .unsetCell s
  else .ok (s.setScore (score s.params n w.darkRows))

/-- `PENALTY` (R246). -/
def execPenalty (s : State) : Host.Outcome State Fault Refusal := finish 0x41 (penaltyCmd s)

/-- select: the lowest index among those with the minimum total (R247), from the best so far. -/
def selectFrom (best bestTotal : Nat) : Nat → List Nat → Nat
  | _, [] => best
  | m, t :: rest => if t < bestTotal then selectFrom m t (m + 1) rest else selectFrom best bestTotal (m + 1) rest

/-- select(p₀..p₇) (R247). -/
def selectMask (totals : List Nat) : Nat := selectFrom 0 (totals.headD 0) 1 totals.tail

/-- The score of candidate m: a test build (R248). -/
def State.candidate (s : State) (m : Nat) : Score :=
  score s.params (moduleCountOf s.regs.version.toNat) (s.buildMatrix true (BitVec.ofNat 3 m)).darkRows

/-- The totals of the eight candidates, in mask order (R248). -/
def State.candidateTotals (s : State) : List Nat := (List.range 8).map fun m => (s.candidate m).total

/-- PENALTY0..7, BEST_MASK, and the components of candidate 7 (R248). -/
def State.recordSearch (s : State) : State :=
  let totals := s.candidateTotals
  let t := s.setScore (s.candidate 7)
  { t with
    regs :=
      { t.regs with
        bestMask := BitVec.ofNat 3 (selectMask totals)
        penalties := Vector.ofFn fun m => BitVec.ofNat 32 (totals.getD m 0) } }

/-- MASK_SEARCH's pseudocode (R248): it records the search, then performs MATRIX_BUILD and COMMIT. -/
def maskSearch (s : State) : Result :=
  if s.status.cwValid = false then .raise .sequence s
  else match matrixBuild s.recordSearch.regs.bestMask false s.recordSearch with
    | .raise e _ => .raise e s
    | .ok t =>
      match commitCmd t with
      | .raise e _ => .raise e s
      | .ok u => .ok u

/-- `MASK_SEARCH` (R248). -/
def execMaskSearch (s : State) : Host.Outcome State Fault Refusal := finish 0x43 (maskSearch s)

end Sys2Proof.Machine
end

