-- ==== Sys2Proof/Machine/Control.lean ====
section
/-! DEFINITION. The control commands NOP, SOFT_RESET, ENCODE and QUERY (spec/46_control.md R270..R274) and the completion
of an illegal word (60_exceptions.md R301). COMMIT is in Machine/Commit.lean. -/

namespace Sys2Proof.Machine

/-- `NOP` (R270). -/
def execNop (s : State) : Host.Outcome State Fault Refusal := finish 0x00 (.ok s)

/-- `SOFT_RESET` (R271). -/
def execSoftReset (s : State) : Host.Outcome State Fault Refusal := finish 0x01 (.ok s.resetRegisters)

/-- `ENCODE` (R273): the four steps in order; the first error ends it, ERRCODE.STEP naming the step. -/
def execEncode (s : State) : Host.Outcome State Fault Refusal :=
  match segLoad s with
  | .raise e t => .next (t.raise e 0x50 0x30)
  | .ok s1 =>
    match selectVersion s1 with
    | .raise e t => .next (t.raise e 0x50 0x31)
    | .ok s2 =>
      match buildCodewords s2 with
      | .raise e t => .next (t.raise e 0x50 0x32)
      | .ok s3 =>
        match maskSearch s3 with
        | .raise e t => .next (t.raise e 0x50 0x43)
        | .ok s4 => .next s4.complete

/-- QUERY's pseudocode (R274). -/
def queryCmd (s : State) : Result :=
  let r := sint s.regs.qrow
  let c := sint s.regs.qcol
  let n : Int := s.regs.gridSize.toNat
  if s.status.gridValid = false then .raise .sequence s
  else if r < 0 ∨ n ≤ r ∨ c < 0 ∨ n ≤ c then .raise .outOfRange s
  else .ok (s.setRes ((BitVec.ofBool (s.gridAt r.toNat c.toNat)).setWidth 32))

/-- `QUERY` (R274). -/
def execQuery (s : State) : Host.Outcome State Fault Refusal := finish 0x60 (queryCmd s)

/-- The completion of an illegal word: ILLEGAL_COMMAND, ERRCODE.OP and STEP its bits [7:0], nothing else (R301). -/
def execIllegal (w : Word) (s : State) : Host.Outcome State Fault Refusal := finish (opField w) (.raise .illegalCommand s)

end Sys2Proof.Machine
end

