-- ==== Sys2Proof/Machine/Dispatch.lean ====
section
/-! DEFINITION. One arm per command: its meaning. -/

namespace Sys2Proof.Machine

/-- The completion of a command (R302): what one step of the engine does for it. -/
def exec (i : Instr) (s : State) : Host.Outcome State Fault Refusal :=
  match i with
  | .nop => Sys2Proof.Machine.execNop s
  | .softReset => Sys2Proof.Machine.execSoftReset s
  | .gfExp => Sys2Proof.Machine.execGfExp s
  | .gfLog => Sys2Proof.Machine.execGfLog s
  | .gfMul => Sys2Proof.Machine.execGfMul s
  | .polyMul => Sys2Proof.Machine.execPolyMul s
  | .polyMod => Sys2Proof.Machine.execPolyMod s
  | .rsGenpoly => Sys2Proof.Machine.execRsGenpoly s
  | .rsEcc => Sys2Proof.Machine.execRsEcc s
  | .bbClear => Sys2Proof.Machine.execBbClear s
  | .bbPut => Sys2Proof.Machine.execBbPut s
  | .bbGet => Sys2Proof.Machine.execBbGet s
  | .segLoad => Sys2Proof.Machine.execSegLoad s
  | .selectVersion => Sys2Proof.Machine.execSelectVersion s
  | .buildCodewords => Sys2Proof.Machine.execBuildCodewords s
  | .matrixBuild mask test => Sys2Proof.Machine.execMatrixBuild mask test s
  | .penalty => Sys2Proof.Machine.execPenalty s
  | .commit => Sys2Proof.Machine.execCommit s
  | .maskSearch => Sys2Proof.Machine.execMaskSearch s
  | .encode => Sys2Proof.Machine.execEncode s
  | .query => Sys2Proof.Machine.execQuery s

end Sys2Proof.Machine
end

