-- ==== Sys2Proof/Machine/Bus.lean ====
section
/-! DEFINITION. The host bus: the address map, the registers and the windows (spec/20_memory.md R50..R62; 10_state.md
R19..R39), the CMD write (60_exceptions.md R300, R304), and accesses while BUSY (R305, R306). -/

namespace Sys2Proof.Machine

/-! ## Address map -/

/-- The register at a word of the register window (10_state.md, section 2). -/
def Reg.ofIndex (i : Nat) : Option Reg :=
  ([.id, .cmd, .status, .errcode, .irqEn, .ecLevel, .forceVersion, .textLen, .opa, .opb, .res, .paLen, .pbLen, .prLen,
    .bbLen, .segLen, .version, .moduleCount, .selEc, .dataCw, .totalCw, .numBlocks, .workSize, .workInfo, .gridInfo,
    .gridSize, .qrow, .qcol, .bestMask, .penTotal, .penN1, .penN2, .penN3, .penN4, .penalty 0, .penalty 1, .penalty 2,
    .penalty 3, .penalty 4, .penalty 5, .penalty 6, .penalty 7] : List Reg)[i]?

/-- The offset of a register (10_state.md, section 2). -/
def Reg.offset : Reg → Nat
  | .id => 0x000
  | .cmd => 0x004
  | .status => 0x008
  | .errcode => 0x00C
  | .irqEn => 0x010
  | .ecLevel => 0x014
  | .forceVersion => 0x018
  | .textLen => 0x01C
  | .opa => 0x020
  | .opb => 0x024
  | .res => 0x028
  | .paLen => 0x02C
  | .pbLen => 0x030
  | .prLen => 0x034
  | .bbLen => 0x038
  | .segLen => 0x03C
  | .version => 0x040
  | .moduleCount => 0x044
  | .selEc => 0x048
  | .dataCw => 0x04C
  | .totalCw => 0x050
  | .numBlocks => 0x054
  | .workSize => 0x058
  | .workInfo => 0x05C
  | .gridInfo => 0x060
  | .gridSize => 0x064
  | .qrow => 0x068
  | .qcol => 0x06C
  | .bestMask => 0x070
  | .penTotal => 0x074
  | .penN1 => 0x078
  | .penN2 => 0x07C
  | .penN3 => 0x080
  | .penN4 => 0x084
  | .penalty m => 0x088 + 4 * m.val

/-- The first offset of a window (R52). -/
def Window.base : Window → Nat
  | .text => 0x04000
  | .seg => 0x08000
  | .bb => 0x09000
  | .cw => 0x0A000
  | .pa => 0x0B000
  | .pb => 0x0B100
  | .pr => 0x0B200
  | .work => 0x0C000
  | .grid => 0x10000
  | .expRom => 0x12000
  | .logRom => 0x12400

/-- The number of words of a window (R52). -/
def Window.words : Window → Nat
  | .text => 4096
  | .seg => 1024
  | .bb => 1024
  | .cw => 1024
  | .pa => 64
  | .pb => 64
  | .pr => 64
  | .work => 4096
  | .grid => 2048
  | .expRom => 256
  | .logRom => 256

/-- The windows, in address order (R52). -/
def allWindows : List Window := [.text, .seg, .bb, .cw, .pa, .pb, .pr, .work, .grid, .expRom, .logRom]

/-- What an offset names: a register, or word `k` of a window. -/
inductive Place where
  | reg (r : Reg)
  | word (w : Window) (k : Nat)
  deriving DecidableEq, Repr

/-- Whether an offset lies in a window (R52). -/
def Window.holds (w : Window) (addr : Nat) : Bool := decide (w.base ≤ addr) && decide (addr < w.base + 4 * w.words)

/-- What an aligned offset names; none where it is reserved (R52, R58). -/
def placeAt (addr : Nat) : Option Place :=
  if addr < 0x100 then (Reg.ofIndex (addr / 4)).map .reg
  else (allWindows.find? (·.holds addr)).map fun w => .word w ((addr - w.base) / 4)

/-- The size of an access. -/
def Access.size : Access → AccessSize
  | .read size _ => size
  | .write size _ _ => size

/-- The offset of an access. -/
def Access.addr : Access → BitVec 18
  | .read _ addr => addr
  | .write _ addr _ => addr

/-- Why an access is not admitted, or what an admitted one names (R51). -/
def State.admission (s : State) (a : Access) : Except NotAdmitted Place :=
  if s.rst then .error .inReset
  else if a.size ≠ .word then .error .narrow
  else if a.addr.toNat % 4 ≠ 0 then .error .misaligned
  else match placeAt a.addr.toNat with
    | none => .error .unmapped
    | some p => .ok p

/-! ## Reads -/

/-- ID (R22). -/
def idValue : Word := 0x51524D31

/-- A register as a word; reserved bits read 0 (R19, R22..R39). -/
def State.readReg (s : State) : Reg → Word
  | .id => idValue
  | .cmd => 0
  | .status => s.statusWord
  | .errcode => s.errcode.word
  | .irqEn => s.irqEn.word
  | .ecLevel => s.regs.ecLevel.setWidth 32
  | .forceVersion => s.regs.forceVersion.setWidth 32
  | .textLen => s.regs.textLen.setWidth 32
  | .opa => s.regs.opa
  | .opb => s.regs.opb
  | .res => s.regs.res
  | .paLen => s.regs.paLen.setWidth 32
  | .pbLen => s.regs.pbLen.setWidth 32
  | .prLen => s.regs.prLen.setWidth 32
  | .bbLen => s.regs.bbLen.setWidth 32
  | .segLen => s.regs.segLen.setWidth 32
  | .version => s.regs.version.setWidth 32
  | .moduleCount => s.regs.moduleCount.setWidth 32
  | .selEc => s.regs.selEc.setWidth 32
  | .dataCw => s.regs.dataCw.setWidth 32
  | .totalCw => s.regs.totalCw.setWidth 32
  | .numBlocks => s.regs.numBlocks.setWidth 32
  | .workSize => s.regs.workSize.setWidth 32
  | .workInfo => s.regs.workInfo.setWidth 32
  | .gridInfo => s.regs.gridInfo.setWidth 32
  | .gridSize => s.regs.gridSize.setWidth 32
  | .qrow => s.regs.qrow
  | .qcol => s.regs.qcol
  | .bestMask => s.regs.bestMask.setWidth 32
  | .penTotal => s.regs.penTotal
  | .penN1 => s.regs.penN1
  | .penN2 => s.regs.penN2
  | .penN3 => s.regs.penN3
  | .penN4 => s.regs.penN4
  | .penalty m => s.regs.penalties[m]

/-- Bytes packed little-endian into a word: byte t at bits [8t+7:8t] (R53). -/
def packWord (b0 b1 b2 b3 : Byte) : Word := b3 ++ b2 ++ b1 ++ b0

/-- Word k of a byte memory of `depth` bytes; bytes past its end read 0 (R53). -/
def byteWindow (read : Nat → Byte) (depth k : Nat) : Word :=
  let at_ (j : Nat) : Byte := if j < depth then read j else 0
  packWord (at_ (4 * k)) (at_ (4 * k + 1)) (at_ (4 * k + 2)) (at_ (4 * k + 3))

/-- Fields of width `w`, field f at bits [w·f + w - 1 : w·f], packed into a word (R56, R57). -/
def packFields (w count : Nat) (field : Nat → BitVec w) : Word :=
  (List.range count).foldl (fun acc f => acc ||| ((field f).setWidth 32 <<< (w * f))) 0

/-- Byte j of BB: bit i of the buffer is bit 7 - (i mod 8) of byte i div 8 (R55, R141). -/
def State.bbByte (s : State) (j : Nat) : Byte :=
  bitsByteOf (fun t => s.bbAt (8 * j + t))
where
  /-- Bits 0..7 as a byte, bit 0 the most significant. -/
  bitsByteOf (bit : Nat → Bool) : Byte :=
    (List.range 8).foldl (fun acc t => acc ||| ((BitVec.ofBool (bit t)).setWidth 8 <<< (7 - t))) 0

/-- The WORK cell of field f of window word k, as (row, column) (R56). -/
def workField (k f : Nat) : Nat × Nat := (k / 12, 16 * (k % 12) + f)

/-- The GRID module of bit f of window word k, as (row, column) (R57). -/
def gridField (k f : Nat) : Nat × Nat := (k / 6, 32 * (k % 6) + f)

/-- Word k of the WORK window: words 2124 on and fields of columns 177 on read 0 (R56). -/
def State.workWord (s : State) (k : Nat) : Word :=
  if 2124 ≤ k then 0
  else packFields 2 16 fun f =>
    if (workField k f).2 < Config.maxN then s.workAt (workField k f).1 (workField k f).2 else 0

/-- Word k of the GRID window: words 1062 on, bits outside GRID_SIZE or in columns 177 on, and every word
while GRID_VALID = 0 read 0 (R57). -/
def State.gridWord (s : State) (k : Nat) : Word :=
  if s.status.gridValid = false ∨ 1062 ≤ k then 0
  else packFields 1 32 fun f =>
    BitVec.ofBool (decide ((gridField k f).2 < Config.maxN) && decide ((gridField k f).1 < s.regs.gridSize.toNat) &&
      decide ((gridField k f).2 < s.regs.gridSize.toNat) && s.gridAt (gridField k f).1 (gridField k f).2)

/-- Word k of a window (R52..R57). -/
def State.readWindow (s : State) (w : Window) (k : Nat) : Word :=
  match w with
  | .text => s.textAt k
  | .seg => byteWindow s.segAt Config.segDepth k
  | .bb => byteWindow s.bbByte 4096 k
  | .cw => byteWindow s.cwAt Config.cwDepth k
  | .pa => byteWindow s.paAt Config.polyDepth k
  | .pb => byteWindow s.pbAt Config.polyDepth k
  | .pr => byteWindow s.prAt Config.polyDepth k
  | .work => s.workWord k
  | .grid => s.gridWord k
  | .expRom => (expAt k).setWidth 32
  | .logRom => if k = 0 then 0xFFFFFFFF else BitVec.ofNat 32 (logAt (BitVec.ofNat 8 k))

/-- The registers a read returns the current value of while BUSY (R306). -/
def Place.readableWhileBusy : Place → Bool
  | .reg .id => true
  | .reg .status => true
  | .reg .errcode => true
  | .reg .irqEn => true
  | _ => false

/-- The value of a register or a window word. -/
def State.peek (s : State) : Place → Word
  | .reg r => s.readReg r
  | .word w k => s.readWindow w k

/-- An admitted read: its value and the state after it. While BUSY it is a free draw but for the four registers of R306;
a read changes nothing the spec names (R60, R306). -/
def State.busRead (s : State) (p : Place) : Word × State :=
  if s.phase.isBusy && !p.readableWhileBusy then (Config.freeBusWord s.draws, { s with draws := s.draws + 1 })
  else (s.peek p, s)

/-! ## Writes -/

/-- A CMD write while IDLE (R300): ignored with HAZ while ERR = 1, unless it is SOFT_RESET (R304); else accepted. -/
def State.writeCmd (s : State) (w : Word) : State :=
  if s.status.err && w != 1 then s.setHaz else s.accept w

/-- A write to a register while IDLE: RO registers ignore it, reserved bits ignore it (R19, R22..R39). -/
def State.writeReg (s : State) (r : Reg) (v : Word) : State :=
  match r with
  | .cmd => s.writeCmd v
  | .status => s.acknowledge v
  | .irqEn => { s with irqEn := IrqEnable.ofWord v }
  | .ecLevel => { s with regs := { s.regs with ecLevel := v.setWidth 2 } }
  | .forceVersion => { s with regs := { s.regs with forceVersion := v.setWidth 6 } }
  | .textLen => { s with regs := { s.regs with textLen := v.setWidth 13 } }
  | .opa => { s with regs := { s.regs with opa := v } }
  | .opb => { s with regs := { s.regs with opb := v } }
  | .paLen => { s with regs := { s.regs with paLen := v.setWidth 9 } }
  | .pbLen => { s with regs := { s.regs with pbLen := v.setWidth 9 } }
  | .workSize => { s with regs := { s.regs with workSize := v.setWidth 8 } }.clearWorkValid
  | .qrow => { s with regs := { s.regs with qrow := v } }
  | .qcol => { s with regs := { s.regs with qcol := v } }
  | .id => s
  | .errcode => s
  | .res => s
  | .prLen => s
  | .bbLen => s
  | .segLen => s
  | .version => s
  | .moduleCount => s
  | .selEc => s
  | .dataCw => s
  | .totalCw => s
  | .numBlocks => s
  | .workInfo => s
  | .gridInfo => s
  | .gridSize => s
  | .bestMask => s
  | .penTotal => s
  | .penN1 => s
  | .penN2 => s
  | .penN3 => s
  | .penN4 => s
  | .penalty _ => s

/-- The four bytes of a word, byte 0 first (R53). -/
def wordBytes (v : Word) : List Byte := (List.range 4).map fun t => v.extractLsb' (8 * t) 8

/-- A write to word k of the WORK window: every field of a column below 177, and WORK_VALID <- 0; words 2124 on are
ignored (R56). -/
def State.writeWork (s : State) (k : Nat) (v : Word) : State :=
  if 2124 ≤ k then s
  else
    { s with
      mems :=
        { s.mems with
          work := s.mems.work.writeBlock Config.cellCount (cellIndex (workField k 0).1 (workField k 0).2)
            ((List.range (min 16 (Config.maxN - (workField k 0).2))).map fun f => v.extractLsb' (2 * f) 2) } }.clearWorkValid

/-- A write to a window word while IDLE; RO windows ignore it (R52..R57). -/
def State.writeWindow (s : State) (w : Window) (k : Nat) (v : Word) : State :=
  match w with
  | .text => { s with mems := { s.mems with text := s.mems.text.write Config.textDepth k v } }
  | .pa => { s with mems := { s.mems with pa := s.mems.pa.writeBlock Config.polyDepth (4 * k) (wordBytes v) } }
  | .pb => { s with mems := { s.mems with pb := s.mems.pb.writeBlock Config.polyDepth (4 * k) (wordBytes v) } }
  | .work => s.writeWork k v
  | .seg => s
  | .bb => s
  | .cw => s
  | .pr => s
  | .grid => s
  | .expRom => s
  | .logRom => s

/-- An admitted write. While BUSY every write but one to IRQ_EN is dropped and sets HAZ (R305). -/
def State.busWrite (s : State) (p : Place) (v : Word) : State :=
  if s.phase.isBusy && p != .reg .irqEn then s.setHaz
  else
    match p with
    | .reg r => s.writeReg r v
    | .word w k => s.writeWindow w k v

end Sys2Proof.Machine
end

