-- ==== Sys2Proof/Machine/HostProgram.lean ====
section
/-! DEFINITION. The host agent and its programs (spec/30_encoding.md R86, R87; 60_exceptions.md R315..R317), and which
agent moves next. -/

namespace Sys2Proof.Machine

/-! ## One line -/

/-- The offset of a word of a window (R52, R86). -/
def Window.addr (w : Window) (k : Nat) : BitVec 18 := BitVec.ofNat 18 (w.base + 4 * k)

/-- The offset of a target, or a refusal where a window has no such word (R86, R317). -/
def Target.resolve : Target → Except Refusal (BitVec 18)
  | .reg r => .ok (BitVec.ofNat 18 r.offset)
  | .word w k => if k < w.words then .ok (w.addr k) else .error (.badTarget w k)
  | .raw addr => .ok addr

/-- The value a host program has given a name (R86). -/
def HostAgent.value (h : HostAgent) (name : Nat) : Option Word := (h.named.find? (·.1 == name)).map (·.2)

/-- The host goes on to a line. -/
def State.goTo (s : State) (line : Nat) : State := { s with host := { s.host with line := line } }

/-- The host goes on to the next line. -/
def State.nextLine (s : State) : State := s.goTo (s.host.line + 1)

/-- The host gives a value a name. -/
def State.name (s : State) (name : Option Nat) (v : Word) : State :=
  match name with
  | none => s
  | some x => { s with host := { s.host with named := (x, v) :: s.host.named } }

/-- What a turn of the host comes to. -/
inductive HostTurn where
  /-- the line has executed -/
  | moved (s : State)
  /-- the host has no step: its access is not admitted (R51) -/
  | stuck (why : NotAdmitted)
  /-- no line is left (R316) -/
  | ended
  /-- the program text gives the line no meaning (R317) -/
  | refused (r : Refusal)
  deriving DecidableEq, Repr

/-- A bus access of the current line, its value named where the line names one (R50, R86). -/
def State.access (s : State) (a : Access) (name : Option Nat) : HostTurn :=
  match s.admission a with
  | .error why => .stuck why
  | .ok p =>
    match a with
    | .read _ _ => .moved (((s.busRead p).2.name name (s.busRead p).1).nextLine)
    | .write _ _ v => .moved ((s.busWrite p v).nextLine)

/-- A WR line (R86). -/
def State.writeTarget (s : State) (t : Target) (v : Word) : HostTurn :=
  match t.resolve with
  | .ok addr => s.access (.write .word addr v) none
  | .error r => .refused r

/-- An RD line (R86). -/
def State.readTarget (s : State) (t : Target) (name : Option Nat) : HostTurn :=
  match t.resolve with
  | .ok addr => s.access (.read .word addr) name
  | .error r => .refused r

/-- One host line (R86). -/
def State.hostLine (s : State) : HostLine → HostTurn
  | .wr target value => s.writeTarget target value
  | .rd target name => s.readTarget target name
  | .command i => s.writeTarget (.reg .cmd) (encode i)
  | .br name bit value label =>
    match s.host.value name with
    | none => .refused (.unboundName name)
    | some v => .moved (if v.getLsbD bit.val = value then s.goTo label else s.nextLine)
  | .expect name value =>
    match s.host.value name with
    | none => .refused (.unboundName name)
    | some v => .moved ({ s with host := { s.host with failed := s.host.failed || v != value } }.nextLine)
  | .bus a => s.access a none

/-- The host's current line (R86, R316). Past the last line the host has ended, also where a BR named a line that the program
does not have, of which R86 says nothing: the model's choice (notes/assumptions/25). -/
def State.hostTurn (s : State) : HostTurn :=
  match s.host.prog[s.host.line]? with
  | none => .ended
  | some l => s.hostLine l

/-! ## Who moves next (R308(e), R319) -/

/-- The next move: the engine completes a word from a state, or the move is already made. -/
inductive Move where
  | engine (word : Word) (s : State)
  | settled (o : Host.Outcome State Fault Refusal)

/-- A scheduled turn. An agent with no step passes: the host that is stuck or has ended, the engine while IDLE. -/
def State.takeTurn (s : State) : Turn → Move
  | .host =>
    match s.hostTurn with
    | .moved t => .settled (.next t)
    | .stuck _ => .settled (.next s)
    | .ended => .settled (.next s)
    | .refused r => .settled (.refused r)
  | .engine =>
    match s.phase with
    | .busy w => .engine w s
    | .idle => .settled (.next s)
  | .rst true => .settled (.next s.assertReset)
  | .rst false => .settled (.next s.releaseReset)

/-- With no turn scheduled: the engine completes if it is BUSY; else the host runs its line; a host that has ended leaves
the state as it is (R314), and a host that is stuck is a fault, since no agent can move. -/
def State.defaultMove (s : State) : Move :=
  match s.phase with
  | .busy w => .engine w s
  | .idle =>
    match s.hostTurn with
    | .moved t => .settled (.next t)
    | .stuck why => .settled (.fault (.hostStuck why))
    | .ended => .settled (.next s)
    | .refused r => .settled (.refused r)

/-- The next move of the system (notes/assumptions/1, 2). -/
def State.nextMove (s : State) : Move :=
  match s.sched with
  | [] => s.defaultMove
  | t :: rest => { s with sched := rest }.takeTurn t

/-- The machine with the word `w` accepted and the engine to move next. The rest of a schedule is kept. -/
def State.withWord (s : State) (w : Word) : State :=
  let t := s.accept w
  match s.sched with
  | [] => t
  | _ :: _ => { t with sched := .engine :: s.sched }

/-! ## Pseudo-operations (R87). `at_` is the index of the expansion's first line; the numbers 0.. name its reads. -/

/-- `WAIT`: poll STATUS until BUSY = 0. -/
def waitLines (at_ name : Nat) : List HostLine := [.rd (.reg .status) (some name), .br name 0 true at_]

/-- `CLRERR`. -/
def clrerrLines : List HostLine := [.wr (.reg .status) 0x0000000E]

/-- `GFMUL a, b`. -/
def gfmulLines (at_ : Nat) (a b : Word) (wait result : Nat) : List HostLine :=
  [.wr (.reg .opa) a, .wr (.reg .opb) b, .command .gfMul] ++ waitLines (at_ + 3) wait ++ [.rd (.reg .res) (some result)]

/-- `ISDARK r, c`. -/
def isdarkLines (at_ : Nat) (r c : Word) (wait result : Nat) : List HostLine :=
  [.wr (.reg .qrow) r, .wr (.reg .qcol) c, .command .query] ++ waitLines (at_ + 3) wait ++ [.rd (.reg .res) (some result)]

/-- `LOADTEXT "s"`, for the code points of s. -/
def loadtextLines (text : List Word) : List HostLine :=
  text.zipIdx.map (fun p => .wr (.word .text p.2) p.1) ++ [.wr (.reg .textLen) (BitVec.ofNat 32 text.length)]

/-- `ENCODE_TEXT "s", ec`. -/
def encodeTextLines (at_ : Nat) (text : List Word) (ec : Word) (wait : Nat) : List HostLine :=
  loadtextLines text ++ [.wr (.reg .ecLevel) ec, .wr (.reg .forceVersion) 0, .command .encode] ++
    waitLines (at_ + text.length + 4) wait

end Sys2Proof.Machine
end

