-- ==== Sys2Proof/Machine/Step.lean ====
section
/-! DEFINITION. One step of the system: one agent moves (spec/10_state.md R20, R21; 60_exceptions.md R302, R308). -/

namespace Sys2Proof.Machine

/-- The engine's step *complete* for the accepted word: decode, then the command or ILLEGAL_COMMAND (R301, R302). -/
def runWord (w : Word) (s : State) : Host.Outcome State Fault Refusal :=
  match decode w with
  | .ok i => exec i s
  | .error _ => execIllegal w s

/-- One step. -/
def step (s : State) : Host.Outcome State Fault Refusal :=
  match s.nextMove with
  | .engine w t => runWord w t
  | .settled o => o

/-- The machine with the instruction whose table bits are `w` accepted, so that the next step completes it. The engine
fetches no instruction (R66): the word a host writes to CMD lives in the engine phase (R23), and this stands for that
write (notes/assumptions/11). -/
def State.withFetchWord (s : State) (nbits w : Nat) : State := s.withWord (BitVec.ofNat 32 (w % 2 ^ nbits))

end Sys2Proof.Machine
end

