-- ==== Sys2Proof/Safety.lean ====
section
/-! DEFINITION. Runs and launches as claims name them (spec/60_exceptions.md R316..R318), and the invariants of the
machine. Every predicate is decidable. -/

namespace Sys2Proof.Machine

/-! ## Runs (R316, R317) -/

/-- The run has ended: the host is past its last line and no command is in flight (R316). -/
def State.ended (s : State) : Bool := decide (s.host.prog.length ≤ s.host.line) && s.phase == .idle

/-- An EXPECT of the run has failed (R316). -/
def State.failedRun (s : State) : Bool := s.host.failed

/-- No command error is pending or recorded: the postcondition of an error-free run (R317). -/
def State.errorFree (s : State) : Bool := !s.status.err && s.errcode.code == 0

/-! ## Launch premises (R318) -/

/-- idle_launch -/
def State.idleLaunch (s : State) : Bool := s.phase == .idle

/-- clean_status -/
def State.cleanStatus (s : State) : Bool := s.statusWord == 0

/-- no_error_recorded -/
def State.noErrorRecorded (s : State) : Bool := s.errcode.word == 0

/-- irq_masked -/
def State.irqMasked (s : State) : Bool := s.irqEn.word == 0

/-- reset_launch: every item of R341 has its reset value and every memory cell is drawn, by whichever draws. R341 gives the
parameters, the level of RST, the host and the schedule no value, so they are open (notes/assumptions/10). -/
abbrev State.resetLaunch (s : State) : Prop :=
  s = { State.reset with
    params := s.params
    mems := Mems.fresh s.mems.text.epoch
    rst := s.rst
    host := s.host
    sched := s.sched
    draws := s.draws } ∧
  s.mems.text.epoch + 9 ≤ s.draws

/-! ## Invariants -/

/-- Every memory is in canonical form, its indices inside its depth. -/
abbrev State.MemoriesCanonical (s : State) : Prop := s.mems.wf = true

/-- No two memories' unwritten locations come from one draw, and the next draw is a fresh one. -/
abbrev State.DrawsFresh (s : State) : Prop := s.mems.epochs.Nodup ∧ ∀ e ∈ s.mems.epochs, e < s.draws

/-- CW_VALID ⇒ VER_VALID ⇒ SEG_VALID (R303). -/
abbrev State.FlagChain (s : State) : Prop :=
  (s.status.cwValid = true → s.status.verValid = true) ∧ (s.status.verValid = true → s.status.segValid = true)

/-- VERSION is 0 or 1..40, and MODULE_COUNT is 0 or 4·VERSION + 17 with it (R34, R172). -/
abbrev State.VersionLegal (s : State) : Prop :=
  (s.regs.version.toNat = 0 ∧ s.regs.moduleCount.toNat = 0) ∨
    (1 ≤ s.regs.version.toNat ∧ s.regs.version.toNat ≤ 40 ∧
      s.regs.moduleCount.toNat = moduleCountOf s.regs.version.toNat)

/-- While VER_VALID = 1, the block registers are those of BLOCKS(VERSION, SEL_EC) and the segment fits (R35, R173, R181). -/
abbrev State.SelectionFits (s : State) : Prop :=
  s.status.verValid = true →
    1 ≤ s.regs.version.toNat ∧ s.regs.dataCw.toNat = dataCodewords s.regs.version.toNat s.regs.selEc ∧
      s.regs.totalCw.toNat = totalCodewords s.regs.version.toNat s.regs.selEc ∧
      s.regs.numBlocks.toNat = (blocks s.regs.version.toNat s.regs.selEc).length ∧
      s.regs.segLen.toNat ≤ cap s.regs.version.toNat s.regs.selEc

/-- The lengths stay inside their memories (R31..R33). -/
abbrev State.LengthsFit (s : State) : Prop :=
  s.regs.segLen.toNat ≤ Config.segDepth ∧ s.regs.bbLen.toNat ≤ Config.bbBits ∧ s.regs.prLen.toNat ≤ Config.polyDepth

/-- WORK_VALID marks an engine build of a legal size, and GRID_VALID a committed real build of a legal size (R24, R36,
R37, R272). -/
abbrev State.SizesLegal (s : State) : Prop :=
  (s.status.workValid = true → isModuleCount s.regs.workSize.toNat = true ∧ s.regs.workInfo.getLsbD 3 = s.status.workTest) ∧
    (s.status.gridValid = true → isModuleCount s.regs.gridSize.toNat = true) ∧ s.regs.gridInfo.getLsbD 3 = false

/-- ERRCODE.CODE is one of the codes 0..0x0A (R307), and no command is in flight while RST is asserted (R340). -/
abbrev State.RecordLegal (s : State) : Prop :=
  s.errcode.code.toNat ≤ 0x0A ∧ (s.rst = true → s.phase = .idle)

/-- RUN_EXCESS_BASE is QRIM-CORE's value or its alternative; the other parameters are free (R8). -/
abbrev State.ParamsLegal (s : State) : Prop := s.params.runExcessBase = 5 ∨ s.params.runExcessBase = 4

/-- The invariant of the machine. -/
structure State.Inv (s : State) : Prop where
  canonical : s.MemoriesCanonical
  fresh : s.DrawsFresh
  chain : s.FlagChain
  version : s.VersionLegal
  selection : s.SelectionFits
  lengths : s.LengthsFit
  sizes : s.SizesLegal
  record : s.RecordLegal
  params : s.ParamsLegal

end Sys2Proof.Machine
end

