-- ==== Sys2Proof/Certificates/Slice0/Obligations.lean ====
section
/-! DEFINITION. The statements for the provers. Each docstring names the rule of spec/ it formalises. A free value
(`Config.free…`) stands for every value it may have; no statement rests on one. `draws` and a memory's `epoch` are the
model's own bookkeeping of free values (notes/assumptions/3). -/

namespace Sys2Proof.Claims

open Sys2Proof.Machine

/-! ## The words statements are written in, independent of the meanings -/

/-- A completed command: BUSY = 0 and DONE = 1, all else as in `s` (R302). -/
def done (s : State) : State := { s with phase := .idle, status := { s.status with done := true } }

/-- A command completed with an error: DONE and ERR set and ERRCODE written, all else as in `s` (R302, R303). -/
def failed (s : State) (code op step : Byte) : State :=
  { s with phase := .idle, status := { s.status with done := true, err := true }, errcode := ⟨code, op, step⟩ }

/-- Multiplication by x in GF(256): shift, and subtract x⁸+x⁴+x³+x²+1 where x⁸ appears (R100). -/
def timesX (a : Byte) : Byte := (a <<< 1) ^^^ (if a.getLsbD 7 then 0x1D else 0)

/-- a·x^k in GF(256) (R100). -/
def timesXPow (a : Byte) : Nat → Byte
  | 0 => a
  | k + 1 => timesX (timesXPow a k)

/-- α^k, α the class of x (R101). -/
def alphaPow (k : Nat) : Byte := timesXPow 0x01 k

/-- The product of two polynomials over GF(2) modulo x⁸+x⁴+x³+x²+1 (R100), by shift and add. -/
def fieldProduct (a b : Byte) : Byte :=
  (List.range 8).foldl (fun acc i => if a.getLsbD i then acc ^^^ timesXPow b i else acc) 0

/-- The coefficient with index k of a product: ⊕ over i + j = k of a[i] ⊗ b[j] (R108). -/
def productCoefficient (a b : List Byte) (k : Nat) : Byte :=
  ((List.range (k + 1)).map fun i => fieldProduct (a.getD i 0) (b.getD (k - i) 0)).foldl (· ^^^ ·) 0

/-- The coefficient of x^d of a polynomial, highest degree first (R107). -/
def coefficient (p : List Byte) (d : Nat) : Byte := p.reverse.getD d 0

/-- The coefficient of x^d of q·b ⊕ r (R109). -/
def divisionCoefficient (q b r : List Byte) (d : Nat) : Byte :=
  productCoefficient q.reverse b.reverse d ^^^ coefficient r d

/-- The value of a polynomial at x (R107, R110). -/
def valueAt (p : List Byte) (x : Byte) : Byte := p.foldl (fun acc c => fieldProduct acc x ^^^ c) 0

/-- PA[0..PA_LEN). -/
def pa (s : State) : List Byte := (List.range s.regs.paLen.toNat).map s.paAt

/-- PB[0..PB_LEN). -/
def pb (s : State) : List Byte := (List.range s.regs.pbLen.toNat).map s.pbAt

/-- PR and PR_LEN hold the polynomial `r` in `t`, and all else is as after a completed command from `s` (R31, R44). -/
def LeavesInPr (s t : State) (r : List Byte) : Prop :=
  t = done { s with
      regs := { s.regs with prLen := t.regs.prLen }
      mems := { s.mems with pr := t.mems.pr }
      draws := t.draws } ∧
    t.regs.prLen.toNat = r.length ∧ ∀ j, j < r.length → t.prAt j = r.getD j 0

/-- TEXT[0..TEXT_LEN). -/
def text (s : State) : List Word := (List.range s.regs.textLen.toNat).map s.textAt

/-- A valid code point (R148). -/
def IsCodepoint (w : Word) : Prop := w.toNat ≤ 0x10FFFF ∧ ¬ (0xD800 ≤ w.toNat ∧ w.toNat ≤ 0xDFFF)

/-- The i-th bit of a field of n bits, most significant first (R142). -/
def fieldBit (value : Word) (n i : Nat) : Bool := value.getLsbD (n - 1 - i)

/-- The bits of fields (value, length), each most significant first (R146). -/
def concatenation (fields : List (Word × Nat)) : List Bool :=
  fields.flatMap fun f => (List.range f.2).map (fieldBit f.1 f.2)

/-- BB_PUT of each field in turn, OPA and OPB written before it; none where one does not answer a next state. -/
def putFields (s : State) : List (Word × Nat) → Option State
  | [] => some s
  | (v, n) :: rest =>
    match exec .bbPut { s with regs := { s.regs with opa := v, opb := BitVec.ofNat 32 n } } with
    | .next t => putFields t rest
    | _ => none

/-- The build of the state's selection and codewords (R200). -/
def built (s : State) (test : Bool) (m : Nat) : Matrix :=
  build s.params s.regs.version.toNat s.regs.selEc.toNat ((List.range s.regs.totalCw.toNat).map s.cwAt) test m

/-- The module count of the state's selection (R172). -/
def size (s : State) : Nat := 4 * s.regs.version.toNat + 17

/-- The matrix in WORK, true for dark (R240, R246). -/
def workMatrix (s : State) (n : Nat) : List (List Bool) :=
  (List.range n).map fun r => (List.range n).map fun c => s.workAt r c == 0b10

/-- The score of candidate m of a mask search (R248). -/
def candidateScore (s : State) (m : Nat) : Score :=
  score s.params (size s) ((built s true m).map fun row => row.map (· == .dark))

/-- How many data codewords of the interleaved stream stand before codeword i of block b, for blocks of `ds` data codewords:
the columns before i, and in column i the blocks before b (R180). -/
def dataPosition (ds : List Nat) (i b : Nat) : Nat :=
  ((List.range i).map fun col => (ds.filter (col < ·)).length).sum + ((ds.take b).filter (i < ·)).length

/-- A line of cells: the rows of an n × n matrix, then its columns (R240). -/
def lines (n : Nat) (m : List (List Bool)) : List (Nat → Bool) :=
  (List.range n).map (fun r c => (m.getD r []).getD c false) ++ (List.range n).map (fun c r => (m.getD r []).getD c false)

/-- The cells k to k + len - 1 of a line of n cells are a maximal run (R241). -/
def isRun (n : Nat) (line : Nat → Bool) (k len : Nat) : Bool :=
  decide (1 ≤ len) && decide (k + len ≤ n) && (List.range len).all (fun j => line (k + j) == line k) &&
    (k == 0 || line (k - 1) != line k) && (k + len == n || line (k + len) != line k)

/-- Cell i of a line of n cells is light; an index outside it counts as FINDER_EDGE_LIGHT says (R243). -/
def isLight (p : Params) (n : Nat) (line : Nat → Bool) (i : Int) : Bool :=
  if 0 ≤ i ∧ i < n then !line i.toNat else p.finderEdgeLight

/-- A 1,0,1,1,1,0,1 core at k with four light cells before or after it (R243). -/
def isFinderLike (p : Params) (n : Nat) (line : Nat → Bool) (k : Nat) : Bool :=
  line k && !line (k + 1) && line (k + 2) && line (k + 3) && line (k + 4) && !line (k + 5) && line (k + 6) &&
    ((isLight p n line (k - 4) && isLight p n line (k - 3) && isLight p n line (k - 2) && isLight p n line (k - 1)) ||
      (isLight p n line (k + 7) && isLight p n line (k + 8) && isLight p n line (k + 9) && isLight p n line (k + 10)))

/-- Dark for true. -/
def shade (dark : Bool) : Cell := if dark then .dark else .light

/-- The finder and separator cell at offset (dr, dc): by its ring around the centre (3, 3), light rings 2 and 4 (R201). -/
def finderRing (dr dc : Int) : Cell :=
  shade (max (dr - 3).natAbs (dc - 3).natAbs != 2 && max (dr - 3).natAbs (dc - 3).natAbs != 4)

/-- The alignment cell at row i, column j of its square: the ring around the centre (2, 2) is light (R204). -/
def alignmentRing (i j : Nat) : Cell := shade (max ((i : Int) - 2).natAbs ((j : Int) - 2).natAbs != 1)

/-- An alignment pattern stands at (a, b): a pair of POS(v) but for the three finder corners (R204). -/
def IsAlignmentCentre (v a b : Nat) : Prop :=
  a ∈ alignmentCentres v ∧ b ∈ alignmentCentres v ∧
    (a, b) ≠ (6, 6) ∧ (a, b) ≠ (6, 4 * v + 10) ∧ (a, b) ≠ (4 * v + 10, 6)

/-- The 32 format words of R207, by ordinal and mask. -/
def formatWords : List Nat :=
  [0x5412, 0x5125, 0x5E7C, 0x5B4B, 0x45F9, 0x40CE, 0x4F97, 0x4AA0] ++
    [0x77C4, 0x72F3, 0x7DAA, 0x789D, 0x662F, 0x6318, 0x6C41, 0x6976] ++
    [0x1689, 0x13BE, 0x1CE7, 0x19D0, 0x0762, 0x0255, 0x0D0C, 0x083B] ++
    [0x355F, 0x3068, 0x3F31, 0x3A06, 0x24B4, 0x2183, 0x2EDA, 0x2BED]

/-- The version words of v = 7..40 (R210). -/
def versionWords : List Nat :=
  [0x07C94, 0x085BC, 0x09A99, 0x0A4D3, 0x0BBF6, 0x0C762, 0x0D847, 0x0E60D, 0x0F928, 0x10B78, 0x1145D, 0x12A17] ++
    [0x13532, 0x149A6, 0x15683, 0x168C9, 0x177EC, 0x18EC4, 0x191E1, 0x1AFAB, 0x1B08E, 0x1CC1A, 0x1D33F, 0x1ED75] ++
    [0x1F250, 0x209D5, 0x216F0, 0x228BA, 0x2379F, 0x24B0B, 0x2542E, 0x26A64, 0x27541, 0x28C69]

/-- The function-pattern cells: the finder corners with their format cells and the dark module, the timing lines, the
alignment squares and, from version 7 on, the version blocks (R201..R210). -/
def isFunctionCell (v r c : Nat) : Bool :=
  let n := 4 * v + 17
  (decide (r < 9) && decide (c < 9)) || (decide (r < 9) && decide (n - 8 ≤ c)) || (decide (n - 8 ≤ r) && decide (c < 9)) ||
    r == 6 || c == 6 ||
    (decide (7 ≤ v) && ((decide (r < 6) && decide (n - 11 ≤ c)) || (decide (n - 11 ≤ r) && decide (c < 6)))) ||
    (alignmentCentres v).any fun a => (alignmentCentres v).any fun b =>
      (a, b) != (6, 6) && (a, b) != (6, n - 7) && (a, b) != (n - 7, 6) &&
        decide (a ≤ r + 2) && decide (r ≤ a + 2) && decide (b ≤ c + 2) && decide (c ≤ b + 2)

/-- The right column of pair j, counted from the right; column 6 is skipped (R212). -/
def rightColumn (n j : Nat) : Nat := if 6 < n - 1 - 2 * j then n - 1 - 2 * j else n - 2 - 2 * j

/-- The data region in the order of placement: pair by pair from the right, the first upward and each later one reversed,
in each row the right cell first (R211, R212). -/
def dataCells (v : Nat) : List (Nat × Nat) :=
  let n := 4 * v + 17
  ((List.range ((n - 1) / 2)).flatMap fun j => (List.range n).flatMap fun i =>
    let r := if j % 2 = 0 then n - 1 - i else i
    [(r, rightColumn n j), (r, rightColumn n j - 1)]).filter fun x => !isFunctionCell v x.1 x.2

/-- The mask conditions of R213. -/
def MaskInverts (m i j : Nat) : Prop :=
  match m with
  | 0 => (i + j) % 2 = 0
  | 1 => i % 2 = 0
  | 2 => j % 3 = 0
  | 3 => (i + j) % 3 = 0
  | 4 => (i / 2 + j / 3) % 2 = 0
  | 5 => i * j % 2 + i * j % 3 = 0
  | 6 => (i * j % 2 + i * j % 3) % 2 = 0
  | _ => (i * j % 3 + (i + j) % 2) % 2 = 0

/-- The bits of a register that a host write stores; none for RO registers (R19, R26..R39). CMD and STATUS have their own
rules (R24, R300). -/
def storedBits : Reg → Word
  | .irqEn => 0x0000000E
  | .ecLevel => 0x00000003
  | .forceVersion => 0x0000003F
  | .textLen => 0x00001FFF
  | .opa => 0xFFFFFFFF
  | .opb => 0xFFFFFFFF
  | .paLen => 0x000001FF
  | .pbLen => 0x000001FF
  | .workSize => 0x000000FF
  | .qrow => 0xFFFFFFFF
  | .qcol => 0xFFFFFFFF
  | _ => 0

/-- Byte t of a word (R53). -/
def byteOf (w : Word) (t : Nat) : Byte := w.extractLsb' (8 * t) 8

/-- The mapped offsets of R52. -/
def Mapped (addr : Nat) : Prop :=
  addr ≤ 0x000A7 ∨ (0x04000 ≤ addr ∧ addr ≤ 0x07FFF) ∨ (0x08000 ≤ addr ∧ addr ≤ 0x08FFF) ∨
    (0x09000 ≤ addr ∧ addr ≤ 0x09FFF) ∨ (0x0A000 ≤ addr ∧ addr ≤ 0x0AFFF) ∨ (0x0B000 ≤ addr ∧ addr ≤ 0x0B0FF) ∨
    (0x0B100 ≤ addr ∧ addr ≤ 0x0B1FF) ∨ (0x0B200 ≤ addr ∧ addr ≤ 0x0B2FF) ∨ (0x0C000 ≤ addr ∧ addr ≤ 0x0FFFF) ∨
    (0x10000 ≤ addr ∧ addr ≤ 0x11FFF) ∨ (0x12000 ≤ addr ∧ addr ≤ 0x123FF) ∨ (0x12400 ≤ addr ∧ addr ≤ 0x127FF)

/-- The register offsets, as the table of 10_state.md, section 2, gives them. -/
def registerOffset : Reg → Nat
  | .id => 0x000
  | .cmd => 0x004
  | .status => 0x008
  | .errcode => 0x00C
  | .irqEn => 0x010
  | .ecLevel => 0x014
  | .forceVersion => 0x018
  | .textLen => 0x01C
  | .opa => 0x020
  | .opb => 0x024
  | .res => 0x028
  | .paLen => 0x02C
  | .pbLen => 0x030
  | .prLen => 0x034
  | .bbLen => 0x038
  | .segLen => 0x03C
  | .version => 0x040
  | .moduleCount => 0x044
  | .selEc => 0x048
  | .dataCw => 0x04C
  | .totalCw => 0x050
  | .numBlocks => 0x054
  | .workSize => 0x058
  | .workInfo => 0x05C
  | .gridInfo => 0x060
  | .gridSize => 0x064
  | .qrow => 0x068
  | .qcol => 0x06C
  | .bestMask => 0x070
  | .penTotal => 0x074
  | .penN1 => 0x078
  | .penN2 => 0x07C
  | .penN3 => 0x080
  | .penN4 => 0x084
  | .penalty m => 0x088 + 4 * m.val

/-- The first and the last offset of a window (R52). -/
def windowRange : Window → Nat × Nat
  | .text => (0x04000, 0x07FFF)
  | .seg => (0x08000, 0x08FFF)
  | .bb => (0x09000, 0x09FFF)
  | .cw => (0x0A000, 0x0AFFF)
  | .pa => (0x0B000, 0x0B0FF)
  | .pb => (0x0B100, 0x0B1FF)
  | .pr => (0x0B200, 0x0B2FF)
  | .work => (0x0C000, 0x0FFFF)
  | .grid => (0x10000, 0x11FFF)
  | .expRom => (0x12000, 0x123FF)
  | .logRom => (0x12400, 0x127FF)

/-- Word k of a window lies inside it (R52). -/
def InWindow (w : Window) (k : Nat) : Prop := (windowRange w).1 + 4 * k ≤ (windowRange w).2

/-- What stands at an offset: a register, or word k of a window (R52). -/
def StandsAt (addr : Nat) : Place → Prop
  | .reg r => addr = registerOffset r
  | .word w k => InWindow w k ∧ addr = (windowRange w).1 + 4 * k

/-- The offset of a target (R86). -/
def targetOffset : Target → Nat
  | .reg r => registerOffset r
  | .word w k => (windowRange w).1 + 4 * k
  | .raw addr => addr.toNat

/-- A window target names a word of its window (R86). -/
def TargetExists : Target → Prop
  | .reg _ => True
  | .word w k => InWindow w k
  | .raw _ => True

/-- The bus transaction of a line, none for a branch or a check (R86). -/
def LineMakes : HostLine → Access → Prop
  | .wr t v, a => TargetExists t ∧ a = .write .word (BitVec.ofNat 18 (targetOffset t)) v
  | .rd t _, a => TargetExists t ∧ a = .read .word (BitVec.ofNat 18 (targetOffset t))
  | .command i, a => a = .write .word 0x00004 (encode i)
  | .br _ _ _ _, _ => False
  | .expect _ _, _ => False
  | .bus b, a => a = b

/-- The program text gives the line no meaning: a window has no such word, or a name no value (notes/assumptions/12). -/
def LineRefused (h : HostAgent) : HostLine → Refusal → Prop
  | .wr (.word w k) _, r => ¬ InWindow w k ∧ r = .badTarget w k
  | .rd (.word w k) _, r => ¬ InWindow w k ∧ r = .badTarget w k
  | .br name _ _ _, r => h.named.lookup name = none ∧ r = .unboundName name
  | .expect name _, r => h.named.lookup name = none ∧ r = .unboundName name
  | _, _ => False

/-- The named values after a line has read `v` (R86). -/
def namedAfter (h : HostAgent) (l : HostLine) (v : Word) : List (Nat × Word) :=
  match l with
  | .rd _ (some name) => (name, v) :: h.named
  | _ => h.named

/-- The host is to move in `s`, and `u` is `s` less the turn taken (notes/assumptions/1, 2). -/
def HostMoves (s u : State) : Prop :=
  (s.sched = [] ∧ s.phase = .idle ∧ u = s) ∨ ∃ rest, s.sched = .host :: rest ∧ u = { s with sched := rest }

end Sys2Proof.Claims

open Sys2Proof Sys2Proof.Machine Sys2Proof.Claims

/-! ## Encoding -/

/-- Every command's word decodes to that command (R80, R83), every MASK and TEST included. -/
def Obligations.DecodeOfEncodeIsTheCommand : Prop := ∀ i : Instr, decode (encode i) = .ok i

/-- No word but a command's own decodes to it (R81, R83, R85). -/
def Obligations.DecodeAcceptsOnlyEncodedWords : Prop := ∀ (w : Word) (i : Instr), decode w = .ok i → w = encode i

/-- R84: a word decodes exactly when its three conditions hold, and the completion of an illegal word is ILLEGAL_COMMAND,
ERRCODE.OP its bits [7:0], and nothing else. -/
def Obligations.IllegalWordsCompleteWithIllegalCommand : Prop :=
  (∀ w : Word, (∃ i, decode w = .ok i) ↔
    (w.extractLsb' 0 8 ∈ assignedOps ∧ w.extractLsb' 12 20 = 0 ∧ (w.extractLsb' 0 8 ≠ 0x40 → w.extractLsb' 8 4 = 0))) ∧
  ∀ (s : State) (w : Word), (∀ i, decode w ≠ .ok i) →
    runWord w s = .next (failed s 0x06 (w.extractLsb' 0 8) (w.extractLsb' 0 8))

/-- Words written out from R80 and R83, one or more for each family. -/
def Obligations.KnownWordsDecode : Prop :=
  decode 0x00000000 = .ok .nop ∧ decode 0x00000012 = .ok .gfMul ∧ decode 0x0000001B = .ok .rsEcc ∧
    decode 0x00000021 = .ok .bbPut ∧ decode 0x00000030 = .ok .segLoad ∧ decode 0x00000031 = .ok .selectVersion ∧
    decode 0x00000340 = .ok (.matrixBuild 3 false) ∧ decode 0x00000F40 = .ok (.matrixBuild 7 true) ∧
    decode 0x00000043 = .ok .maskSearch ∧ decode 0x00000060 = .ok .query ∧ decode 0x00000141 = .error (.maskOrTest 0x41) ∧
    decode 0x00001040 = .error .reservedBits ∧ decode 0x00000002 = .error (.reservedOpcode 0x02)

/-- A step runs the decoded command, or the host's line. With a word in flight and the engine to move, the step is the
completion of that word, and with a legal one it is the command's own, on the state with the engine's turn taken off the
schedule (R301, R302). With the host to move, a WR, RD or command line makes its one bus transaction: an admitted write of
its place and value, an admitted read whose value gets the line's name, or, where it is not admitted, no step of the host; a
BR goes to its label or the next line, an EXPECT records whether it failed, and every other line goes on to the next one
(R51, R86, R308(e)); past the last line nothing changes (R316), and a line the text gives no meaning is refused. The schedule, the engine moving first where none is given,
and the fault of a stuck host that no other agent's turn follows are the model's choice (notes/assumptions/1, 2, 8), and so
are lines as data (notes/assumptions/12, 25). -/
def Obligations.StepRunsTheDecodedCommand : Prop :=
  (∀ (s : State) (w : Word), s.phase = .busy w →
    (s.sched = [] → step s = runWord w s) ∧
    (∀ rest, s.sched = .engine :: rest → step s = runWord w { s with sched := rest }) ∧
    ∀ i, decode w = .ok i →
      (s.sched = [] → step s = exec i s) ∧
      ∀ rest, s.sched = .engine :: rest → step s = exec i { s with sched := rest }) ∧
  ∀ s u : State, HostMoves s u →
    (∀ l, s.host.prog[s.host.line]? = some l →
      (∀ size addr v p, LineMakes l (.write size addr v) → u.admission (.write size addr v) = .ok p →
        step s = .next { u.busWrite p v with host := { s.host with line := s.host.line + 1 } }) ∧
      (∀ size addr p, LineMakes l (.read size addr) → u.admission (.read size addr) = .ok p →
        step s = .next { (u.busRead p).2 with
          host := { s.host with line := s.host.line + 1, named := namedAfter s.host l (u.busRead p).1 } }) ∧
      (∀ a why, LineMakes l a → u.admission a = .error why →
        step s = if s.sched = [] then .fault (.hostStuck why) else .next u) ∧
      (∀ name bit value label v, l = .br name bit value label → s.host.named.lookup name = some v →
        step s = .next { u with
          host := { s.host with line := if v.getLsbD bit.val = value then label else s.host.line + 1 } }) ∧
      (∀ name value v, l = .expect name value → s.host.named.lookup name = some v →
        step s = .next { u with
          host := { s.host with line := s.host.line + 1, failed := s.host.failed || v != value } }) ∧
      ∀ r, LineRefused s.host l r → step s = .refused r) ∧
    (s.host.prog.length ≤ s.host.line → step s = .next u)

/-! ## The command lifecycle and the host -/

/-- R300: a CMD write does exactly one of three things: dropped while BUSY; ignored while ERR = 1, unless it is SOFT_RESET;
accepted, with BUSY <- 1 and DONE <- 0. -/
def Obligations.CmdWriteIsDroppedIgnoredOrAccepted : Prop :=
  ∀ (s : State) (w : Word),
    (s.phase.isBusy = true → s.busWrite (.reg .cmd) w = { s with status := { s.status with haz := true } }) ∧
    (s.phase = .idle → s.status.err = true → w ≠ 0x00000001 →
      s.busWrite (.reg .cmd) w = { s with status := { s.status with haz := true } }) ∧
    (s.phase = .idle → s.status.err = false ∨ w = 0x00000001 →
      s.busWrite (.reg .cmd) w = { s with phase := .busy w, status := { s.status with done := false } })

/-- R305: while BUSY a host write stores nothing and sets HAZ, but a write to IRQ_EN is performed and does not. -/
def Obligations.WritesWhileBusyAreDropped : Prop :=
  ∀ (s : State) (p : Place) (v : Word), s.phase.isBusy = true →
    (p ≠ .reg .irqEn → s.busWrite p v = { s with status := { s.status with haz := true } }) ∧
    s.busWrite (.reg .irqEn) v = { s with irqEn := ⟨v.getLsbD 1, v.getLsbD 2, v.getLsbD 3⟩ }

/-- R60, R306: a read changes nothing the spec names. While IDLE it returns the location's value; while BUSY that of ID,
STATUS, ERRCODE and IRQ_EN, and a fresh free value for every other location. -/
def Obligations.ReadsHaveNoSideEffect : Prop :=
  ∀ (s : State) (p : Place),
    (s.busRead p).2 = { s with draws := (s.busRead p).2.draws } ∧
    (s.phase = .idle → (s.busRead p).1 = s.peek p ∧ (s.busRead p).2 = s) ∧
    (p ∈ [Place.reg .id, Place.reg .status, Place.reg .errcode, Place.reg .irqEn] → s.busRead p = (s.peek p, s)) ∧
    (s.phase.isBusy = true → p ∉ [Place.reg .id, Place.reg .status, Place.reg .errcode, Place.reg .irqEn] →
      (s.busRead p).1 = Config.freeBusWord s.draws ∧ s.draws < (s.busRead p).2.draws)

/-- R24, R304, R311: while IDLE a write to STATUS clears DONE, ERR and HAZ where it writes 1 and leaves every other bit and
all other state; with ERR written as 1 a command word is accepted again. -/
def Obligations.StatusWriteClearsOnlyTheBitsWrittenOne : Prop :=
  ∀ (s : State) (v : Word), s.phase = .idle →
    ∃ t, s.busWrite (.reg .status) v = t ∧ t = { s with status := t.status } ∧
      t.statusWord = s.statusWord &&& ~~~(v &&& 0x0000000E) ∧
      (v.getLsbD 2 = true → ∀ w, t.busWrite (.reg .cmd) w =
        { t with phase := .busy w, status := { t.status with done := false } })

/-- R51, R58, R340: an access is admitted exactly when RST is released, its size is 4 bytes, its offset is a multiple of 4
and the offset is mapped; and it is then of the register or the window word that stands at the offset, by the offsets of R52
and of 10_state.md, section 2. -/
def Obligations.AccessIsAdmittedExactlyWhenAlignedWordAndMapped : Prop :=
  ∀ (s : State) (a : Access),
    ((∃ p, s.admission a = .ok p) ↔ (s.rst = false ∧ a.size = .word ∧ a.addr.toNat % 4 = 0 ∧ Mapped a.addr.toNat)) ∧
    ∀ p, s.admission a = .ok p ↔ (s.rst = false ∧ a.size = .word ∧ StandsAt a.addr.toNat p)

/-- R317: the only stop of the system is the stuck host, and only while the engine is IDLE; the engine refuses no word,
so a refusal comes from the text of a host line. -/
def Obligations.OnlyTheStuckHostStopsTheSystem : Prop :=
  ∀ s : State,
    (∀ r, step s = .fault r → s.phase = .idle ∧ s.sched = [] ∧ ∃ why, r = .hostStuck why ∧ s.hostTurn = .stuck why) ∧
    (∀ r, step s = .refused r → ∃ t : State, t.host = s.host ∧ t.hostTurn = .refused r)

/-- R302, R317: the engine never hangs or refuses; every command completes, to IDLE with DONE = 1. R25, R304: one that
completes without an error leaves ERRCODE, unless it is SOFT_RESET. -/
def Obligations.EveryCommandCompletes : Prop :=
  ∀ (i : Instr) (s : State), ∃ t, exec i s = .next t ∧ t.phase = .idle ∧ t.status.done = true ∧
    (i ≠ .softReset → t.status.err = false → t.errcode = s.errcode)

/-- R303: a command other than ENCODE that ends in an error writes no memory. It sets ERR, records its own opcode as OP
and STEP with a code of R307, and leaves every register but RES (SEG_LOAD), VERSION and MODULE_COUNT (SELECT_VERSION). -/
def Obligations.FailedCommandWritesNoMemory : Prop :=
  ∀ (i : Instr) (s t : State), i ≠ .encode → s.status.err = false → exec i s = .next t → t.status.err = true →
    t.mems = s.mems ∧ t.irqEn = s.irqEn ∧ t.draws = s.draws ∧
      t.errcode.op = i.opcode ∧ t.errcode.step = i.opcode ∧ 1 ≤ t.errcode.code.toNat ∧ t.errcode.code.toNat ≤ 0x0A ∧
      t.regs = { s.regs with
        res := if i = .segLoad then t.regs.res else s.regs.res
        version := if i = .selectVersion then 0 else s.regs.version
        moduleCount := if i = .selectVersion then 0 else s.regs.moduleCount } ∧
      t.status = { s.status with
        done := true
        err := true
        segValid := s.status.segValid && i != .segLoad
        verValid := s.status.verValid && i != .segLoad && i != .selectVersion
        cwValid := s.status.cwValid && i != .segLoad && i != .selectVersion && i != .buildCodewords }

/-- R270: NOP changes no state but its completion: BUSY = 0 and DONE = 1. -/
def Obligations.NopOnlyCompletes : Prop := ∀ s : State, exec .nop s = .next (done s)

/-- R271: every register but IRQ_EN returns to its reset value, STATUS = 0x00000002, and every memory keeps its contents. -/
def Obligations.SoftResetReturnsTheRegisters : Prop :=
  ∀ s : State, ∃ t, exec .softReset s = .next t ∧ t.phase = .idle ∧ t.statusWord = 0x00000002 ∧
    (∀ r : Reg, r ≠ .status → r ≠ .irqEn → t.readReg r = State.reset.readReg r) ∧
    t.irqEn = s.irqEn ∧ t.mems = s.mems ∧ t.rst = s.rst ∧ t.host = s.host ∧ t.sched = s.sched ∧ t.draws = s.draws

/-- R340, R341: asserting RST, in IDLE or BUSY, abandons a command in flight, gives every register its reset value and leaves
nothing any memory held: each is a fresh draw (the schedule and the draws' numbers are the model's own: notes/assumptions/1,
3, 10). No access is admitted until RST is released, and the parameters stay (notes/assumptions/15). -/
def Obligations.ResetInputGivesTheResetState : Prop :=
  ∀ (s : State) (rest : List Turn), s.sched = .rst true :: rest →
    ∃ t, step s = .next t ∧ t.phase = .idle ∧ (∀ r : Reg, t.readReg r = State.reset.readReg r) ∧ t.irq = false ∧
      t.mems = Mems.fresh s.draws ∧ t.params = s.params ∧ t.host = s.host ∧ t.sched = rest ∧
      ∀ a, t.admission a = .error .inReset

/-- R341: at reset ID reads its constant and every other register reads 0, the engine is IDLE and IRQ is low. -/
def Obligations.EveryRegisterReadsZeroAtReset : Prop :=
  State.reset.readReg .id = 0x51524D31 ∧ (∀ r : Reg, r ≠ .id → State.reset.readReg r = 0) ∧
    State.reset.phase = .idle ∧ State.reset.irq = false

/-- R309: IRQ is the OR of DONE, ERR and HAZ as the host reads them, each gated by its IRQ_EN bit as the host reads it. -/
def Obligations.IrqIsTheGatedOrOfStatus : Prop :=
  ∀ s : State, s.irq = ((s.readReg .status &&& s.readReg .irqEn &&& 0x0000000E) != 0)

/-! ## GF(256), polynomials, Reed–Solomon -/

/-- R113, R104: RES <- α^sint(OPA), α^255 = 1. -/
def Obligations.GfExpIsAPowerOfAlpha : Prop :=
  ∀ s : State, exec .gfExp s =
    .next (done { s with regs := { s.regs with res := (alphaPow (s.regs.opa.toInt % 255).toNat).setWidth 32 } })

/-- R114: BAD_OPERAND above a byte, GF_LOG_ZERO at 0, else RES is the e in 0..254 with α^e = OPA. -/
def Obligations.GfLogIsTheLogarithm : Prop :=
  ∀ s : State,
    (256 ≤ s.regs.opa.toNat → exec .gfLog s = .next (failed s 0x05 0x11 0x11)) ∧
    (s.regs.opa.toNat = 0 → exec .gfLog s = .next (failed s 0x04 0x11 0x11)) ∧
    (0 < s.regs.opa.toNat → s.regs.opa.toNat < 256 →
      ∃ e, e ≤ 254 ∧ alphaPow e = s.regs.opa.setWidth 8 ∧
        exec .gfLog s = .next (done { s with regs := { s.regs with res := BitVec.ofNat 32 e } }))

/-- R115, R106: RES <- the field product of two bytes; BAD_OPERAND where an operand is no byte. -/
def Obligations.GfMulIsTheFieldProduct : Prop :=
  ∀ s : State,
    (256 ≤ s.regs.opa.toNat ∨ 256 ≤ s.regs.opb.toNat → exec .gfMul s = .next (failed s 0x05 0x12 0x12)) ∧
    (s.regs.opa.toNat < 256 → s.regs.opb.toNat < 256 →
      exec .gfMul s = .next (done { s with regs := { s.regs with
        res := (fieldProduct (s.regs.opa.setWidth 8) (s.regs.opb.setWidth 8)).setWidth 32 } }))

/-- R116, R108: the product polynomial in PR, its coefficients the sums of products, or nothing for a zero operand;
BAD_OPERAND for a length above 256 or a product of more than 256 coefficients. -/
def Obligations.PolyMulIsTheProduct : Prop :=
  ∀ s : State,
    (256 < s.regs.paLen.toNat ∨ 256 < s.regs.pbLen.toNat → exec .polyMul s = .next (failed s 0x05 0x18 0x18)) ∧
    (s.regs.paLen.toNat ≤ 256 → s.regs.pbLen.toNat ≤ 256 → norm (pa s) ≠ [] → norm (pb s) ≠ [] →
      256 < (norm (pa s)).length + (norm (pb s)).length - 1 → exec .polyMul s = .next (failed s 0x05 0x18 0x18)) ∧
    (s.regs.paLen.toNat ≤ 256 → s.regs.pbLen.toNat ≤ 256 → norm (pa s) = [] ∨ norm (pb s) = [] →
      ∃ t, exec .polyMul s = .next t ∧ LeavesInPr s t []) ∧
    (s.regs.paLen.toNat ≤ 256 → s.regs.pbLen.toNat ≤ 256 → norm (pa s) ≠ [] → norm (pb s) ≠ [] →
      (norm (pa s)).length + (norm (pb s)).length - 1 ≤ 256 →
      ∃ t, exec .polyMul s = .next t ∧
        LeavesInPr s t ((List.range ((norm (pa s)).length + (norm (pb s)).length - 1)).map
          (productCoefficient (norm (pa s)) (norm (pb s)))))

/-- R117: the remainder of R109 in PR; BAD_OPERAND for a length above 256 or a zero divisor. -/
def Obligations.PolyModLeavesTheRemainder : Prop :=
  ∀ s : State,
    (256 < s.regs.paLen.toNat ∨ 256 < s.regs.pbLen.toNat → exec .polyMod s = .next (failed s 0x05 0x19 0x19)) ∧
    (s.regs.paLen.toNat ≤ 256 → s.regs.pbLen.toNat ≤ 256 → norm (pb s) = [] →
      exec .polyMod s = .next (failed s 0x05 0x19 0x19)) ∧
    (s.regs.paLen.toNat ≤ 256 → s.regs.pbLen.toNat ≤ 256 → norm (pb s) ≠ [] →
      ∃ t, exec .polyMod s = .next t ∧ LeavesInPr s t (pmod (pa s) (pb s)))

/-- R109: the remainder r of a by b is normalized and shorter than the normalized divisor, a(x) = q(x)·b(x) ⊕ r(x) for some
q, and a dividend shorter than the divisor is returned normalized. -/
def Obligations.RemainderIsShorterThanTheDivisor : Prop :=
  ∀ a b : List Byte, norm b ≠ [] →
    (pmod a b).length < (norm b).length ∧ norm (pmod a b) = pmod a b ∧
      ((norm a).length < (norm b).length → pmod a b = norm a) ∧
      ∃ q, ∀ d, coefficient a d = divisionCoefficient q b (pmod a b) d

/-- R118, R110: g_n in PR for n ≤ 255: monic, of degree n, with the roots α⁰..α^(n−1); BAD_OPERAND for a larger n. -/
def Obligations.RsGenpolyLeavesTheGenerator : Prop :=
  ∀ s : State,
    (255 < s.regs.opa.toNat → exec .rsGenpoly s = .next (failed s 0x05 0x1A 0x1A)) ∧
    (s.regs.opa.toNat ≤ 255 →
      (genPoly s.regs.opa.toNat).length = s.regs.opa.toNat + 1 ∧ (genPoly s.regs.opa.toNat).head? = some 0x01 ∧
        (∀ i, i < s.regs.opa.toNat → valueAt (genPoly s.regs.opa.toNat) (alphaPow i) = 0) ∧
        ∃ t, exec .rsGenpoly s = .next t ∧ LeavesInPr s t (genPoly s.regs.opa.toNat))

/-- R119: rs_ecc(PA[0..PA_LEN), n) in PR, n coefficients; BAD_OPERAND for PA_LEN above 256 or n above 255. -/
def Obligations.RsEccLeavesTheEcCodewords : Prop :=
  ∀ s : State,
    (256 < s.regs.paLen.toNat ∨ 255 < s.regs.opa.toNat → exec .rsEcc s = .next (failed s 0x05 0x1B 0x1B)) ∧
    (s.regs.paLen.toNat ≤ 256 → s.regs.opa.toNat ≤ 255 →
      (rsEcc (pa s) s.regs.opa.toNat).length = s.regs.opa.toNat ∧
        ∃ t, exec .rsEcc s = .next t ∧ LeavesInPr s t (rsEcc (pa s) s.regs.opa.toNat))

/-- R111: rs_ecc has length n, does not see leading zeros of the data and is zero for zero data, and data ++ rs_ecc(data, n)
is divisible by g_n: it is a multiple of g_n, and every α^i with i < n is a root of it. -/
def Obligations.BlockWithItsEcIsDivisibleByTheGenerator : Prop :=
  ∀ (data : List Byte) (n : Nat),
    (rsEcc data n).length = n ∧ rsEcc data 0 = [] ∧
      (∀ k, rsEcc (List.replicate k 0 ++ data) n = rsEcc data n ∧ rsEcc (List.replicate k 0) n = List.replicate n 0) ∧
      (∀ i, i < n → valueAt (data ++ rsEcc data n) (alphaPow i) = 0) ∧
      ∃ q, ∀ d, coefficient (data ++ rsEcc data n) d = divisionCoefficient q (genPoly n) [] d

/-! ## Bit buffer and segment -/

/-- R143: every bit of BB is 0 and BB_LEN = 0; nothing else changes. -/
def Obligations.BbClearZeroesTheBuffer : Prop :=
  ∀ s : State, ∃ t, exec .bbClear s = .next t ∧
    t = done { s with regs := { s.regs with bbLen := 0 }, mems := { s.mems with bb := t.mems.bb } } ∧
    ∀ i, i < 32768 → t.bbAt i = false

/-- R144, R142: the low OPB bits of OPA, most significant first, at BB_LEN; no other bit is written and all other state is
unchanged; BAD_OPERAND above 32 bits, then BUFFER_OVERFLOW past 32768. R140's derived sentence that the bits from the new
BB_LEN on are 0 holds where they were 0 before; that the model follows R142 and R144 elsewhere is notes/assumptions/6. -/
def Obligations.BbPutAppendsTheField : Prop :=
  ∀ s : State,
    (32 < s.regs.opb.toNat → exec .bbPut s = .next (failed s 0x05 0x21 0x21)) ∧
    (s.regs.opb.toNat ≤ 32 → 32768 < s.regs.bbLen.toNat + s.regs.opb.toNat →
      exec .bbPut s = .next (failed s 0x0A 0x21 0x21)) ∧
    (s.regs.opb.toNat ≤ 32 → s.regs.bbLen.toNat + s.regs.opb.toNat ≤ 32768 →
      ∃ t, exec .bbPut s = .next t ∧
        t = done { s with
          regs := { s.regs with bbLen := BitVec.ofNat 16 (s.regs.bbLen.toNat + s.regs.opb.toNat) }
          mems := { s.mems with bb := t.mems.bb } } ∧
        ∀ i, i < 32768 → t.bbAt i =
          if i < s.regs.bbLen.toNat then s.bbAt i
          else if i < s.regs.bbLen.toNat + s.regs.opb.toNat then
            fieldBit s.regs.opa s.regs.opb.toNat (i - s.regs.bbLen.toNat)
          else s.bbAt i)

/-- R145: RES <- bit OPA of the buffer, OPA unsigned and below BB_LEN; else OUT_OF_RANGE with RES unchanged. -/
def Obligations.BbGetReadsTheBit : Prop :=
  ∀ s : State,
    (s.regs.bbLen.toNat ≤ s.regs.opa.toNat → exec .bbGet s = .next (failed s 0x03 0x22 0x22)) ∧
    (s.regs.opa.toNat < s.regs.bbLen.toNat →
      exec .bbGet s = .next (done { s with regs := { s.regs with
        res := (BitVec.ofBool (s.bbAt s.regs.opa.toNat)).setWidth 32 } }))

/-- R146: from a buffer emptied by BB_CLEAR, any fields of at most 32 bits and 32768 bits in all put one after the other are
read back, bit by bit, as their concatenation. -/
def Obligations.BitBufferReadsBackWhatWasPut : Prop :=
  ∀ (s c : State) (fields : List (Word × Nat)), exec .bbClear s = .next c → (∀ f ∈ fields, f.2 ≤ 32) →
    (fields.map (·.2)).sum ≤ 32768 →
    ∃ t, putFields c fields = some t ∧ t.regs.bbLen.toNat = (fields.map (·.2)).sum ∧
      ∀ i, i < (fields.map (·.2)).sum →
        ∃ u, exec .bbGet { t with regs := { t.regs with opa := BitVec.ofNat 32 i } } = .next u ∧
          u.regs.res = if (concatenation fields).getD i false then 1 else 0

/-- R153: SEG holds the payload and SEG_LEN its length, SEG_VALID is set and VER_VALID, CW_VALID cleared; in order
BAD_OPERAND, INVALID_CODEPOINT with the lowest bad index in RES, DATA_TOO_LONG, each clearing the three flags and leaving
SEG and SEG_LEN. -/
def Obligations.SegLoadBuildsTheSegment : Prop :=
  ∀ s : State,
    (4096 < s.regs.textLen.toNat →
      exec .segLoad s = .next (failed { s with status := { s.status with
        segValid := false, verValid := false, cwValid := false } } 0x05 0x30 0x30)) ∧
    (∀ k, s.regs.textLen.toNat ≤ 4096 → k < s.regs.textLen.toNat → ¬ IsCodepoint (s.textAt k) →
      (∀ j, j < k → IsCodepoint (s.textAt j)) →
      exec .segLoad s = .next (failed { s with
        status := { s.status with segValid := false, verValid := false, cwValid := false }
        regs := { s.regs with res := BitVec.ofNat 32 k } } 0x07 0x30 0x30)) ∧
    (s.regs.textLen.toNat ≤ 4096 → (∀ w ∈ text s, IsCodepoint w) → 2953 < (payload (text s)).length →
      exec .segLoad s = .next (failed { s with status := { s.status with
        segValid := false, verValid := false, cwValid := false } } 0x01 0x30 0x30)) ∧
    (s.regs.textLen.toNat ≤ 4096 → (∀ w ∈ text s, IsCodepoint w) → (payload (text s)).length ≤ 2953 →
      ∃ t, exec .segLoad s = .next t ∧
        t = done { s with
          status := { s.status with segValid := true, verValid := false, cwValid := false }
          regs := { s.regs with segLen := BitVec.ofNat 12 (payload (text s)).length }
          mems := { s.mems with seg := t.mems.seg }
          draws := t.draws } ∧
        t.regs.segLen.toNat = (payload (text s)).length ∧
        ∀ j, j < (payload (text s)).length → t.segAt j = (payload (text s)).getD j 0)

/-- R149, R150: the bytes of each range of code points, and the mark EF BB BF before them exactly when some code point is
0x80 or above. -/
def Obligations.PayloadIsUtf8WithTheMarkForNonAscii : Prop :=
  (∀ c : Nat,
    (c ≤ 0x7F → (utf8 c).map BitVec.toNat = [c]) ∧
    (0x80 ≤ c → c ≤ 0x7FF → (utf8 c).map BitVec.toNat = [192 + c / 64, 128 + c % 64]) ∧
    (0x800 ≤ c → c ≤ 0xFFFF → (utf8 c).map BitVec.toNat = [224 + c / 4096, 128 + c / 64 % 64, 128 + c % 64]) ∧
    (0x10000 ≤ c → c ≤ 0x10FFFF →
      (utf8 c).map BitVec.toNat = [240 + c / 262144, 128 + c / 4096 % 64, 128 + c / 64 % 64, 128 + c % 64])) ∧
  ∀ t : List Word, (∀ w ∈ t, IsCodepoint w) →
    ((∃ w ∈ t, 0x80 ≤ w.toNat) → payload t = [0xEF, 0xBB, 0xBF] ++ t.flatMap fun w => utf8 w.toNat) ∧
    ((∀ w ∈ t, w.toNat < 0x80) → payload t = t.map fun w => w.setWidth 8)

/-! ## Version selection and codewords -/

/-- R173: the forced version where it is 1..40 and fits, else, where none is forced, the smallest that fits; ECLEVEL is
latched and the block registers are those of the table; in order SEQUENCE, BAD_OPERAND, DATA_TOO_LONG, each zeroing VERSION
and MODULE_COUNT and clearing VER_VALID and CW_VALID. -/
def Obligations.SelectVersionTakesTheSmallestThatFits : Prop :=
  ∀ s : State,
    let ec := s.regs.ecLevel
    let len := s.regs.segLen.toNat
    let fv := s.regs.forceVersion.toNat
    let lost : State := { s with
      regs := { s.regs with version := 0, moduleCount := 0 }
      status := { s.status with verValid := false, cwValid := false } }
    let selected (v : Nat) : State := { s with
      regs := { s.regs with
        version := BitVec.ofNat 6 v
        moduleCount := BitVec.ofNat 8 (4 * v + 17)
        selEc := ec
        dataCw := BitVec.ofNat 12 ((blocks v ec).map (·.2)).sum
        totalCw := BitVec.ofNat 12 ((blocks v ec).map (·.1)).sum
        numBlocks := BitVec.ofNat 7 (blocks v ec).length }
      status := { s.status with verValid := true, cwValid := false } }
    (s.status.segValid = false → exec .selectVersion s = .next (failed lost 0x08 0x31 0x31)) ∧
    (s.status.segValid = true → 40 < fv → exec .selectVersion s = .next (failed lost 0x05 0x31 0x31)) ∧
    (s.status.segValid = true → 1 ≤ fv → fv ≤ 40 → cap fv ec < len →
      exec .selectVersion s = .next (failed lost 0x01 0x31 0x31)) ∧
    (s.status.segValid = true → fv = 0 → (∀ v, 1 ≤ v → v ≤ 40 → cap v ec < len) →
      exec .selectVersion s = .next (failed lost 0x01 0x31 0x31)) ∧
    (s.status.segValid = true → 1 ≤ fv → fv ≤ 40 → len ≤ cap fv ec → exec .selectVersion s = .next (done (selected fv))) ∧
    (∀ v, s.status.segValid = true → fv = 0 → 1 ≤ v → v ≤ 40 → len ≤ cap v ec → (∀ u, 1 ≤ u → u < v → cap u ec < len) →
      exec .selectVersion s = .next (done (selected v)))

/-- R181: from any state whose selection fits its segment, BUILD_CODEWORDS with VER_VALID = 1 completes without
CAPACITY_EXCEEDED: CW holds the T codewords of the stream, BB the 8·D bits of the data; without VER_VALID it is SEQUENCE
and CW_VALID is cleared (R176). -/
def Obligations.BuildCodewordsNeverExceedsCapacity : Prop :=
  ∀ s : State, s.VersionLegal → s.SelectionFits →
    (s.status.verValid = false →
      exec .buildCodewords s = .next (failed { s with status := { s.status with cwValid := false } } 0x08 0x32 0x32)) ∧
    (s.status.verValid = true →
      let v := s.regs.version.toNat
      let seg := (List.range s.regs.segLen.toNat).map s.segAt
      ∃ t bits, exec .buildCodewords s = .next t ∧ bitstream seg v s.regs.dataCw.toNat = some bits ∧
        t = done { s with
          status := { s.status with cwValid := true }
          regs := { s.regs with bbLen := BitVec.ofNat 16 (8 * s.regs.dataCw.toNat) }
          mems := { s.mems with bb := t.mems.bb, cw := t.mems.cw }
          draws := t.draws } ∧
        (∀ i, i < 32768 → t.bbAt i = bits.getD i false) ∧
        ∀ j, j < s.regs.totalCw.toNat →
          t.cwAt j = (codewordStream (packBytes bits s.regs.dataCw.toNat) v s.regs.selEc).getD j 0)

/-- R177: at a version whose capacity the payload fits, the data bits are the mode indicator, the length, the payload, the
whole terminator and pad bytes EC, 11, …, and fill the D data codewords exactly: codeword j is bits 8j..8j+7, most
significant first. -/
def Obligations.BitstreamFillsTheDataCodewords : Prop :=
  ∀ (seg : List Byte) (v : Nat) (ec : BitVec 2), 1 ≤ v → v ≤ 40 → seg.length ≤ cap v ec →
    ∃ bits pads, bitstream seg v (dataCodewords v ec) = some bits ∧ bits.length = 8 * dataCodewords v ec ∧
      bits = [false, true, false, false] ++ fieldBits seg.length (lenBits v) ++ seg.flatMap byteBits ++
        [false, false, false, false] ++ pads ∧
      (∀ j, 8 * j < pads.length → (pads.drop (8 * j)).take 8 = byteBits (if j % 2 = 0 then 0xEC else 0x11)) ∧
      (packBytes bits (dataCodewords v ec)).length = dataCodewords v ec ∧
      ∀ j k, j < dataCodewords v ec → k < 8 →
        ((packBytes bits (dataCodewords v ec)).getD j 0).getLsbD (7 - k) = bits.getD (8 * j + k) false

/-- R178, R180: the interleaved stream of D data codewords has T codewords: first the data codewords, column by column of the
blocks in table order, then the EC codewords in the same order, those of a block rs_ecc of its data. -/
def Obligations.StreamInterleavesTheBlocks : Prop :=
  ∀ (data : List Byte) (v : Nat) (ec : BitVec 2), 1 ≤ v → v ≤ 40 → data.length = dataCodewords v ec →
    (codewordStream data v ec).length = totalCodewords v ec ∧
    ∀ b total count, (blocks v ec)[b]? = some (total, count) →
      let ds := (blocks v ec).map (·.2)
      let block := (data.drop (ds.take b).sum).take count
      (∀ i, i < count → (codewordStream data v ec).getD (dataPosition ds i b) 0 = block.getD i 0) ∧
      ∀ i, i < total - count →
        (codewordStream data v ec).getD (data.length + i * (blocks v ec).length + b) 0 = (rsEcc block (total - count)).getD i 0

/-- R175: CAP is what the block table leaves after the mode and length fields (a), the data region of R211 has room for the T
codewords and for less than one more (b), and every bound of (c) holds. -/
def Obligations.CapacityTableFollowsFromTheBlockTable : Prop :=
  ∀ (v : Nat) (ec : BitVec 2), 1 ≤ v → v ≤ 40 →
    cap v ec = (8 * dataCodewords v ec - 4 - lenBits v) / 8 ∧ (∀ b ∈ blocks v ec, b.2 ≤ 123 ∧ b.1 - b.2 ≤ 30) ∧
      (blocks v ec).length ≤ 81 ∧ totalCodewords v ec ≤ 3706 ∧ totalCodewords v ec = totalCodewords v 0 ∧
      8 * totalCodewords v ec ≤ (dataCells v).length ∧ (dataCells v).length < 8 * totalCodewords v ec + 8

/-! ## Matrix -/

/-- R215(a): a build leaves no cell unset. -/
def Obligations.BuildLeavesNoCellUnset : Prop :=
  ∀ (p : Params) (v ec m : Nat) (cw : List Byte) (test : Bool), 1 ≤ v → v ≤ 40 →
    ∀ r c, r < 4 * v + 17 → c < 4 * v + 17 → (build p v ec cw test m).cell r c ≠ .unset

/-- R208, R209, R210, with the words of R207 and R210: the two copies of the format word and, from version 7 on, of the
version word, all light in a test build; the dark module, light only in a test build with DARK_MODULE_IN_TEST = false. -/
def Obligations.InformationCellsCarryTheirWords : Prop :=
  ∀ (p : Params) (v ec m : Nat) (cw : List Byte) (test : Bool), 1 ≤ v → v ≤ 40 → ec < 4 → m < 8 →
    let n := 4 * v + 17
    let w := build p v ec cw test m
    w.cell (n - 8) 8 = shade (!test || p.darkModuleInTest) ∧
    (∀ i, i < 15 →
      w.cell (if i < 6 then i else if i < 8 then i + 1 else n - 15 + i) 8 =
        shade (!test && (formatWords.getD (8 * ec + m) 0).testBit i) ∧
      w.cell 8 (if i < 8 then n - 1 - i else if i = 8 then 7 else 14 - i) =
        shade (!test && (formatWords.getD (8 * ec + m) 0).testBit i)) ∧
    (7 ≤ v → ∀ i, i < 18 →
      w.cell (i / 3) (n - 11 + i % 3) = shade (!test && (versionWords.getD (v - 7) 0).testBit i) ∧
      w.cell (n - 11 + i % 3) (i / 3) = shade (!test && (versionWords.getD (v - 7) 0).testBit i))

/-- R201, R202, R204, R205: the finder and separator cells, the alignment cells and the timing cells are those of the
patterns, whatever the mask, the level, the codewords and test. -/
def Obligations.FixedPatternsAreMaskInvariant : Prop :=
  ∀ (p : Params) (v ec m : Nat) (cw : List Byte) (test : Bool), 1 ≤ v → v ≤ 40 →
    let n := 4 * v + 17
    let w := build p v ec cw test m
    (∀ i j, i < 8 → j < 8 →
      w.cell i j = finderRing i j ∧ w.cell (n - 8 + i) j = finderRing ((i : Int) - 1) j ∧
        w.cell i (n - 8 + j) = finderRing i ((j : Int) - 1)) ∧
    (∀ a b i j, IsAlignmentCentre v a b → i < 5 → j < 5 → w.cell (a + i - 2) (b + j - 2) = alignmentRing i j) ∧
    ∀ k, 8 ≤ k → k ≤ n - 9 → w.cell k 6 = shade (k % 2 == 0) ∧ w.cell 6 k = shade (k % 2 == 0)

/-- R211, R212, R213: the cells of the data region, in the order of placement, carry the bits of the codewords, most
significant first, inverted where the mask says; the remainder cells are light, or masked with MASK_REMAINDER_BITS = true. -/
def Obligations.DataCellsCarryTheMaskedCodewords : Prop :=
  ∀ (p : Params) (v ec m : Nat) (cw : List Byte) (test : Bool) (k r c : Nat), 1 ≤ v → v ≤ 40 → m < 8 →
    (dataCells v)[k]? = some (r, c) →
    (k < 8 * cw.length → (MaskInverts m r c →
      (build p v ec cw test m).cell r c = shade (!(cw.getD (k / 8) 0).getLsbD (7 - k % 8))) ∧
      (¬ MaskInverts m r c → (build p v ec cw test m).cell r c = shade ((cw.getD (k / 8) 0).getLsbD (7 - k % 8)))) ∧
    (8 * cw.length ≤ k → (MaskInverts m r c → (build p v ec cw test m).cell r c = shade p.maskRemainderBits) ∧
      (¬ MaskInverts m r c → (build p v ec cw test m).cell r c = .light))

/-- R214: WORK[0..n)² holds the build, cells outside are unchanged, WORK_SIZE and WORK_INFO describe it, WORK_VALID is set
and WORK_TEST is TEST; SEQUENCE without CW_VALID. Premise: VERSION is a version, as it is whenever CW_VALID = 1. -/
def Obligations.MatrixBuildFillsWork : Prop :=
  ∀ (mask : BitVec 3) (test : Bool) (s : State),
    (s.status.cwValid = false → exec (.matrixBuild mask test) s = .next (failed s 0x08 0x40 0x40)) ∧
    (s.status.cwValid = true → 1 ≤ s.regs.version.toNat → s.regs.version.toNat ≤ 40 →
      ∃ t, exec (.matrixBuild mask test) s = .next t ∧
        t = done { s with
          status := { s.status with workValid := true, workTest := test }
          regs := { s.regs with
            workSize := BitVec.ofNat 8 (size s)
            workInfo := s.regs.selEc ++ s.regs.version ++ BitVec.ofBool test ++ mask }
          mems := { s.mems with work := t.mems.work } } ∧
        ∀ r c, r < 177 → c < 177 → t.workAt r c =
          if r < size s ∧ c < size s then ((built s test mask.toNat).cell r c).code else s.workAt r c)

/-! ## Penalty and mask search -/

/-- R246: the score of the matrix in WORK; in order SEQUENCE for size 0, BAD_OPERAND for a size that is no 4v + 17,
UNSET_CELL for a cell that is neither light nor dark. -/
def Obligations.PenaltyScoresWork : Prop :=
  ∀ s : State,
    let n := s.regs.workSize.toNat
    let x := score s.params n (workMatrix s n)
    (n = 0 → exec .penalty s = .next (failed s 0x08 0x41 0x41)) ∧
    (n ≠ 0 → (¬ ∃ v, 1 ≤ v ∧ v ≤ 40 ∧ n = 4 * v + 17) → exec .penalty s = .next (failed s 0x05 0x41 0x41)) ∧
    (∀ v, 1 ≤ v → v ≤ 40 → n = 4 * v + 17 →
      (∃ r c, r < n ∧ c < n ∧ s.workAt r c ≠ 0b01 ∧ s.workAt r c ≠ 0b10) → exec .penalty s = .next (failed s 0x09 0x41 0x41)) ∧
    (∀ v, 1 ≤ v → v ≤ 40 → n = 4 * v + 17 → (∀ r c, r < n → c < n → s.workAt r c = 0b01 ∨ s.workAt r c = 0b10) →
      exec .penalty s = .next (done { s with regs := { s.regs with
        penN1 := BitVec.ofNat 32 x.n1
        penN2 := BitVec.ofNat 32 x.n2
        penN3 := BitVec.ofNat 32 x.n3
        penN4 := BitVec.ofNat 32 x.n4
        penTotal := BitVec.ofNat 32 (x.n1 + x.n2 + x.n3 + x.n4) } }))

/-- R245: the bounds of the four components of an n × n matrix with QRIM-CORE's parameters, so that none overflows. -/
def Obligations.PenaltyComponentsAreBounded : Prop :=
  ∀ (n : Nat) (m : List (List Bool)), 21 ≤ n → m.length = n → (∀ row ∈ m, row.length = n) →
    (score Config.params n m).n1 ≤ 2 * n * (n - 2) ∧ (score Config.params n m).n2 ≤ 3 * ((n - 1) * (n - 1)) ∧
      (score Config.params n m).n3 ≤ 40 * (2 * n * (n - 6)) ∧ (score Config.params n m).n4 ≤ 100

/-- R241..R244, for every n × n matrix: N1 adds 3 + (len − RUN_EXCESS_BASE) for every maximal run of len ≥ 5 cells of a line;
N2 is 3 for every pair (r, c) whose 2 × 2 block is of one colour; N3 is 40 for every finder-like core of a line; N4 follows
from the number of dark cells. -/
def Obligations.PenaltyRulesCountTheirPatterns : Prop :=
  ∀ (p : Params) (n : Nat) (m : List (List Bool)), m.length = n → (∀ row ∈ m, row.length = n) →
    (score p n m).n1 = ((lines n m).map fun l => ((List.range n).map fun k => ((List.range (n + 1)).map fun len =>
      if isRun n l k len = true ∧ 5 ≤ len then 3 + (len - p.runExcessBase) else 0).sum).sum).sum ∧
    (score p n m).n2 = 3 * ((List.range (n - 1)).map fun r => ((List.range (n - 1)).filter fun c =>
      decide ((m.getD r []).getD c false = (m.getD (r + 1) []).getD c false) &&
      decide ((m.getD r []).getD c false = (m.getD r []).getD (c + 1) false) &&
      decide ((m.getD r []).getD c false = (m.getD (r + 1) []).getD (c + 1) false)).length).sum ∧
    (score p n m).n3 = 40 * ((lines n m).map fun l => ((List.range (n - 6)).filter (isFinderLike p n l)).length).sum ∧
    (let dark := ((List.range n).map fun r => ((List.range n).filter fun c => (m.getD r []).getD c false).length).sum
      let k : Int := (20 * dark / (n * n) : Nat)
      (score p n m).n4 = 10 * min (k - 10).natAbs (k - 9).natAbs)

/-- R247: the selected mask is the lowest index among those with the minimum total. -/
def Obligations.SelectionIsTheLowestMinimum : Prop :=
  ∀ p : List Nat, p ≠ [] →
    selectMask p < p.length ∧ (∀ m, m < p.length → p.getD (selectMask p) 0 ≤ p.getD m 0) ∧
      ∀ m, m < selectMask p → p.getD (selectMask p) 0 < p.getD m 0

/-- R248: PENALTYm is candidate m's total, BEST_MASK the selection, PEN_* candidate 7's; WORK and GRID hold the real build
of the best mask, committed; SEQUENCE without CW_VALID. Premise: VERSION is a version, as it is whenever CW_VALID = 1. -/
def Obligations.MaskSearchCommitsTheBestBuild : Prop :=
  ∀ s : State,
    (s.status.cwValid = false → exec .maskSearch s = .next (failed s 0x08 0x43 0x43)) ∧
    (s.status.cwValid = true → 1 ≤ s.regs.version.toNat → s.regs.version.toNat ≤ 40 →
      let best := selectMask ((List.range 8).map fun m => (candidateScore s m).total)
      ∃ t, exec .maskSearch s = .next t ∧
        t = done { s with
          status := { s.status with workValid := true, workTest := false, gridValid := true }
          regs := { s.regs with
            bestMask := BitVec.ofNat 3 best
            penalties := t.regs.penalties
            penN1 := BitVec.ofNat 32 (candidateScore s 7).n1
            penN2 := BitVec.ofNat 32 (candidateScore s 7).n2
            penN3 := BitVec.ofNat 32 (candidateScore s 7).n3
            penN4 := BitVec.ofNat 32 (candidateScore s 7).n4
            penTotal := BitVec.ofNat 32 (candidateScore s 7).total
            workSize := BitVec.ofNat 8 (size s)
            workInfo := s.regs.selEc ++ s.regs.version ++ (0 : BitVec 1) ++ BitVec.ofNat 3 best
            gridSize := BitVec.ofNat 8 (size s)
            gridInfo := s.regs.selEc ++ s.regs.version ++ (0 : BitVec 1) ++ BitVec.ofNat 3 best }
          mems := { s.mems with work := t.mems.work, grid := t.mems.grid } } ∧
        (∀ m : Fin 8, t.regs.penalties[m] = BitVec.ofNat 32 (candidateScore s m).total) ∧
        ∀ r c, r < 177 → c < 177 →
          t.workAt r c = (if r < size s ∧ c < size s then ((built s false best).cell r c).code else s.workAt r c) ∧
          t.gridAt r c = if r < size s ∧ c < size s then (built s false best).cell r c == .dark else s.gridAt r c)

/-! ## Control -/

/-- R272: GRID[r][c] <- (WORK[r][c] = dark) for r, c below WORK_SIZE, other modules unchanged; GRID_SIZE, GRID_INFO with bit 3
cleared, GRID_VALID; SEQUENCE unless WORK is an unmodified real build. Premise: WORK_SIZE is at most 177, as it is whenever
WORK_VALID = 1. -/
def Obligations.CommitCopiesTheRealBuild : Prop :=
  ∀ s : State,
    (s.status.workValid = false ∨ s.status.workTest = true → exec .commit s = .next (failed s 0x08 0x42 0x42)) ∧
    (s.status.workValid = true → s.status.workTest = false → s.regs.workSize.toNat ≤ 177 →
      ∃ t, exec .commit s = .next t ∧
        t = done { s with
          status := { s.status with gridValid := true }
          regs := { s.regs with gridSize := s.regs.workSize, gridInfo := s.regs.workInfo &&& ~~~0x008 }
          mems := { s.mems with grid := t.mems.grid } } ∧
        ∀ r c, r < 177 → c < 177 → t.gridAt r c =
          if r < s.regs.workSize.toNat ∧ c < s.regs.workSize.toNat then s.workAt r c == 0b10 else s.gridAt r c)

/-- R273: with a valid text whose payload fits version 40 at the requested level and no forced version, or fits a forced
version, ENCODE completes without an error: every validity flag is set, WORK_TEST is 0, VERSION is the smallest that fits or
the forced one, and the committed symbol has its size, mask and level. TEXT, PA, PB, PR and every host register but
WORK_SIZE, which every build writes, are unchanged. -/
def Obligations.EncodeCommitsASymbolForEveryTextThatFits : Prop :=
  ∀ s : State, s.regs.textLen.toNat ≤ 4096 → (∀ w ∈ text s, IsCodepoint w) →
    (s.regs.forceVersion.toNat = 0 ∧ (payload (text s)).length ≤ cap 40 s.regs.ecLevel) ∨
      (1 ≤ s.regs.forceVersion.toNat ∧ s.regs.forceVersion.toNat ≤ 40 ∧
        (payload (text s)).length ≤ cap s.regs.forceVersion.toNat s.regs.ecLevel) →
    ∃ t, exec .encode s = .next t ∧ t.phase = .idle ∧
      t.status = { s.status with
        done := true, segValid := true, verValid := true, cwValid := true, workValid := true, workTest := false
        gridValid := true } ∧
      t.errcode = s.errcode ∧ t.irqEn = s.irqEn ∧
      1 ≤ t.regs.version.toNat ∧ t.regs.version.toNat ≤ 40 ∧ (payload (text s)).length ≤ cap t.regs.version.toNat s.regs.ecLevel ∧
      (s.regs.forceVersion.toNat = 0 →
        ∀ u, 1 ≤ u → u < t.regs.version.toNat → cap u s.regs.ecLevel < (payload (text s)).length) ∧
      (s.regs.forceVersion.toNat ≠ 0 → t.regs.version = s.regs.forceVersion) ∧
      t.regs.gridSize.toNat = 4 * t.regs.version.toNat + 17 ∧
      t.regs.gridInfo = s.regs.ecLevel ++ t.regs.version ++ (0 : BitVec 1) ++ t.regs.bestMask ∧
      t.mems.text = s.mems.text ∧ t.mems.pa = s.mems.pa ∧ t.mems.pb = s.mems.pb ∧ t.mems.pr = s.mems.pr ∧
      t.regs.textLen = s.regs.textLen ∧ t.regs.ecLevel = s.regs.ecLevel ∧ t.regs.forceVersion = s.regs.forceVersion ∧
      t.regs.opa = s.regs.opa ∧ t.regs.opb = s.regs.opb ∧ t.regs.paLen = s.regs.paLen ∧ t.regs.pbLen = s.regs.pbLen ∧
      t.regs.qrow = s.regs.qrow ∧ t.regs.qcol = s.regs.qcol ∧ t.regs.res = s.regs.res ∧ t.regs.prLen = s.regs.prLen

/-- R273: ENCODE is its four steps. Where each of them, run in turn from a state without ERR, completes without an error,
ENCODE ends in the last one's state; where one fails, ENCODE ends in that step's state with ERRCODE.OP = 0x50 and STEP the
step's opcode. -/
def Obligations.EncodeIsItsFourSteps : Prop :=
  ∀ a b c d e : State, a.status.err = false →
    exec .segLoad a = .next b → exec .selectVersion b = .next c → exec .buildCodewords c = .next d →
    exec .maskSearch d = .next e →
    (b.status.err = true → exec .encode a = .next { b with errcode := ⟨b.errcode.code, 0x50, 0x30⟩ }) ∧
    (b.status.err = false → c.status.err = true → exec .encode a = .next { c with errcode := ⟨c.errcode.code, 0x50, 0x31⟩ }) ∧
    (b.status.err = false → c.status.err = false → d.status.err = true →
      exec .encode a = .next { d with errcode := ⟨d.errcode.code, 0x50, 0x32⟩ }) ∧
    (b.status.err = false → c.status.err = false → d.status.err = false → e.status.err = false →
      exec .encode a = .next e)

/-- R274: RES <- whether the module is dark; SEQUENCE without a committed symbol, then OUT_OF_RANGE outside it, the
coordinates signed; RES unchanged on an error. -/
def Obligations.QueryReadsTheCommittedModule : Prop :=
  ∀ s : State,
    (s.status.gridValid = false → exec .query s = .next (failed s 0x08 0x60 0x60)) ∧
    (s.status.gridValid = true →
      s.regs.qrow.toInt < 0 ∨ (s.regs.gridSize.toNat : Int) ≤ s.regs.qrow.toInt ∨ s.regs.qcol.toInt < 0 ∨
        (s.regs.gridSize.toNat : Int) ≤ s.regs.qcol.toInt → exec .query s = .next (failed s 0x03 0x60 0x60)) ∧
    (s.status.gridValid = true → s.regs.qrow.toNat < s.regs.gridSize.toNat → s.regs.qcol.toNat < s.regs.gridSize.toNat →
      exec .query s = .next (done { s with regs := { s.regs with
        res := (BitVec.ofBool (s.gridAt s.regs.qrow.toNat s.regs.qcol.toNat)).setWidth 32 } }))

/-! ## Whole-machine rules -/

/-- R276: a step leaves GRID, GRID_SIZE, GRID_INFO and GRID_VALID as they are, unless RST is asserted, which returns the last
three to 0, or the engine moves and completes COMMIT, MASK_SEARCH or ENCODE without an error, or SOFT_RESET, which keeps GRID
and returns the other three to 0. No host access and no other command changes the symbol. -/
def Obligations.TheSymbolChangesOnlyAtACommit : Prop :=
  ∀ s t : State, step s = .next t →
    (t.mems.grid = s.mems.grid ∧ t.regs.gridSize = s.regs.gridSize ∧ t.regs.gridInfo = s.regs.gridInfo ∧
      t.status.gridValid = s.status.gridValid) ∨
    ((∃ rest, s.sched = .rst true :: rest) ∧ t.regs.gridSize = 0 ∧ t.regs.gridInfo = 0 ∧ t.status.gridValid = false) ∨
    (∃ w, s.phase = .busy w ∧ (s.sched = [] ∨ ∃ rest, s.sched = .engine :: rest) ∧ t.phase = .idle ∧
      ((t.status.gridValid = true ∧ t.status.err = s.status.err ∧ t.errcode = s.errcode ∧
          (decode w = .ok .commit ∨ decode w = .ok .maskSearch ∨ decode w = .ok .encode)) ∨
        (decode w = .ok .softReset ∧ t.mems.grid = s.mems.grid ∧ t.regs.gridSize = 0 ∧ t.regs.gridInfo = 0 ∧
          t.status.gridValid = false)))

/-- R30, R40..R45, R140, R315: no command writes TEXT, PA, PB, IRQ_EN or, but for SOFT_RESET, a register the host owns; each
internal memory is written only by the commands named for it, and BB_LEN only by those of BB and SOFT_RESET. The model's
choice, not the spec's: that no command changes the parameters (notes/assumptions/15), that SELECT_VERSION leaves CW, its
bytes at TOTAL_CW and above too (notes/assumptions/24), and that SOFT_RESET keeps all of SEG, PR and CW
(notes/assumptions/7). -/
def Obligations.TheEngineNeverWritesAHostInput : Prop :=
  ∀ (i : Instr) (s t : State), exec i s = .next t →
    t.mems.text = s.mems.text ∧ t.mems.pa = s.mems.pa ∧ t.mems.pb = s.mems.pb ∧ t.irqEn = s.irqEn ∧ t.rst = s.rst ∧
      t.params = s.params ∧ t.host = s.host ∧ t.sched = s.sched ∧
      (i ≠ .softReset → t.regs.ecLevel = s.regs.ecLevel ∧ t.regs.forceVersion = s.regs.forceVersion ∧
        t.regs.textLen = s.regs.textLen ∧ t.regs.opa = s.regs.opa ∧ t.regs.opb = s.regs.opb ∧
        t.regs.paLen = s.regs.paLen ∧ t.regs.pbLen = s.regs.pbLen ∧ t.regs.qrow = s.regs.qrow ∧ t.regs.qcol = s.regs.qcol) ∧
      (i ∉ [.polyMul, .polyMod, .rsGenpoly, .rsEcc] → t.mems.pr = s.mems.pr) ∧
      (i ∉ [.bbClear, .bbPut, .buildCodewords, .encode] →
        t.mems.bb = s.mems.bb ∧ (i ≠ .softReset → t.regs.bbLen = s.regs.bbLen)) ∧
      (i ∉ [.segLoad, .encode] → t.mems.seg = s.mems.seg) ∧
      (i ∉ [.buildCodewords, .encode] → t.mems.cw = s.mems.cw) ∧
      (i ∉ [.maskSearch, .encode] → (∀ m test, i ≠ .matrixBuild m test) → t.mems.work = s.mems.work) ∧
      (i ∉ [.commit, .maskSearch, .encode] → t.mems.grid = s.mems.grid)

/-- Every step keeps the machine's invariant: canonical memories, fresh draws, CW_VALID ⇒ VER_VALID ⇒ SEG_VALID (R303), a
legal version (R34, R172), block registers that match the selection and a segment that fits it (R35, R181), lengths inside
their memories, legal sizes (R272), a legal error record (R307) and legal parameters (R8). No step changes the parameters. -/
def Obligations.EveryStepKeepsTheInvariant : Prop :=
  ∀ s t : State, s.Inv → step s = .next t → t.Inv ∧ t.params = s.params

/-- The invariant holds at reset. -/
def Obligations.TheInvariantHoldsAtReset : Prop := State.reset.Inv

/-! ## Windows -/

/-- R52..R56, R46: what a window word shows. TEXT: the code point; SEG, CW, PA, PB, PR: byte j at bits [8(j mod 4)+7:8(j mod 4)] of word
j div 4, 0 past the memory's end; BB: bit i at bit 8·((i div 8) mod 4) + 7 − (i mod 8) of word i div 32; WORK: cell (r, c) at
bits [2(c mod 16)+1:2(c mod 16)] of word r·12 + (c div 16), fields of columns 177 on and words 2124 on 0; EXP and LOG: the
power and the logarithm of α, LOG word 0 all ones. -/
def Obligations.WindowsShowTheirMemories : Prop :=
  ∀ s : State,
    (∀ k, k < 4096 → s.readWindow .text k = s.textAt k) ∧
    (∀ j, j < 4096 →
      byteOf (s.readWindow .seg (j / 4)) (j % 4) = (if j < 2953 then s.segAt j else 0) ∧
      byteOf (s.readWindow .cw (j / 4)) (j % 4) = if j < 3706 then s.cwAt j else 0) ∧
    (∀ j, j < 256 →
      byteOf (s.readWindow .pa (j / 4)) (j % 4) = s.paAt j ∧ byteOf (s.readWindow .pb (j / 4)) (j % 4) = s.pbAt j ∧
      byteOf (s.readWindow .pr (j / 4)) (j % 4) = s.prAt j) ∧
    (∀ i, i < 32768 → (s.readWindow .bb (i / 32)).getLsbD (8 * (i / 8 % 4) + 7 - i % 8) = s.bbAt i) ∧
    (∀ r c, r < 177 → c < 192 →
      (s.readWindow .work (r * 12 + c / 16)).extractLsb' (2 * (c % 16)) 2 = if c < 177 then s.workAt r c else 0) ∧
    (∀ k, 2124 ≤ k → k < 4096 → s.readWindow .work k = 0) ∧
    (∀ i, i < 256 → s.readWindow .expRom i = (alphaPow i).setWidth 32) ∧
    s.readWindow .logRom 0 = 0xFFFFFFFF ∧
    ∀ i, 1 ≤ i → i < 256 →
      ∃ e, e ≤ 254 ∧ alphaPow e = BitVec.ofNat 8 i ∧ s.readWindow .logRom i = BitVec.ofNat 32 e

/-- R52..R54, R56, while IDLE: a write to a TEXT word stores all 32 bits; to a PA or PB word its four coefficients, byte t at
bits [8t+7:8t]; to a WORK word its sixteen cells, those of columns 177 on ignored, and clears WORK_VALID, words 2124 on being
ignored; a write to an RO window is ignored. Nothing else changes. -/
def Obligations.WindowWritesStoreTheirFields : Prop :=
  ∀ (s : State) (k : Nat) (v : Word), s.phase = .idle →
    (k < 4096 → ∃ t, s.busWrite (.word .text k) v = t ∧ t = { s with mems := { s.mems with text := t.mems.text } } ∧
      ∀ j, j < 4096 → t.textAt j = if j = k then v else s.textAt j) ∧
    (k < 64 → ∃ t, s.busWrite (.word .pa k) v = t ∧ t = { s with mems := { s.mems with pa := t.mems.pa } } ∧
      ∀ j, j < 256 → t.paAt j = if 4 * k ≤ j ∧ j < 4 * k + 4 then byteOf v (j - 4 * k) else s.paAt j) ∧
    (k < 64 → ∃ t, s.busWrite (.word .pb k) v = t ∧ t = { s with mems := { s.mems with pb := t.mems.pb } } ∧
      ∀ j, j < 256 → t.pbAt j = if 4 * k ≤ j ∧ j < 4 * k + 4 then byteOf v (j - 4 * k) else s.pbAt j) ∧
    (k < 2124 → ∃ t, s.busWrite (.word .work k) v = t ∧
      t = { s with status := { s.status with workValid := false }, mems := { s.mems with work := t.mems.work } } ∧
      ∀ r c, r < 177 → c < 177 → t.workAt r c =
        if r * 12 + c / 16 = k then v.extractLsb' (2 * (c % 16)) 2 else s.workAt r c) ∧
    (2124 ≤ k → s.busWrite (.word .work k) v = s) ∧
    ∀ w ∈ [Window.seg, Window.bb, Window.cw, Window.pr, Window.grid, Window.expRom, Window.logRom],
      s.busWrite (.word w k) v = s

/-- R19, R26..R31, R36, R38, while IDLE: a write to a register other than CMD and STATUS stores the register's writable bits and
changes no other register; RO registers and reserved bits ignore it; a write to WORK_SIZE clears WORK_VALID. Nothing else
changes. -/
def Obligations.RegisterWritesStoreTheWritableBits : Prop :=
  ∀ (s : State) (r : Reg) (v : Word), s.phase = .idle → r ≠ .cmd → r ≠ .status →
    ∃ t, s.busWrite (.reg r) v = t ∧
      (∀ q, q ≠ .status → t.readReg q = if q = r ∧ storedBits r ≠ 0 then v &&& storedBits r else s.readReg q) ∧
      t = { s with
        irqEn := t.irqEn
        regs := t.regs
        status := { s.status with workValid := s.status.workValid && r != .workSize } }

/-- R57: module (r, c) is bit (c mod 32) of GRID-window word r·6 + (c div 32) while GRID_VALID = 1 and inside GRID_SIZE; every
other bit of those words, columns 177 to 191 included, and words 1062 to 2047 read 0. -/
def Obligations.GridWindowShowsTheSymbol : Prop :=
  ∀ s : State,
    (∀ r c, r < 177 → c < 192 →
      (s.readWindow .grid (r * 6 + c / 32)).getLsbD (c % 32) =
        (s.status.gridValid && decide (c < 177) && decide (r < s.regs.gridSize.toNat) && decide (c < s.regs.gridSize.toNat) &&
          s.gridAt r c)) ∧
    ∀ k, 1062 ≤ k → k < 2048 → s.readWindow .grid k = 0
end

