-- ==== Sys2Proof/Laws/State.lean ====
section
/-! SUPPORT. One lemma per field of the state per update: what each named update writes and what it leaves. -/

namespace Sys2Proof.Machine

section
variable (s : State)


@[simp] theorem State.setRes_params (v : Word) : (s.setRes v).params = s.params := rfl
@[simp] theorem State.setRes_phase (v : Word) : (s.setRes v).phase = s.phase := rfl
@[simp] theorem State.setRes_status (v : Word) : (s.setRes v).status = s.status := rfl
@[simp] theorem State.setRes_errcode (v : Word) : (s.setRes v).errcode = s.errcode := rfl
@[simp] theorem State.setRes_irqEn (v : Word) : (s.setRes v).irqEn = s.irqEn := rfl
@[simp] theorem State.setRes_regs (v : Word) : (s.setRes v).regs = { s.regs with res := v } := rfl
@[simp] theorem State.setRes_mems (v : Word) : (s.setRes v).mems = s.mems := rfl
@[simp] theorem State.setRes_rst (v : Word) : (s.setRes v).rst = s.rst := rfl
@[simp] theorem State.setRes_host (v : Word) : (s.setRes v).host = s.host := rfl
@[simp] theorem State.setRes_sched (v : Word) : (s.setRes v).sched = s.sched := rfl
@[simp] theorem State.setRes_draws (v : Word) : (s.setRes v).draws = s.draws := rfl

@[simp] theorem State.setPr_params (r : List Byte) : (s.setPr r).params = s.params := rfl
@[simp] theorem State.setPr_phase (r : List Byte) : (s.setPr r).phase = s.phase := rfl
@[simp] theorem State.setPr_status (r : List Byte) : (s.setPr r).status = s.status := rfl
@[simp] theorem State.setPr_errcode (r : List Byte) : (s.setPr r).errcode = s.errcode := rfl
@[simp] theorem State.setPr_irqEn (r : List Byte) : (s.setPr r).irqEn = s.irqEn := rfl
@[simp] theorem State.setPr_regs (r : List Byte) :
    (s.setPr r).regs = { s.regs with prLen := BitVec.ofNat 9 r.length } := rfl
@[simp] theorem State.setPr_mems (r : List Byte) :
    (s.setPr r).mems = { s.mems with pr := Mem.renewed Config.polyDepth s.draws r } := rfl
@[simp] theorem State.setPr_rst (r : List Byte) : (s.setPr r).rst = s.rst := rfl
@[simp] theorem State.setPr_host (r : List Byte) : (s.setPr r).host = s.host := rfl
@[simp] theorem State.setPr_sched (r : List Byte) : (s.setPr r).sched = s.sched := rfl
@[simp] theorem State.setPr_draws (r : List Byte) : (s.setPr r).draws = s.draws + 1 := rfl

@[simp] theorem State.accept_params (w : Word) : (s.accept w).params = s.params := rfl
@[simp] theorem State.accept_phase (w : Word) : (s.accept w).phase = .busy w := rfl
@[simp] theorem State.accept_status (w : Word) : (s.accept w).status = { s.status with done := false } := rfl
@[simp] theorem State.accept_errcode (w : Word) : (s.accept w).errcode = s.errcode := rfl
@[simp] theorem State.accept_irqEn (w : Word) : (s.accept w).irqEn = s.irqEn := rfl
@[simp] theorem State.accept_regs (w : Word) : (s.accept w).regs = s.regs := rfl
@[simp] theorem State.accept_mems (w : Word) : (s.accept w).mems = s.mems := rfl
@[simp] theorem State.accept_rst (w : Word) : (s.accept w).rst = s.rst := rfl
@[simp] theorem State.accept_host (w : Word) : (s.accept w).host = s.host := rfl
@[simp] theorem State.accept_sched (w : Word) : (s.accept w).sched = s.sched := rfl
@[simp] theorem State.accept_draws (w : Word) : (s.accept w).draws = s.draws := rfl

@[simp] theorem State.complete_params : s.complete.params = s.params := rfl
@[simp] theorem State.complete_phase : s.complete.phase = .idle := rfl
@[simp] theorem State.complete_status : s.complete.status = { s.status with done := true } := rfl
@[simp] theorem State.complete_errcode : s.complete.errcode = s.errcode := rfl
@[simp] theorem State.complete_irqEn : s.complete.irqEn = s.irqEn := rfl
@[simp] theorem State.complete_regs : s.complete.regs = s.regs := rfl
@[simp] theorem State.complete_mems : s.complete.mems = s.mems := rfl
@[simp] theorem State.complete_rst : s.complete.rst = s.rst := rfl
@[simp] theorem State.complete_host : s.complete.host = s.host := rfl
@[simp] theorem State.complete_sched : s.complete.sched = s.sched := rfl
@[simp] theorem State.complete_draws : s.complete.draws = s.draws := rfl

@[simp] theorem State.raise_params (e : ErrCode) (op step : Byte) : (s.raise e op step).params = s.params := rfl
@[simp] theorem State.raise_phase (e : ErrCode) (op step : Byte) : (s.raise e op step).phase = .idle := rfl
@[simp] theorem State.raise_status (e : ErrCode) (op step : Byte) :
    (s.raise e op step).status = { s.status with done := true, err := true } := rfl
@[simp] theorem State.raise_errcode (e : ErrCode) (op step : Byte) :
    (s.raise e op step).errcode = ⟨e.code, op, step⟩ := rfl
@[simp] theorem State.raise_irqEn (e : ErrCode) (op step : Byte) : (s.raise e op step).irqEn = s.irqEn := rfl
@[simp] theorem State.raise_regs (e : ErrCode) (op step : Byte) : (s.raise e op step).regs = s.regs := rfl
@[simp] theorem State.raise_mems (e : ErrCode) (op step : Byte) : (s.raise e op step).mems = s.mems := rfl
@[simp] theorem State.raise_rst (e : ErrCode) (op step : Byte) : (s.raise e op step).rst = s.rst := rfl
@[simp] theorem State.raise_host (e : ErrCode) (op step : Byte) : (s.raise e op step).host = s.host := rfl
@[simp] theorem State.raise_sched (e : ErrCode) (op step : Byte) : (s.raise e op step).sched = s.sched := rfl
@[simp] theorem State.raise_draws (e : ErrCode) (op step : Byte) : (s.raise e op step).draws = s.draws := rfl

@[simp] theorem State.acknowledge_params (v : Word) : (s.acknowledge v).params = s.params := rfl
@[simp] theorem State.acknowledge_phase (v : Word) : (s.acknowledge v).phase = s.phase := rfl
@[simp] theorem State.acknowledge_status (v : Word) :
    (s.acknowledge v).status = { s.status with done := s.status.done && !v.getLsbD 1, err := s.status.err && !v.getLsbD 2, haz := s.status.haz && !v.getLsbD 3 } := rfl
@[simp] theorem State.acknowledge_errcode (v : Word) : (s.acknowledge v).errcode = s.errcode := rfl
@[simp] theorem State.acknowledge_irqEn (v : Word) : (s.acknowledge v).irqEn = s.irqEn := rfl
@[simp] theorem State.acknowledge_regs (v : Word) : (s.acknowledge v).regs = s.regs := rfl
@[simp] theorem State.acknowledge_mems (v : Word) : (s.acknowledge v).mems = s.mems := rfl
@[simp] theorem State.acknowledge_rst (v : Word) : (s.acknowledge v).rst = s.rst := rfl
@[simp] theorem State.acknowledge_host (v : Word) : (s.acknowledge v).host = s.host := rfl
@[simp] theorem State.acknowledge_sched (v : Word) : (s.acknowledge v).sched = s.sched := rfl
@[simp] theorem State.acknowledge_draws (v : Word) : (s.acknowledge v).draws = s.draws := rfl

@[simp] theorem State.setHaz_params : s.setHaz.params = s.params := rfl
@[simp] theorem State.setHaz_phase : s.setHaz.phase = s.phase := rfl
@[simp] theorem State.setHaz_status : s.setHaz.status = { s.status with haz := true } := rfl
@[simp] theorem State.setHaz_errcode : s.setHaz.errcode = s.errcode := rfl
@[simp] theorem State.setHaz_irqEn : s.setHaz.irqEn = s.irqEn := rfl
@[simp] theorem State.setHaz_regs : s.setHaz.regs = s.regs := rfl
@[simp] theorem State.setHaz_mems : s.setHaz.mems = s.mems := rfl
@[simp] theorem State.setHaz_rst : s.setHaz.rst = s.rst := rfl
@[simp] theorem State.setHaz_host : s.setHaz.host = s.host := rfl
@[simp] theorem State.setHaz_sched : s.setHaz.sched = s.sched := rfl
@[simp] theorem State.setHaz_draws : s.setHaz.draws = s.draws := rfl

@[simp] theorem State.resetRegisters_params : s.resetRegisters.params = s.params := rfl
@[simp] theorem State.resetRegisters_phase : s.resetRegisters.phase = s.phase := rfl
@[simp] theorem State.resetRegisters_status : s.resetRegisters.status = Status.reset := rfl
@[simp] theorem State.resetRegisters_errcode : s.resetRegisters.errcode = ErrRecord.reset := rfl
@[simp] theorem State.resetRegisters_irqEn : s.resetRegisters.irqEn = s.irqEn := rfl
@[simp] theorem State.resetRegisters_regs : s.resetRegisters.regs = Regs.reset := rfl
@[simp] theorem State.resetRegisters_mems : s.resetRegisters.mems = s.mems := rfl
@[simp] theorem State.resetRegisters_rst : s.resetRegisters.rst = s.rst := rfl
@[simp] theorem State.resetRegisters_host : s.resetRegisters.host = s.host := rfl
@[simp] theorem State.resetRegisters_sched : s.resetRegisters.sched = s.sched := rfl
@[simp] theorem State.resetRegisters_draws : s.resetRegisters.draws = s.draws := rfl

@[simp] theorem State.assertReset_params : s.assertReset.params = s.params := rfl
@[simp] theorem State.assertReset_phase : s.assertReset.phase = .idle := rfl
@[simp] theorem State.assertReset_status : s.assertReset.status = Status.reset := rfl
@[simp] theorem State.assertReset_errcode : s.assertReset.errcode = ErrRecord.reset := rfl
@[simp] theorem State.assertReset_irqEn : s.assertReset.irqEn = IrqEnable.reset := rfl
@[simp] theorem State.assertReset_regs : s.assertReset.regs = Regs.reset := rfl
@[simp] theorem State.assertReset_mems : s.assertReset.mems = Mems.fresh s.draws := rfl
@[simp] theorem State.assertReset_rst : s.assertReset.rst = true := rfl
@[simp] theorem State.assertReset_host : s.assertReset.host = s.host := rfl
@[simp] theorem State.assertReset_sched : s.assertReset.sched = s.sched := rfl
@[simp] theorem State.assertReset_draws : s.assertReset.draws = s.draws + 9 := rfl

@[simp] theorem State.releaseReset_params : s.releaseReset.params = s.params := rfl
@[simp] theorem State.releaseReset_phase : s.releaseReset.phase = s.phase := rfl
@[simp] theorem State.releaseReset_status : s.releaseReset.status = s.status := rfl
@[simp] theorem State.releaseReset_errcode : s.releaseReset.errcode = s.errcode := rfl
@[simp] theorem State.releaseReset_irqEn : s.releaseReset.irqEn = s.irqEn := rfl
@[simp] theorem State.releaseReset_regs : s.releaseReset.regs = s.regs := rfl
@[simp] theorem State.releaseReset_mems : s.releaseReset.mems = s.mems := rfl
@[simp] theorem State.releaseReset_rst : s.releaseReset.rst = false := rfl
@[simp] theorem State.releaseReset_host : s.releaseReset.host = s.host := rfl
@[simp] theorem State.releaseReset_sched : s.releaseReset.sched = s.sched := rfl
@[simp] theorem State.releaseReset_draws : s.releaseReset.draws = s.draws := rfl

@[simp] theorem State.clearWorkValid_params : s.clearWorkValid.params = s.params := rfl
@[simp] theorem State.clearWorkValid_phase : s.clearWorkValid.phase = s.phase := rfl
@[simp] theorem State.clearWorkValid_status : s.clearWorkValid.status = { s.status with workValid := false } := rfl
@[simp] theorem State.clearWorkValid_errcode : s.clearWorkValid.errcode = s.errcode := rfl
@[simp] theorem State.clearWorkValid_irqEn : s.clearWorkValid.irqEn = s.irqEn := rfl
@[simp] theorem State.clearWorkValid_regs : s.clearWorkValid.regs = s.regs := rfl
@[simp] theorem State.clearWorkValid_mems : s.clearWorkValid.mems = s.mems := rfl
@[simp] theorem State.clearWorkValid_rst : s.clearWorkValid.rst = s.rst := rfl
@[simp] theorem State.clearWorkValid_host : s.clearWorkValid.host = s.host := rfl
@[simp] theorem State.clearWorkValid_sched : s.clearWorkValid.sched = s.sched := rfl
@[simp] theorem State.clearWorkValid_draws : s.clearWorkValid.draws = s.draws := rfl

@[simp] theorem State.putField_params (value len : Nat) : (s.putField value len).params = s.params := rfl
@[simp] theorem State.putField_phase (value len : Nat) : (s.putField value len).phase = s.phase := rfl
@[simp] theorem State.putField_status (value len : Nat) : (s.putField value len).status = s.status := rfl
@[simp] theorem State.putField_errcode (value len : Nat) : (s.putField value len).errcode = s.errcode := rfl
@[simp] theorem State.putField_irqEn (value len : Nat) : (s.putField value len).irqEn = s.irqEn := rfl
@[simp] theorem State.putField_regs (value len : Nat) :
    (s.putField value len).regs = { s.regs with bbLen := BitVec.ofNat 16 (s.regs.bbLen.toNat + len) } := rfl
@[simp] theorem State.putField_mems (value len : Nat) :
    (s.putField value len).mems =
      { s.mems with
        bb := s.mems.bb.writeBlock Config.bbBits s.regs.bbLen.toNat (fieldBits value len) } := rfl
@[simp] theorem State.putField_rst (value len : Nat) : (s.putField value len).rst = s.rst := rfl
@[simp] theorem State.putField_host (value len : Nat) : (s.putField value len).host = s.host := rfl
@[simp] theorem State.putField_sched (value len : Nat) : (s.putField value len).sched = s.sched := rfl
@[simp] theorem State.putField_draws (value len : Nat) : (s.putField value len).draws = s.draws := rfl

@[simp] theorem State.setBitBuffer_params (bits : List Bool) : (s.setBitBuffer bits).params = s.params := rfl
@[simp] theorem State.setBitBuffer_phase (bits : List Bool) : (s.setBitBuffer bits).phase = s.phase := rfl
@[simp] theorem State.setBitBuffer_status (bits : List Bool) : (s.setBitBuffer bits).status = s.status := rfl
@[simp] theorem State.setBitBuffer_errcode (bits : List Bool) : (s.setBitBuffer bits).errcode = s.errcode := rfl
@[simp] theorem State.setBitBuffer_irqEn (bits : List Bool) : (s.setBitBuffer bits).irqEn = s.irqEn := rfl
@[simp] theorem State.setBitBuffer_regs (bits : List Bool) :
    (s.setBitBuffer bits).regs = { s.regs with bbLen := BitVec.ofNat 16 bits.length } := rfl
@[simp] theorem State.setBitBuffer_mems (bits : List Bool) :
    (s.setBitBuffer bits).mems = { s.mems with bb := s.mems.bb.writeBlock Config.bbBits 0 (bits ++ List.replicate (Config.bbBits - bits.length) false) } := rfl
@[simp] theorem State.setBitBuffer_rst (bits : List Bool) : (s.setBitBuffer bits).rst = s.rst := rfl
@[simp] theorem State.setBitBuffer_host (bits : List Bool) : (s.setBitBuffer bits).host = s.host := rfl
@[simp] theorem State.setBitBuffer_sched (bits : List Bool) : (s.setBitBuffer bits).sched = s.sched := rfl
@[simp] theorem State.setBitBuffer_draws (bits : List Bool) : (s.setBitBuffer bits).draws = s.draws := rfl

@[simp] theorem State.setSegment_params (b : List Byte) : (s.setSegment b).params = s.params := rfl
@[simp] theorem State.setSegment_phase (b : List Byte) : (s.setSegment b).phase = s.phase := rfl
@[simp] theorem State.setSegment_status (b : List Byte) : (s.setSegment b).status = s.status.segmentLoaded := rfl
@[simp] theorem State.setSegment_errcode (b : List Byte) : (s.setSegment b).errcode = s.errcode := rfl
@[simp] theorem State.setSegment_irqEn (b : List Byte) : (s.setSegment b).irqEn = s.irqEn := rfl
@[simp] theorem State.setSegment_regs (b : List Byte) :
    (s.setSegment b).regs = { s.regs with segLen := BitVec.ofNat 12 b.length } := rfl
@[simp] theorem State.setSegment_mems (b : List Byte) :
    (s.setSegment b).mems = { s.mems with seg := Mem.renewed Config.segDepth s.draws b } := rfl
@[simp] theorem State.setSegment_rst (b : List Byte) : (s.setSegment b).rst = s.rst := rfl
@[simp] theorem State.setSegment_host (b : List Byte) : (s.setSegment b).host = s.host := rfl
@[simp] theorem State.setSegment_sched (b : List Byte) : (s.setSegment b).sched = s.sched := rfl
@[simp] theorem State.setSegment_draws (b : List Byte) : (s.setSegment b).draws = s.draws + 1 := rfl

@[simp] theorem State.loseSegment_params : s.loseSegment.params = s.params := rfl
@[simp] theorem State.loseSegment_phase : s.loseSegment.phase = s.phase := rfl
@[simp] theorem State.loseSegment_status : s.loseSegment.status = s.status.segmentLost := rfl
@[simp] theorem State.loseSegment_errcode : s.loseSegment.errcode = s.errcode := rfl
@[simp] theorem State.loseSegment_irqEn : s.loseSegment.irqEn = s.irqEn := rfl
@[simp] theorem State.loseSegment_regs : s.loseSegment.regs = s.regs := rfl
@[simp] theorem State.loseSegment_mems : s.loseSegment.mems = s.mems := rfl
@[simp] theorem State.loseSegment_rst : s.loseSegment.rst = s.rst := rfl
@[simp] theorem State.loseSegment_host : s.loseSegment.host = s.host := rfl
@[simp] theorem State.loseSegment_sched : s.loseSegment.sched = s.sched := rfl
@[simp] theorem State.loseSegment_draws : s.loseSegment.draws = s.draws := rfl

@[simp] theorem State.loseVersion_params : s.loseVersion.params = s.params := rfl
@[simp] theorem State.loseVersion_phase : s.loseVersion.phase = s.phase := rfl
@[simp] theorem State.loseVersion_status : s.loseVersion.status = s.status.versionLost := rfl
@[simp] theorem State.loseVersion_errcode : s.loseVersion.errcode = s.errcode := rfl
@[simp] theorem State.loseVersion_irqEn : s.loseVersion.irqEn = s.irqEn := rfl
@[simp] theorem State.loseVersion_regs : s.loseVersion.regs = { s.regs with version := 0, moduleCount := 0 } := rfl
@[simp] theorem State.loseVersion_mems : s.loseVersion.mems = s.mems := rfl
@[simp] theorem State.loseVersion_rst : s.loseVersion.rst = s.rst := rfl
@[simp] theorem State.loseVersion_host : s.loseVersion.host = s.host := rfl
@[simp] theorem State.loseVersion_sched : s.loseVersion.sched = s.sched := rfl
@[simp] theorem State.loseVersion_draws : s.loseVersion.draws = s.draws := rfl

@[simp] theorem State.setCodewords_params (stream : List Byte) : (s.setCodewords stream).params = s.params := rfl
@[simp] theorem State.setCodewords_phase (stream : List Byte) : (s.setCodewords stream).phase = s.phase := rfl
@[simp] theorem State.setCodewords_status (stream : List Byte) :
    (s.setCodewords stream).status = { s.status with cwValid := true } := rfl
@[simp] theorem State.setCodewords_errcode (stream : List Byte) : (s.setCodewords stream).errcode = s.errcode := rfl
@[simp] theorem State.setCodewords_irqEn (stream : List Byte) : (s.setCodewords stream).irqEn = s.irqEn := rfl
@[simp] theorem State.setCodewords_regs (stream : List Byte) : (s.setCodewords stream).regs = s.regs := rfl
@[simp] theorem State.setCodewords_mems (stream : List Byte) :
    (s.setCodewords stream).mems = { s.mems with cw := Mem.renewed Config.cwDepth s.draws stream } := rfl
@[simp] theorem State.setCodewords_rst (stream : List Byte) : (s.setCodewords stream).rst = s.rst := rfl
@[simp] theorem State.setCodewords_host (stream : List Byte) : (s.setCodewords stream).host = s.host := rfl
@[simp] theorem State.setCodewords_sched (stream : List Byte) : (s.setCodewords stream).sched = s.sched := rfl
@[simp] theorem State.setCodewords_draws (stream : List Byte) : (s.setCodewords stream).draws = s.draws + 1 := rfl

@[simp] theorem State.loseCodewords_params : s.loseCodewords.params = s.params := rfl
@[simp] theorem State.loseCodewords_phase : s.loseCodewords.phase = s.phase := rfl
@[simp] theorem State.loseCodewords_status : s.loseCodewords.status = { s.status with cwValid := false } := rfl
@[simp] theorem State.loseCodewords_errcode : s.loseCodewords.errcode = s.errcode := rfl
@[simp] theorem State.loseCodewords_irqEn : s.loseCodewords.irqEn = s.irqEn := rfl
@[simp] theorem State.loseCodewords_regs : s.loseCodewords.regs = s.regs := rfl
@[simp] theorem State.loseCodewords_mems : s.loseCodewords.mems = s.mems := rfl
@[simp] theorem State.loseCodewords_rst : s.loseCodewords.rst = s.rst := rfl
@[simp] theorem State.loseCodewords_host : s.loseCodewords.host = s.host := rfl
@[simp] theorem State.loseCodewords_sched : s.loseCodewords.sched = s.sched := rfl
@[simp] theorem State.loseCodewords_draws : s.loseCodewords.draws = s.draws := rfl

@[simp] theorem State.goTo_params (line : Nat) : (s.goTo line).params = s.params := rfl
@[simp] theorem State.goTo_phase (line : Nat) : (s.goTo line).phase = s.phase := rfl
@[simp] theorem State.goTo_status (line : Nat) : (s.goTo line).status = s.status := rfl
@[simp] theorem State.goTo_errcode (line : Nat) : (s.goTo line).errcode = s.errcode := rfl
@[simp] theorem State.goTo_irqEn (line : Nat) : (s.goTo line).irqEn = s.irqEn := rfl
@[simp] theorem State.goTo_regs (line : Nat) : (s.goTo line).regs = s.regs := rfl
@[simp] theorem State.goTo_mems (line : Nat) : (s.goTo line).mems = s.mems := rfl
@[simp] theorem State.goTo_rst (line : Nat) : (s.goTo line).rst = s.rst := rfl
@[simp] theorem State.goTo_host (line : Nat) : (s.goTo line).host = { s.host with line := line } := rfl
@[simp] theorem State.goTo_sched (line : Nat) : (s.goTo line).sched = s.sched := rfl
@[simp] theorem State.goTo_draws (line : Nat) : (s.goTo line).draws = s.draws := rfl

@[simp] theorem State.nextLine_params : s.nextLine.params = s.params := rfl
@[simp] theorem State.nextLine_phase : s.nextLine.phase = s.phase := rfl
@[simp] theorem State.nextLine_status : s.nextLine.status = s.status := rfl
@[simp] theorem State.nextLine_errcode : s.nextLine.errcode = s.errcode := rfl
@[simp] theorem State.nextLine_irqEn : s.nextLine.irqEn = s.irqEn := rfl
@[simp] theorem State.nextLine_regs : s.nextLine.regs = s.regs := rfl
@[simp] theorem State.nextLine_mems : s.nextLine.mems = s.mems := rfl
@[simp] theorem State.nextLine_rst : s.nextLine.rst = s.rst := rfl
@[simp] theorem State.nextLine_host : s.nextLine.host = { s.host with line := s.host.line + 1 } := rfl
@[simp] theorem State.nextLine_sched : s.nextLine.sched = s.sched := rfl
@[simp] theorem State.nextLine_draws : s.nextLine.draws = s.draws := rfl

@[simp] theorem State.setVersion_params (v : Nat) (ec : BitVec 2) : (s.setVersion v ec).params = s.params := rfl
@[simp] theorem State.setVersion_phase (v : Nat) (ec : BitVec 2) : (s.setVersion v ec).phase = s.phase := rfl
@[simp] theorem State.setVersion_status (v : Nat) (ec : BitVec 2) : (s.setVersion v ec).status = s.status.versionSelected := rfl
@[simp] theorem State.setVersion_errcode (v : Nat) (ec : BitVec 2) : (s.setVersion v ec).errcode = s.errcode := rfl
@[simp] theorem State.setVersion_irqEn (v : Nat) (ec : BitVec 2) : (s.setVersion v ec).irqEn = s.irqEn := rfl
@[simp] theorem State.setVersion_mems (v : Nat) (ec : BitVec 2) : (s.setVersion v ec).mems = s.mems := rfl
@[simp] theorem State.setVersion_rst (v : Nat) (ec : BitVec 2) : (s.setVersion v ec).rst = s.rst := rfl
@[simp] theorem State.setVersion_host (v : Nat) (ec : BitVec 2) : (s.setVersion v ec).host = s.host := rfl
@[simp] theorem State.setVersion_sched (v : Nat) (ec : BitVec 2) : (s.setVersion v ec).sched = s.sched := rfl
@[simp] theorem State.setVersion_draws (v : Nat) (ec : BitVec 2) : (s.setVersion v ec).draws = s.draws := rfl

@[simp] theorem State.setScore_params (x : Score) : (s.setScore x).params = s.params := rfl
@[simp] theorem State.setScore_phase (x : Score) : (s.setScore x).phase = s.phase := rfl
@[simp] theorem State.setScore_status (x : Score) : (s.setScore x).status = s.status := rfl
@[simp] theorem State.setScore_errcode (x : Score) : (s.setScore x).errcode = s.errcode := rfl
@[simp] theorem State.setScore_irqEn (x : Score) : (s.setScore x).irqEn = s.irqEn := rfl
@[simp] theorem State.setScore_mems (x : Score) : (s.setScore x).mems = s.mems := rfl
@[simp] theorem State.setScore_rst (x : Score) : (s.setScore x).rst = s.rst := rfl
@[simp] theorem State.setScore_host (x : Score) : (s.setScore x).host = s.host := rfl
@[simp] theorem State.setScore_sched (x : Score) : (s.setScore x).sched = s.sched := rfl
@[simp] theorem State.setScore_draws (x : Score) : (s.setScore x).draws = s.draws := rfl

@[simp] theorem State.recordSearch_params : s.recordSearch.params = s.params := rfl
@[simp] theorem State.recordSearch_phase : s.recordSearch.phase = s.phase := rfl
@[simp] theorem State.recordSearch_status : s.recordSearch.status = s.status := rfl
@[simp] theorem State.recordSearch_errcode : s.recordSearch.errcode = s.errcode := rfl
@[simp] theorem State.recordSearch_irqEn : s.recordSearch.irqEn = s.irqEn := rfl
@[simp] theorem State.recordSearch_mems : s.recordSearch.mems = s.mems := rfl
@[simp] theorem State.recordSearch_rst : s.recordSearch.rst = s.rst := rfl
@[simp] theorem State.recordSearch_host : s.recordSearch.host = s.host := rfl
@[simp] theorem State.recordSearch_sched : s.recordSearch.sched = s.sched := rfl
@[simp] theorem State.recordSearch_draws : s.recordSearch.draws = s.draws := rfl

@[simp] theorem State.name_params (x : Option Nat) (v : Word) : (s.name x v).params = s.params := by cases x <;> rfl
@[simp] theorem State.name_phase (x : Option Nat) (v : Word) : (s.name x v).phase = s.phase := by cases x <;> rfl
@[simp] theorem State.name_status (x : Option Nat) (v : Word) : (s.name x v).status = s.status := by cases x <;> rfl
@[simp] theorem State.name_errcode (x : Option Nat) (v : Word) : (s.name x v).errcode = s.errcode := by cases x <;> rfl
@[simp] theorem State.name_irqEn (x : Option Nat) (v : Word) : (s.name x v).irqEn = s.irqEn := by cases x <;> rfl
@[simp] theorem State.name_regs (x : Option Nat) (v : Word) : (s.name x v).regs = s.regs := by cases x <;> rfl
@[simp] theorem State.name_mems (x : Option Nat) (v : Word) : (s.name x v).mems = s.mems := by cases x <;> rfl
@[simp] theorem State.name_rst (x : Option Nat) (v : Word) : (s.name x v).rst = s.rst := by cases x <;> rfl
@[simp] theorem State.name_sched (x : Option Nat) (v : Word) : (s.name x v).sched = s.sched := by cases x <;> rfl
@[simp] theorem State.name_draws (x : Option Nat) (v : Word) : (s.name x v).draws = s.draws := by cases x <;> rfl

end

end Sys2Proof.Machine
end

