-- ==== Sys2Proof/Laws/Lifecycle.lean ====
section
/-! SUPPORT. What a completion, a host turn and a step can do. -/

namespace Sys2Proof.Machine

@[simp] theorem finish_ok (op : Byte) (s : State) : finish op (.ok s) = .next s.complete := rfl

@[simp] theorem finish_raise (op : Byte) (e : ErrCode) (s : State) : finish op (.raise e s) = .next (s.raise e op op) := rfl

theorem ErrCode.code_range (e : ErrCode) : 1 ≤ e.code.toNat ∧ e.code.toNat ≤ 0x0A := by cases e <;> decide

/-- A completion answers a next state, IDLE and DONE, whatever the command. -/
theorem finish_next (op : Byte) (r : Result) :
    ∃ t, finish op r = .next t ∧
      ((∃ s, r = .ok s ∧ t = s.complete) ∨ ∃ e s, r = .raise e s ∧ t = s.raise e op op) := by
  cases r with
  | ok s => exact ⟨_, rfl, .inl ⟨s, rfl, rfl⟩⟩
  | raise e s => exact ⟨_, rfl, .inr ⟨e, s, rfl, rfl⟩⟩

theorem Phase.cases (p : Phase) : p = .idle ∨ ∃ w, p = .busy w := by
  cases p with
  | idle => exact .inl rfl
  | busy w => exact .inr ⟨w, rfl⟩

/-- The move of a state with no turn scheduled. -/
theorem nextMove_default (s : State) (h : s.sched = []) : s.nextMove = s.defaultMove := by
  simp [State.nextMove, h]

/-- The move of a state with a turn scheduled. -/
theorem nextMove_turn (s : State) (t : Turn) (rest : List Turn) (h : s.sched = t :: rest) :
    s.nextMove = { s with sched := rest }.takeTurn t := by
  simp [State.nextMove, h]

/-- The engine to move in `s`, with the state it moves from: `s` less the turn taken. -/
def EngineMoves (s : State) (w : Word) (u : State) : Prop :=
  s.phase = .busy w ∧ ((s.sched = [] ∧ u = s) ∨ ∃ rest, s.sched = .engine :: rest ∧ u = { s with sched := rest })

/-- Everything a step can come to. -/
theorem step_cases (s : State) (o : Host.Outcome State Fault Refusal) (h : step s = o) :
    (∃ w u, EngineMoves s w u ∧ o = runWord w u) ∨
    (∃ u t, (u = s ∨ ∃ rest, s.sched = .host :: rest ∧ u = { s with sched := rest }) ∧ u.hostTurn = .moved t ∧ o = .next t) ∨
    (∃ u r, (u = s ∨ ∃ rest, s.sched = .host :: rest ∧ u = { s with sched := rest }) ∧ u.hostTurn = .refused r ∧
      o = .refused r) ∨
    (s.phase = .idle ∧ s.sched = [] ∧ ∃ why, s.hostTurn = .stuck why ∧ o = .fault (.hostStuck why)) ∨
    (o = .next s ∨ ∃ t rest, s.sched = t :: rest ∧ o = .next { s with sched := rest }) ∨
    (∃ rest, s.sched = .rst true :: rest ∧ o = .next (State.assertReset { s with sched := rest })) ∨
    (∃ rest, s.sched = .rst false :: rest ∧ o = .next (State.releaseReset { s with sched := rest })) := by
  subst h
  unfold step
  cases hs : s.sched with
  | nil =>
    rw [nextMove_default s hs]
    unfold State.defaultMove
    cases hp : s.phase with
    | busy w => exact .inl ⟨w, s, ⟨hp, .inl ⟨hs, rfl⟩⟩, rfl⟩
    | idle =>
      cases ht : s.hostTurn with
      | moved t => exact .inr (.inl ⟨s, t, .inl rfl, ht, rfl⟩)
      | stuck why => exact .inr (.inr (.inr (.inl ⟨rfl, rfl, why, rfl, rfl⟩)))
      | ended => exact .inr (.inr (.inr (.inr (.inl (.inl rfl)))))
      | refused r => exact .inr (.inr (.inl ⟨s, r, .inl rfl, ht, rfl⟩))
  | cons turn rest =>
    rw [nextMove_turn s turn rest hs]
    have skip : ∀ o : Host.Outcome State Fault Refusal, o = .next { s with sched := rest } →
        (o = .next s ∨ ∃ t rest', turn :: rest = t :: rest' ∧ o = .next { s with sched := rest' }) :=
      fun o h => .inr ⟨turn, rest, rfl, h⟩
    cases turn with
    | host =>
      cases ht : ({ s with sched := rest } : State).hostTurn with
      | moved t => exact .inr (.inl ⟨_, t, .inr ⟨rest, rfl, rfl⟩, ht, by simp [State.takeTurn, ht]⟩)
      | stuck why => exact .inr (.inr (.inr (.inr (.inl (skip _ (by simp [State.takeTurn, ht]))))))
      | ended => exact .inr (.inr (.inr (.inr (.inl (skip _ (by simp [State.takeTurn, ht]))))))
      | refused r => exact .inr (.inr (.inl ⟨_, r, .inr ⟨rest, rfl, rfl⟩, ht, by simp [State.takeTurn, ht]⟩))
    | engine =>
      obtain hp | ⟨w, hp⟩ := s.phase.cases
      · have hm : ({ s with sched := rest } : State).takeTurn .engine = .settled (.next { s with sched := rest }) := by
          simp [State.takeTurn, hp]
        rw [hm]; exact .inr (.inr (.inr (.inr (.inl (skip _ rfl)))))
      · exact .inl ⟨w, _, ⟨hp, .inr ⟨rest, hs, rfl⟩⟩, by simp [State.takeTurn, hp]⟩
    | rst b =>
      cases b with
      | true => exact .inr (.inr (.inr (.inr (.inr (.inl ⟨rest, rfl, rfl⟩)))))
      | false => exact .inr (.inr (.inr (.inr (.inr (.inr ⟨rest, rfl, rfl⟩)))))

/-- A word in flight is a command's, or completes with ILLEGAL_COMMAND. -/
theorem runWord_cases (w : Word) (s : State) :
    (∃ i, decode w = .ok i ∧ runWord w s = exec i s) ∨
      ((∀ i, decode w ≠ .ok i) ∧ runWord w s = .next (s.raise .illegalCommand (opField w) (opField w))) := by
  unfold runWord
  cases h : decode w with
  | ok i => exact .inl ⟨i, rfl, rfl⟩
  | error r => exact .inr ⟨by simp, rfl⟩

/-- Everything a line of the host that executes can do: an admitted read or write, or a move within its program. -/
theorem hostTurn_moved (s t : State) (h : s.hostTurn = .moved t) :
    (∃ p line named, s.rst = false ∧ t = { (s.busRead p).2 with host := { s.host with line := line, named := named } }) ∨
    (∃ p v line, s.rst = false ∧ t = { s.busWrite p v with host := { (s.busWrite p v).host with line := line } }) ∨
    (∃ host, t = { s with host := host }) := by
  have access : ∀ a name, s.access a name = .moved t →
      (∃ p line named, s.rst = false ∧ t = { (s.busRead p).2 with host := { s.host with line := line, named := named } }) ∨
      (∃ p v line, s.rst = false ∧ t = { s.busWrite p v with host := { (s.busWrite p v).host with line := line } }) ∨
      (∃ host, t = { s with host := host }) := by
    intro a name h
    unfold State.access at h
    have hr : ∀ p, s.admission a = .ok p → s.rst = false := by
      intro p hp
      cases hrst : s.rst with
      | false => rfl
      | true => simp [State.admission, hrst] at hp
    split at h
    · cases h
    · rename_i p hp
      cases a with
      | read size addr =>
        injection h with h; subst h
        refine .inl ⟨p, s.host.line + 1, (((s.busRead p).2.name name (s.busRead p).1).host.named), hr p hp, ?_⟩
        have hh : (s.busRead p).2.host = s.host := by unfold State.busRead; split <;> rfl
        cases name <;> simp [State.nextLine, State.goTo, State.name, hh]
      | write size addr v =>
        injection h with h; subst h
        exact .inr (.inl ⟨p, v, _, hr p hp, rfl⟩)
  unfold State.hostTurn at h
  split at h
  · cases h
  · rename_i l _
    cases l with
    | wr target v =>
      simp only [State.hostLine, State.writeTarget] at h
      split at h
      · exact access _ _ h
      · cases h
    | rd target name =>
      simp only [State.hostLine, State.readTarget] at h
      split at h
      · exact access _ _ h
      · cases h
    | command i =>
      simp only [State.hostLine, State.writeTarget] at h
      split at h
      · exact access _ _ h
      · cases h
    | br name bit value label =>
      simp only [State.hostLine] at h
      split at h
      · cases h
      · injection h with h; subst h
        refine .inr (.inr ⟨?_, ?_⟩)
        · rename_i v _; exact { s.host with line := if v.getLsbD bit.val = value then label else s.host.line + 1 }
        · split <;> rfl
    | expect name value =>
      simp only [State.hostLine] at h
      split at h
      · cases h
      · injection h with h; subst h; exact .inr (.inr ⟨_, rfl⟩)
    | bus a => exact access _ _ h

end Sys2Proof.Machine
end

