-- ==== Sys2Proof/Laws/Memory.lean ====
section
/-! SUPPORT. What a read sees after a write, and that every memory operation keeps the canonical form. -/

namespace Sys2Proof.Machine

section
variable {α : Type}

/-! ## Cells -/

theorem findCell_append (l m : List (Nat × α)) (i : Nat) :
    findCell (l ++ m) i = (findCell l i).or (findCell m i) := by
  induction l with
  | nil => simp [findCell]
  | cons c l ih =>
    obtain ⟨k, v⟩ := c
    by_cases h : k = i <;> simp [findCell, h, ih]

theorem findCell_putCell (l : List (Nat × α)) (i j : Nat) (v : α) :
    findCell (putCell l i v) j = if i = j then some v else findCell l j := by
  induction l with
  | nil => simp [putCell, findCell]
  | cons c l ih =>
    obtain ⟨k, w⟩ := c
    by_cases h1 : i < k
    · simp [putCell, h1, findCell]
    · by_cases h2 : i = k
      · subst h2
        by_cases h3 : i = j <;> simp [putCell, findCell, h3]
      · by_cases h3 : k = j
        · subst h3; simp [putCell, h1, h2, findCell]
        · simp [putCell, h1, h2, findCell, h3, ih]

theorem findCell_filter_of (l : List (Nat × α)) (p : Nat → Bool) (i : Nat) (h : p i = true) :
    findCell (l.filter fun c => p c.1) i = findCell l i := by
  induction l with
  | nil => rfl
  | cons c l ih =>
    obtain ⟨k, v⟩ := c
    by_cases hk : k = i
    · subst hk; simp [h, findCell]
    · by_cases hp : p k = true <;> simp [hp, findCell, hk, ih]

theorem findCell_filter_not (l : List (Nat × α)) (p : Nat → Bool) (i : Nat) (h : p i = false) :
    findCell (l.filter fun c => p c.1) i = none := by
  induction l with
  | nil => rfl
  | cons c l ih =>
    obtain ⟨k, v⟩ := c
    by_cases hk : k = i
    · subst hk; simp [h, ih]
    · by_cases hp : p k = true <;> simp [hp, findCell, hk, ih]

theorem findCell_numbered (vs : List α) (start i : Nat) :
    findCell (numbered start vs) i = if start ≤ i then vs[i - start]? else none := by
  induction vs generalizing start with
  | nil => simp [numbered, findCell]
  | cons v vs ih =>
    by_cases h : start = i
    · simp [numbered, findCell, h]
    · by_cases h2 : start ≤ i
      · have : i - start = (i - (start + 1)) + 1 := by omega
        simp [numbered, findCell, h, ih, h2, show start + 1 ≤ i by omega, this]
      · simp [numbered, findCell, h, ih, h2, show ¬ start + 1 ≤ i by omega]

/-! ## Reads -/

theorem Mem.read_write (free : Nat → Nat → α) (depth : Nat) (m : Mem α) (i j : Nat) (v : α) :
    (m.write depth i v).read free j = if i = j ∧ i < depth then v else m.read free j := by
  by_cases hd : i < depth
  · by_cases h : i = j
    · subst h; simp [Mem.write, hd, Mem.read, findCell_putCell]
    · simp [Mem.write, hd, Mem.read, findCell_putCell, h]
  · simp [Mem.write, hd]

theorem Mem.read_renewed (free : Nat → Nat → α) (depth epoch : Nat) (vs : List α) (i : Nat) :
    (Mem.renewed depth epoch vs).read free i = if i < depth then vs.getD i (free epoch i) else free epoch i := by
  by_cases h : i < depth
  · simp [Mem.renewed, Mem.read, findCell_numbered, h, List.getElem?_take_of_lt]
  · have : (vs.take depth)[i]? = none := by simp; omega
    simp [Mem.renewed, Mem.read, findCell_numbered, h, this]

theorem Mem.read_writeBlock (free : Nat → Nat → α) (depth : Nat) (m : Mem α) (start i : Nat) (vs : List α) (hi : i < depth) :
    (m.writeBlock depth start vs).read free i =
      if start ≤ i then vs.getD (i - start) (m.read free i) else m.read free i := by
  simp only [Mem.writeBlock, Mem.read, findCell_append, findCell_numbered]
  by_cases h1 : start ≤ i
  · rw [findCell_filter_not m.cells (fun k => decide (k < start)) i (by simp; omega)]
    by_cases h2 : i - start < vs.length
    · simp [h1, List.getElem?_take_of_lt (show i - start < depth - start by omega), h2]
    · rw [findCell_filter_of m.cells (fun k => decide (start + vs.length ≤ k)) i (by simp; omega)]
      have : (vs.take (depth - start))[i - start]? = none := by simp; omega
      have h3 : vs[i - start]? = none := by simp; omega
      simp [h1, this, h3]
  · rw [findCell_filter_of m.cells (fun k => decide (k < start)) i (by simp; omega)]
    rw [findCell_filter_not m.cells (fun k => decide (start + vs.length ≤ k)) i (by simp; omega)]
    simp [h1]

theorem Mem.read_writeBlock_inside (free : Nat → Nat → α) (depth : Nat) (m : Mem α) (start i : Nat) (vs : List α)
    (hi : i < depth) (h : start ≤ i) (hv : i - start < vs.length) :
    (m.writeBlock depth start vs).read free i = vs[i - start] := by
  rw [Mem.read_writeBlock free depth m start i vs hi, if_pos h, List.getD_eq_getElem?_getD,
    List.getElem?_eq_getElem hv, Option.getD_some]

theorem Mem.read_writeBlock_outside (free : Nat → Nat → α) (depth : Nat) (m : Mem α) (start i : Nat) (vs : List α)
    (hi : i < depth) (h : i < start ∨ start + vs.length ≤ i) : (m.writeBlock depth start vs).read free i = m.read free i := by
  rw [Mem.read_writeBlock free depth m start i vs hi]
  split
  · rw [List.getD_eq_getElem?_getD, List.getElem?_eq_none (by omega), Option.getD_none]
  · rfl

theorem Mem.length_readBlock (free : Nat → Nat → α) (m : Mem α) (start len : Nat) :
    (m.readBlock free start len).length = len := by simp [Mem.readBlock]

theorem Mem.getElem_readBlock (free : Nat → Nat → α) (m : Mem α) (start len j : Nat)
    (h : j < (m.readBlock free start len).length) : (m.readBlock free start len)[j] = m.read free (start + j) := by
  simp [Mem.readBlock]

/-- WORK and GRID rows: row i, column j reads the row written, where rows are at most MAX_N long. -/
theorem Mem.read_writeRows (free : Nat → Nat → α) (rows : List (List α)) (m : Mem α) (r i j : Nat)
    (hrows : ∀ row ∈ rows, row.length ≤ Config.maxN) (hi : i < Config.maxN) (hj : j < Config.maxN) :
    (m.writeRows r rows).read free (cellIndex i j) =
      if r ≤ i then (rows.getD (i - r) []).getD j (m.read free (cellIndex i j)) else m.read free (cellIndex i j) := by
  induction rows generalizing m r with
  | nil => simp [Mem.writeRows]
  | cons row rows ih =>
    have hrow : row.length ≤ 177 := hrows row (by simp)
    simp only [Config.maxN] at hi hj
    have hlt : cellIndex i j < Config.cellCount := by simp only [cellIndex, Config.maxN, Config.cellCount]; omega
    have ih' := ih (m.writeBlock Config.cellCount (cellIndex r 0) row) (r + 1) (fun x hx => hrows x (by simp [hx]))
    simp only [Mem.writeRows, ih', Mem.read_writeBlock free Config.cellCount m (cellIndex r 0) (cellIndex i j) row hlt]
    by_cases h1 : r = i
    · subst h1
      simp [cellIndex, show ¬ r + 1 ≤ r by omega]
    · by_cases h2 : r ≤ i
      · have h3 : i - r = (i - (r + 1)) + 1 := by omega
        have h4 : row.length ≤ cellIndex i j - cellIndex r 0 := by simp only [cellIndex, Config.maxN]; omega
        have h5 : row[cellIndex i j - cellIndex r 0]? = none := by simp [h4]
        have h6 : cellIndex r 0 ≤ cellIndex i j := by simp only [cellIndex, Config.maxN]; omega
        simp [h2, show r + 1 ≤ i by omega, h3, h5]
      · have h6 : ¬ cellIndex r 0 ≤ cellIndex i j := by simp only [cellIndex, Config.maxN]; omega
        simp [h2, show ¬ r + 1 ≤ i by omega, h6]

/-! ## The canonical form -/

theorem cellsWithin_mono {lo lo' hi : Nat} {l : List (Nat × α)} (h : cellsWithin lo hi l = true) (hl : lo' ≤ lo) :
    cellsWithin lo' hi l = true := by
  cases l with
  | nil => rfl
  | cons c l =>
    obtain ⟨k, v⟩ := c
    simp only [cellsWithin, Bool.and_eq_true, decide_eq_true_eq] at *
    exact ⟨⟨by omega, h.1.2⟩, h.2⟩

theorem cellsWithin_putCell {lo hi i : Nat} {v : α} {l : List (Nat × α)} (h : cellsWithin lo hi l = true) (h1 : lo ≤ i)
    (h2 : i < hi) : cellsWithin lo hi (putCell l i v) = true := by
  induction l generalizing lo with
  | nil => simp [putCell, cellsWithin, h1, h2]
  | cons c l ih =>
    obtain ⟨k, w⟩ := c
    simp only [cellsWithin, Bool.and_eq_true, decide_eq_true_eq] at h
    by_cases h3 : i < k
    · simp [putCell, h3, cellsWithin, h1, h2, h.1.2, h.2] <;> omega
    · by_cases h4 : i = k
      · subst h4; simp [putCell, cellsWithin, h1, h2, h.2]
      · simp [putCell, h3, h4, cellsWithin, h.1.1, h.1.2, ih h.2 (by omega)]

theorem cellsWithin_append {lo mid hi : Nat} {l m : List (Nat × α)} (h1 : cellsWithin lo mid l = true)
    (h2 : cellsWithin mid hi m = true) (hlo : lo ≤ mid) (hhi : mid ≤ hi) : cellsWithin lo hi (l ++ m) = true := by
  induction l generalizing lo with
  | nil => exact cellsWithin_mono h2 hlo
  | cons c l ih =>
    obtain ⟨k, v⟩ := c
    simp only [cellsWithin, Bool.and_eq_true, decide_eq_true_eq, List.cons_append] at *
    exact ⟨⟨h1.1.1, by omega⟩, ih h1.2 (by omega)⟩

theorem cellsWithin_numbered (vs : List α) (start hi : Nat) (h : start + vs.length ≤ hi) :
    cellsWithin start hi (numbered start vs) = true := by
  induction vs generalizing start with
  | nil => rfl
  | cons v vs ih =>
    simp only [List.length_cons] at h
    simp [numbered, cellsWithin, ih (start + 1) (by omega)]; omega

theorem cellsWithin_filter_lt {lo hi b : Nat} {l : List (Nat × α)} (h : cellsWithin lo hi l = true) :
    cellsWithin lo b (l.filter fun c => decide (c.1 < b)) = true := by
  induction l generalizing lo with
  | nil => rfl
  | cons c l ih =>
    obtain ⟨k, v⟩ := c
    simp only [cellsWithin, Bool.and_eq_true, decide_eq_true_eq] at h
    by_cases hk : k < b
    · simp [hk, cellsWithin, h.1.1, ih h.2]
    · simp only [List.filter_cons, hk]; exact cellsWithin_mono (ih h.2) (by omega)

theorem cellsWithin_filter_ge {lo hi b : Nat} {l : List (Nat × α)} (h : cellsWithin lo hi l = true) :
    cellsWithin b hi (l.filter fun c => decide (b ≤ c.1)) = true := by
  suffices ∀ lo, cellsWithin lo hi l = true → cellsWithin (max lo b) hi (l.filter fun c => decide (b ≤ c.1)) = true from
    cellsWithin_mono (this lo h) (by omega)
  clear h
  induction l with
  | nil => intros; rfl
  | cons c l ih =>
    intro lo h
    obtain ⟨k, v⟩ := c
    simp only [cellsWithin, Bool.and_eq_true, decide_eq_true_eq] at h
    by_cases hk : b ≤ k
    · have := ih _ h.2
      simp only [List.filter_cons, hk, decide_true, if_true, cellsWithin, Bool.and_eq_true, decide_eq_true_eq]
      exact ⟨⟨by omega, h.1.2⟩, cellsWithin_mono this (by omega)⟩
    · simp only [List.filter_cons, hk]; exact cellsWithin_mono (ih _ h.2) (by omega)

theorem Mem.wf_write {depth : Nat} {m : Mem α} (i : Nat) (v : α) (h : m.wf depth = true) :
    (m.write depth i v).wf depth = true := by
  by_cases hd : i < depth
  · simp only [Mem.wf, Mem.write, if_pos hd] at *
    exact cellsWithin_putCell h (by omega) hd
  · simpa [Mem.write, hd] using h

theorem Mem.wf_writeBlock {depth : Nat} {m : Mem α} (start : Nat) (vs : List α) (h : m.wf depth = true) :
    (m.writeBlock depth start vs).wf depth = true := by
  simp only [Mem.wf, Mem.writeBlock] at *
  by_cases hd : start + vs.length ≤ depth
  · have h2 : vs.take (depth - start) = vs := List.take_of_length_le (by omega)
    rw [h2]
    exact cellsWithin_append (cellsWithin_append (cellsWithin_filter_lt h)
      (cellsWithin_numbered vs start _ (Nat.le_refl _)) (by omega) (by omega)) (cellsWithin_filter_ge h) (by omega) hd
  · have h3 : cellsWithin depth depth (m.cells.filter fun c => decide (start + vs.length ≤ c.1)) = true :=
      cellsWithin_mono (cellsWithin_filter_ge h) (by omega)
    by_cases hs : start ≤ depth
    · exact cellsWithin_append (cellsWithin_append (cellsWithin_filter_lt h)
        (cellsWithin_numbered _ start depth (by simp; omega)) (by omega) hs) h3 (by omega) (Nat.le_refl _)
    · have h4 : vs.take (depth - start) = [] := by simp; omega
      have h5 : cellsWithin 0 depth (m.cells.filter fun c => decide (c.1 < start)) = true := by
        have : m.cells.filter (fun c => decide (c.1 < start)) = m.cells := by
          apply List.filter_eq_self.2
          have key : ∀ (l : List (Nat × α)) (lo : Nat), cellsWithin lo depth l = true → ∀ c ∈ l, c.1 < depth := by
            intro l
            induction l with
            | nil => simp
            | cons c l ih =>
              intro lo hl
              obtain ⟨k, v⟩ := c
              simp only [cellsWithin, Bool.and_eq_true, decide_eq_true_eq] at hl
              intro c hc
              rcases List.mem_cons.1 hc with rfl | hc
              · exact hl.1.2
              · exact ih _ hl.2 c hc
          intro c hc
          have := key _ _ h c hc
          simp; omega
        rw [this]; exact h
      rw [h4]
      simpa [numbered] using cellsWithin_append h5 h3 (by omega) (Nat.le_refl _)

theorem Mem.wf_renewed (depth epoch : Nat) (vs : List α) : (Mem.renewed depth epoch vs).wf depth = true := by
  simp only [Mem.wf, Mem.renewed]
  exact cellsWithin_numbered _ 0 depth (by simp <;> omega)

theorem Mem.wf_writeRows {m : Mem α} (r : Nat) (rows : List (List α)) (h : m.wf Config.cellCount = true) :
    (m.writeRows r rows).wf Config.cellCount = true := by
  induction rows generalizing m r with
  | nil => exact h
  | cons row rows ih => exact ih (r + 1) (Mem.wf_writeBlock _ _ h)

@[simp] theorem Mem.epoch_write (depth : Nat) (m : Mem α) (i : Nat) (v : α) : (m.write depth i v).epoch = m.epoch := by
  by_cases h : i < depth <;> simp [Mem.write, h]

@[simp] theorem Mem.epoch_writeBlock (depth : Nat) (m : Mem α) (start : Nat) (vs : List α) :
    (m.writeBlock depth start vs).epoch = m.epoch := rfl

@[simp] theorem Mem.epoch_writeRows (m : Mem α) (r : Nat) (rows : List (List α)) : (m.writeRows r rows).epoch = m.epoch := by
  induction rows generalizing m r with
  | nil => rfl
  | cons row rows ih => simp [Mem.writeRows, ih]

end

theorem Mems.wf_iff (m : Mems) :
    m.wf = true ↔ m.text.wf Config.textDepth = true ∧ m.seg.wf Config.segDepth = true ∧ m.bb.wf Config.bbBits = true ∧
      m.cw.wf Config.cwDepth = true ∧ m.pa.wf Config.polyDepth = true ∧ m.pb.wf Config.polyDepth = true ∧
      m.pr.wf Config.polyDepth = true ∧ m.work.wf Config.cellCount = true ∧ m.grid.wf Config.cellCount = true := by
  simp [Mems.wf, and_assoc]

/-- Giving one memory the next draw keeps the draws apart: entry `i` of the epochs becomes `d`, which none was. -/
theorem epochs_renew (l : List Nat) (d i : Nat) (hn : l.Nodup) (hl : ∀ e ∈ l, e < d) :
    (l.set i d).Nodup ∧ ∀ e ∈ l.set i d, e < d + 1 := by
  have hmem : ∀ (l : List Nat) (i : Nat), (∀ e ∈ l, e < d) → ∀ e ∈ l.set i d, e = d ∨ e ∈ l := by
    intro l i _ e he
    rcases List.mem_or_eq_of_mem_set he with h | h
    · exact .inr h
    · exact .inl h
  refine ⟨?_, fun e he => ?_⟩
  · induction l generalizing i with
    | nil => simp
    | cons x l ih =>
      obtain ⟨hx, hn'⟩ := List.nodup_cons.1 hn
      have hl' : ∀ e ∈ l, e < d := fun e he => hl e (by simp [he])
      cases i with
      | zero =>
        refine List.nodup_cons.2 ⟨fun h => ?_, hn'⟩
        exact absurd (hl' d h) (Nat.lt_irrefl d)
      | succ i =>
        refine List.nodup_cons.2 ⟨fun h => ?_, ih i hn' hl'⟩
        rcases hmem l i hl' x h with h | h
        · exact absurd (hl x (by simp)) (by omega)
        · exact hx h
  · rcases hmem l i hl e he with h | h
    · omega
    · exact Nat.lt_succ_of_lt (hl e h)

theorem Mems.wf_fresh (d : Nat) : (Mems.fresh d).wf = true := rfl

end Sys2Proof.Machine
end

