-- ==== Sys2Proof/Laws/Bus.lean ====
section
/-! SUPPORT. What a bus read and a bus write can change, and packed words field by field. -/

namespace Sys2Proof.Machine

/-- All a read can change is the count of free draws (R60, R306). -/
theorem busRead_snd (s : State) (p : Place) :
    (s.busRead p).2 = s ∨ (s.busRead p).2 = { s with draws := s.draws + 1 } := by
  unfold State.busRead
  split
  · exact .inr rfl
  · exact .inl rfl

/-- A write while BUSY to anything but IRQ_EN only sets HAZ (R305). -/
theorem busWrite_busy (s : State) (p : Place) (v : Word) (h : s.phase.isBusy = true) (hp : p ≠ .reg .irqEn) :
    s.busWrite p v = s.setHaz := by
  simp [State.busWrite, h, hp]

theorem busWrite_idle_reg (s : State) (r : Reg) (v : Word) (h : s.phase = .idle) :
    s.busWrite (.reg r) v = s.writeReg r v := by
  simp [State.busWrite, h, Phase.isBusy]

theorem busWrite_idle_word (s : State) (w : Window) (k : Nat) (v : Word) (h : s.phase = .idle) :
    s.busWrite (.word w k) v = s.writeWindow w k v := by
  simp [State.busWrite, h, Phase.isBusy]

/-- What a write leaves: everything the engine owns. It may clear WORK_VALID, never set it, and where WORK_VALID stays, so do
WORK and WORK_SIZE (R36, R56). -/
structure WriteLeaves (s t : State) : Prop where
  regs : t.regs =
    { s.regs with
      ecLevel := t.regs.ecLevel
      forceVersion := t.regs.forceVersion
      textLen := t.regs.textLen
      opa := t.regs.opa
      opb := t.regs.opb
      paLen := t.regs.paLen
      pbLen := t.regs.pbLen
      workSize := t.regs.workSize
      qrow := t.regs.qrow
      qcol := t.regs.qcol }
  mems : t.mems = { s.mems with text := t.mems.text, pa := t.mems.pa, pb := t.mems.pb, work := t.mems.work }
  epochs : t.mems.epochs = s.mems.epochs
  wf : s.mems.wf = true → t.mems.wf = true
  status : t.status =
    { s.status with
      done := t.status.done
      err := t.status.err
      haz := t.status.haz
      workValid := t.status.workValid }
  work : t.status.workValid = true →
    s.status.workValid = true ∧ t.regs.workSize = s.regs.workSize ∧ t.mems.work = s.mems.work
  errcode : t.errcode = s.errcode
  rst : t.rst = s.rst
  host : t.host = s.host
  sched : t.sched = s.sched
  draws : t.draws = s.draws
  params : t.params = s.params

theorem WriteLeaves.refl (s : State) : WriteLeaves s s :=
  ⟨rfl, rfl, rfl, id, rfl, fun h => ⟨h, rfl, rfl⟩, rfl, rfl, rfl, rfl, rfl, rfl⟩

theorem writeReg_leaves (s : State) (r : Reg) (v : Word) : WriteLeaves s (s.writeReg r v) := by
  cases r
  case cmd =>
    simp only [State.writeReg, State.writeCmd]
    split
    · exact ⟨rfl, rfl, rfl, id, rfl, fun h => ⟨h, rfl, rfl⟩, rfl, rfl, rfl, rfl, rfl, rfl⟩
    · exact ⟨rfl, rfl, rfl, id, rfl, fun h => ⟨h, rfl, rfl⟩, rfl, rfl, rfl, rfl, rfl, rfl⟩
  case workSize => exact ⟨rfl, rfl, rfl, id, rfl, fun h => absurd h (by simp [State.writeReg]), rfl, rfl, rfl, rfl, rfl, rfl⟩
  all_goals exact ⟨rfl, rfl, rfl, id, rfl, fun h => ⟨h, rfl, rfl⟩, rfl, rfl, rfl, rfl, rfl, rfl⟩

theorem writeWindow_leaves (s : State) (w : Window) (k : Nat) (v : Word) : WriteLeaves s (s.writeWindow w k v) := by
  cases w
  case text =>
    refine ⟨rfl, rfl, ?_, ?_, rfl, fun h => ⟨h, rfl, rfl⟩, rfl, rfl, rfl, rfl, rfl, rfl⟩
    · simp [State.writeWindow, Mems.epochs]
    · intro h
      simp only [State.writeWindow, Mems.wf, Bool.and_eq_true] at *
      obtain ⟨⟨⟨⟨⟨⟨⟨⟨h1, h2⟩, h3⟩, h4⟩, h5⟩, h6⟩, h7⟩, h8⟩, h9⟩ := h
      exact ⟨⟨⟨⟨⟨⟨⟨⟨Mem.wf_write _ _ h1, h2⟩, h3⟩, h4⟩, h5⟩, h6⟩, h7⟩, h8⟩, h9⟩
  case pa =>
    refine ⟨rfl, rfl, ?_, ?_, rfl, fun h => ⟨h, rfl, rfl⟩, rfl, rfl, rfl, rfl, rfl, rfl⟩
    · simp [State.writeWindow, Mems.epochs]
    · intro h
      simp only [State.writeWindow, Mems.wf, Bool.and_eq_true] at *
      obtain ⟨⟨⟨⟨⟨⟨⟨⟨h1, h2⟩, h3⟩, h4⟩, h5⟩, h6⟩, h7⟩, h8⟩, h9⟩ := h
      exact ⟨⟨⟨⟨⟨⟨⟨⟨h1, h2⟩, h3⟩, h4⟩, Mem.wf_writeBlock _ _ h5⟩, h6⟩, h7⟩, h8⟩, h9⟩
  case pb =>
    refine ⟨rfl, rfl, ?_, ?_, rfl, fun h => ⟨h, rfl, rfl⟩, rfl, rfl, rfl, rfl, rfl, rfl⟩
    · simp [State.writeWindow, Mems.epochs]
    · intro h
      simp only [State.writeWindow, Mems.wf, Bool.and_eq_true] at *
      obtain ⟨⟨⟨⟨⟨⟨⟨⟨h1, h2⟩, h3⟩, h4⟩, h5⟩, h6⟩, h7⟩, h8⟩, h9⟩ := h
      exact ⟨⟨⟨⟨⟨⟨⟨⟨h1, h2⟩, h3⟩, h4⟩, h5⟩, Mem.wf_writeBlock _ _ h6⟩, h7⟩, h8⟩, h9⟩
  case work =>
    simp only [State.writeWindow, State.writeWork]
    split
    · exact WriteLeaves.refl s
    · refine ⟨rfl, rfl, ?_, ?_, rfl, fun h => absurd h (by simp), rfl, rfl, rfl, rfl, rfl, rfl⟩
      · simp [Mems.epochs]
      · intro h
        simp only [State.clearWorkValid_mems, Mems.wf, Bool.and_eq_true] at *
        obtain ⟨⟨⟨⟨⟨⟨⟨⟨h1, h2⟩, h3⟩, h4⟩, h5⟩, h6⟩, h7⟩, h8⟩, h9⟩ := h
        exact ⟨⟨⟨⟨⟨⟨⟨⟨h1, h2⟩, h3⟩, h4⟩, h5⟩, h6⟩, h7⟩, Mem.wf_writeBlock _ _ h8⟩, h9⟩
  all_goals exact WriteLeaves.refl s

theorem busWrite_leaves (s : State) (p : Place) (v : Word) : WriteLeaves s (s.busWrite p v) := by
  unfold State.busWrite
  split
  · exact ⟨rfl, rfl, rfl, id, rfl, fun h => ⟨h, rfl, rfl⟩, rfl, rfl, rfl, rfl, rfl, rfl⟩
  · cases p with
    | reg r => exact writeReg_leaves s r v
    | word w k => exact writeWindow_leaves s w k v

/-! ## Packed words -/

theorem getLsbD_packWord (b0 b1 b2 b3 : Byte) (i : Nat) :
    (packWord b0 b1 b2 b3).getLsbD i =
      if i < 8 then b0.getLsbD i else if i < 16 then b1.getLsbD (i - 8) else if i < 24 then b2.getLsbD (i - 16)
      else b3.getLsbD (i - 24) := by
  simp only [packWord, BitVec.getLsbD_append]
  by_cases h1 : i < 8
  · simp [h1]
  · by_cases h2 : i < 16
    · simp [h1, h2, show i - 8 < 8 by omega]
    · have e1 : i - 8 - 8 = i - 16 := by omega
      have e2 : i - 16 - 8 = i - 24 := by omega
      by_cases h3 : i < 24
      · simp only [h1, h2, h3, show ¬ i - 8 < 8 by omega, e1, show i - 16 < 8 by omega, if_true, if_false]
      · simp only [h1, h2, h3, show ¬ i - 8 < 8 by omega, e1, show ¬ i - 16 < 8 by omega, e2, if_false]

/-- Bit b of a packed word is bit b mod w of field b / w (R56, R57). -/
theorem getLsbD_packFields (w count : Nat) (field : Nat → BitVec w) (hw : 0 < w) (b : Nat) (hb : b < 32) :
    (packFields w count field).getLsbD b = (decide (b / w < count) && (field (b / w)).getLsbD (b % w)) := by
  unfold packFields
  induction count with
  | zero => simp
  | succ n ih =>
    rw [List.range_succ, List.foldl_append, List.foldl_cons, List.foldl_nil, BitVec.getLsbD_or, ih, BitVec.getLsbD_shiftLeft,
      BitVec.getLsbD_setWidth]
    have hdm := Nat.div_add_mod b w
    have hmod := Nat.mod_lt b hw
    by_cases h1 : b / w = n
    · subst h1
      have h2 : ¬ b < w * (b / w) := by omega
      have h3 : b - w * (b / w) = b % w := by omega
      simp [h2, h3, hb]
      intro; omega
    · by_cases h2 : b / w < n
      · have h3 : b < w * n := by
          calc b < w * (b / w) + w := by omega
            _ = w * (b / w + 1) := by rw [Nat.mul_add, Nat.mul_one]
            _ ≤ w * n := Nat.mul_le_mul_left w h2
        simp [h2, h3, show b / w < n + 1 by omega]
      · have h3 : ¬ b / w < n + 1 := by omega
        have h4 : w * n + w ≤ b := by
          calc w * n + w = w * (n + 1) := by rw [Nat.mul_add, Nat.mul_one]
            _ ≤ w * (b / w) := Nat.mul_le_mul_left w (by omega)
            _ ≤ b := by omega
        have h5 : (field n).getLsbD (b - w * n) = false := BitVec.getLsbD_of_ge _ _ (by omega)
        simp [h2, h3, h5]

end Sys2Proof.Machine
end

