-- ==== Sys2Proof/Laws/Commands.lean ====
section
/-! SUPPORT. How the pseudocode of each command can end: with the state it completes, or with an error and the state it
leaves. Citing these, a proof about all commands need not unfold one. -/

namespace Sys2Proof.Machine

/-- WORK_INFO.TEST, bit 3, is the build's TEST (R36). -/
theorem getLsbD_packInfo (mask : BitVec 3) (test : Bool) (version : BitVec 6) (ec : BitVec 2) :
    (packInfo mask test version ec).getLsbD 3 = test := by
  simp only [packInfo, BitVec.getLsbD_append]
  cases test <;> rfl

/-- GRID_INFO's bit 3 is 0 (R37). -/
theorem getLsbD_gridInfoOf (x : BitVec 12) : (gridInfoOf x).getLsbD 3 = false := by
  simp only [gridInfoOf, BitVec.getLsbD_and]
  rw [show (0xFF7 : BitVec 12).getLsbD 3 = false from rfl, Bool.and_false]

/-- 4v + 17 is a legal size for each version (R246). -/
theorem isModuleCount_of {v : Nat} (h1 : 1 ≤ v) (h2 : v ≤ 40) : isModuleCount (moduleCountOf v) = true := by
  simp only [isModuleCount, List.any_eq_true, List.mem_range]
  exact ⟨v - 1, by omega, by simp [show v - 1 + 1 = v by omega]⟩

variable (s : State)

theorem gfLog_cases : (∃ v, gfLog s = .ok (s.setRes v)) ∨ ∃ e, gfLog s = .raise e s := by
  unfold gfLog
  split
  · exact .inr ⟨_, rfl⟩
  · split
    · exact .inr ⟨_, rfl⟩
    · exact .inl ⟨_, rfl⟩

theorem gfMul_cases : (∃ v, gfMul s = .ok (s.setRes v)) ∨ ∃ e, gfMul s = .raise e s := by
  unfold gfMul
  split
  · exact .inl ⟨_, rfl⟩
  · exact .inr ⟨_, rfl⟩

/-- The operands PA and PB that a polynomial command has are at most POLY_DEPTH long. -/
theorem paOperand_some {p : List Byte} (h : s.paOperand = some p) : p.length = s.regs.paLen.toNat ∧ p.length ≤ 256 := by
  unfold State.paOperand at h
  split at h
  · injection h with h; subst h; simp only [Mem.length_readBlock]; exact ⟨trivial, by assumption⟩
  · cases h

theorem pbOperand_some {p : List Byte} (h : s.pbOperand = some p) : p.length = s.regs.pbLen.toNat ∧ p.length ≤ 256 := by
  unfold State.pbOperand at h
  split at h
  · injection h with h; subst h; simp only [Mem.length_readBlock]; exact ⟨trivial, by assumption⟩
  · cases h

theorem textOperand_some {t : List Word} (h : s.textOperand = some t) :
    t.length = s.regs.textLen.toNat ∧ t.length ≤ 4096 := by
  unfold State.textOperand at h
  split at h
  · injection h with h; subst h; simp only [Mem.length_readBlock]; exact ⟨trivial, by assumption⟩
  · cases h

theorem bbPut_cases :
    (s.regs.bbLen.toNat + s.regs.opb.toNat ≤ 32768 ∧ bbPut s = .ok (s.putField s.regs.opa.toNat s.regs.opb.toNat)) ∨
      ∃ e, bbPut s = .raise e s := by
  unfold bbPut uint
  split
  · exact .inr ⟨_, rfl⟩
  · split
    · exact .inr ⟨_, rfl⟩
    · rename_i h; simp only [Config.bbBits] at h; exact .inl ⟨by omega, rfl⟩

theorem bbGet_cases : (∃ v, bbGet s = .ok (s.setRes v)) ∨ ∃ e, bbGet s = .raise e s := by
  unfold bbGet
  split
  · exact .inr ⟨_, rfl⟩
  · exact .inl ⟨_, rfl⟩

theorem segLoad_cases :
    (∃ b : List Byte, b.length ≤ 2953 ∧ segLoad s = .ok (s.setSegment b)) ∨ (∃ e, segLoad s = .raise e s.loseSegment) ∨
      ∃ e k, segLoad s = .raise e (s.loseSegment.setRes k) := by
  unfold segLoad
  split
  · exact .inr (.inl ⟨_, rfl⟩)
  · split
    · exact .inr (.inr ⟨_, _, rfl⟩)
    · split
      · exact .inr (.inl ⟨_, rfl⟩)
      · rename_i h; simp only [Config.segDepth] at h; exact .inl ⟨_, by omega, rfl⟩

theorem buildCodewords_cases :
    (∃ bits, s.status.verValid = true ∧
      bitstream s.segOperand s.regs.version.toNat s.regs.dataCw.toNat = some bits ∧
      buildCodewords s = .ok ((s.setBitBuffer bits).setCodewords
        (codewordStream (packBytes bits s.regs.dataCw.toNat) s.regs.version.toNat s.regs.selEc))) ∨
      ∃ e, buildCodewords s = .raise e s.loseCodewords := by
  unfold buildCodewords
  split
  · exact .inr ⟨_, rfl⟩
  · rename_i hv
    split
    · exact .inr ⟨_, rfl⟩
    · rename_i bits h; exact .inl ⟨bits, by simpa using hv, h, rfl⟩

theorem buildCodewords_ok {bits : List Bool} (h : s.status.verValid = true)
    (hb : bitstream s.segOperand s.regs.version.toNat s.regs.dataCw.toNat = some bits) :
    buildCodewords s = .ok ((s.setBitBuffer bits).setCodewords
      (codewordStream (packBytes bits s.regs.dataCw.toNat) s.regs.version.toNat s.regs.selEc)) := by
  simp [buildCodewords, h, hb]

theorem matrixBuild_ok (mask : BitVec 3) (test : Bool) (h : s.status.cwValid = true) :
    matrixBuild mask test s = .ok
      { s with
        regs :=
          { s.regs with
            workSize := BitVec.ofNat 8 (moduleCountOf s.regs.version.toNat)
            workInfo := packInfo mask test s.regs.version s.regs.selEc }
        mems := { s.mems with work := s.mems.work.writeRows 0 ((s.buildMatrix test mask).map (·.map Cell.code)) }
        status := s.status.workBuilt test } := by
  simp [matrixBuild, h]

theorem matrixBuild_raise (mask : BitVec 3) (test : Bool) (h : s.status.cwValid = false) :
    matrixBuild mask test s = .raise .sequence s := by
  simp [matrixBuild, h]

theorem penaltyCmd_cases : (∃ x, penaltyCmd s = .ok (s.setScore x)) ∨ ∃ e, penaltyCmd s = .raise e s := by
  unfold penaltyCmd
  simp only
  split
  · exact .inr ⟨_, rfl⟩
  · split
    · exact .inr ⟨_, rfl⟩
    · split
      · exact .inr ⟨_, rfl⟩
      · exact .inl ⟨_, rfl⟩

theorem commitCmd_ok (h : s.status.workValid = true) (ht : s.status.workTest = false) :
    commitCmd s = .ok
      { s with
        regs := { s.regs with gridSize := s.regs.workSize, gridInfo := gridInfoOf s.regs.workInfo }
        mems :=
          { s.mems with
            grid := s.mems.grid.writeRows 0 ((s.workOperand s.regs.workSize.toNat).map (·.map fun c => Cell.ofCode c == .dark)) }
        status := { s.status with gridValid := true } } := by
  simp [commitCmd, h, ht]

theorem commitCmd_raise (h : s.status.workValid = false ∨ s.status.workTest = true) :
    commitCmd s = .raise .sequence s := by
  simp [commitCmd, h]

/-- A mask search records its search, then builds and commits; the steps inside it cannot fail (R248). -/
theorem maskSearch_ok (h : s.status.cwValid = true) :
    ∃ b u, matrixBuild s.recordSearch.regs.bestMask false s.recordSearch = .ok b ∧ commitCmd b = .ok u ∧
      maskSearch s = .ok u := by
  have h' : s.recordSearch.status.cwValid = true := h
  refine ⟨_, _, matrixBuild_ok s.recordSearch _ false h', commitCmd_ok _ rfl rfl, ?_⟩
  simp [maskSearch, h, matrixBuild_ok s.recordSearch _ false h', commitCmd_ok, Status.workBuilt]

/-- What a mask search writes, but for the contents of WORK and GRID and the penalties (R248). -/
theorem maskSearch_effect (h : s.status.cwValid = true) :
    ∃ u, maskSearch s = .ok u ∧
      u = { s with
        status := { s.status with workValid := true, workTest := false, gridValid := true }
        regs :=
          { s.regs with
            bestMask := u.regs.bestMask
            penalties := u.regs.penalties
            penTotal := u.regs.penTotal
            penN1 := u.regs.penN1
            penN2 := u.regs.penN2
            penN3 := u.regs.penN3
            penN4 := u.regs.penN4
            workSize := BitVec.ofNat 8 (moduleCountOf s.regs.version.toNat)
            workInfo := packInfo u.regs.bestMask false s.regs.version s.regs.selEc
            gridSize := BitVec.ofNat 8 (moduleCountOf s.regs.version.toNat)
            gridInfo := gridInfoOf (packInfo u.regs.bestMask false s.regs.version s.regs.selEc) }
        mems := { s.mems with work := u.mems.work, grid := u.mems.grid } } := by
  obtain ⟨b, u, h1, h2, h3⟩ := maskSearch_ok s h
  rw [matrixBuild_ok s.recordSearch _ false h] at h1
  injection h1 with h1
  subst h1
  rw [commitCmd_ok _ rfl rfl] at h2
  injection h2 with h2
  subst h2
  exact ⟨_, h3, rfl⟩

theorem maskSearch_raise (h : s.status.cwValid = false) : maskSearch s = .raise .sequence s := by
  simp [maskSearch, h]

theorem queryCmd_cases : (∃ v, queryCmd s = .ok (s.setRes v)) ∨ ∃ e, queryCmd s = .raise e s := by
  unfold queryCmd
  simp only
  split
  · exact .inr ⟨_, rfl⟩
  · split
    · exact .inr ⟨_, rfl⟩
    · exact .inl ⟨_, rfl⟩

/-! ## All commands -/

/-- A command's pseudocode; ENCODE, which is four of them, apart. -/
def resultOf (i : Instr) (s : State) : Result :=
  match i with
  | .nop => .ok s
  | .softReset => .ok s.resetRegisters
  | .gfExp => gfExp s
  | .gfLog => gfLog s
  | .gfMul => gfMul s
  | .polyMul => polyMul s
  | .polyMod => polyMod s
  | .rsGenpoly => rsGenpoly s
  | .rsEcc => rsEccCmd s
  | .bbClear => bbClear s
  | .bbPut => bbPut s
  | .bbGet => bbGet s
  | .segLoad => segLoad s
  | .selectVersion => selectVersion s
  | .buildCodewords => buildCodewords s
  | .matrixBuild mask test => matrixBuild mask test s
  | .penalty => penaltyCmd s
  | .commit => commitCmd s
  | .maskSearch => maskSearch s
  | .encode => .ok s
  | .query => queryCmd s

/-- Every command but ENCODE is the completion of its pseudocode under its own opcode (R302, R303). -/
theorem exec_eq_finish (i : Instr) (h : i ≠ .encode) : exec i s = finish i.opcode (resultOf i s) := by
  cases i <;> first | rfl | exact absurd rfl h

/-- The four ways ENCODE can fail and the one way it completes (R273). -/
theorem execEncode_cases :
    (∃ e t, segLoad s = .raise e t ∧ execEncode s = .next (t.raise e 0x50 0x30)) ∨
    ∃ s1, segLoad s = .ok s1 ∧
      ((∃ e t, selectVersion s1 = .raise e t ∧ execEncode s = .next (t.raise e 0x50 0x31)) ∨
      ∃ s2, selectVersion s1 = .ok s2 ∧
        ((∃ e t, buildCodewords s2 = .raise e t ∧ execEncode s = .next (t.raise e 0x50 0x32)) ∨
        ∃ s3, buildCodewords s2 = .ok s3 ∧
          ((∃ e t, maskSearch s3 = .raise e t ∧ execEncode s = .next (t.raise e 0x50 0x43)) ∨
          ∃ s4, maskSearch s3 = .ok s4 ∧ execEncode s = .next s4.complete))) := by
  unfold execEncode
  cases h1 : segLoad s with
  | raise e t => exact .inl ⟨e, t, rfl, rfl⟩
  | ok s1 =>
    refine .inr ⟨s1, rfl, ?_⟩
    simp only
    cases h2 : selectVersion s1 with
    | raise e t => exact .inl ⟨e, t, rfl, rfl⟩
    | ok s2 =>
      refine .inr ⟨s2, rfl, ?_⟩
      simp only
      cases h3 : buildCodewords s2 with
      | raise e t => exact .inl ⟨e, t, rfl, rfl⟩
      | ok s3 =>
        refine .inr ⟨s3, rfl, ?_⟩
        simp only
        cases h4 : maskSearch s3 with
        | raise e t => exact .inl ⟨e, t, rfl, rfl⟩
        | ok s4 => exact .inr ⟨s4, rfl, rfl⟩

/-- The polynomial commands write PR and PR_LEN, or raise with nothing changed (R116..R119). -/
theorem poly_cases (i : Instr) (h : i = .polyMul ∨ i = .polyMod ∨ i = .rsGenpoly ∨ i = .rsEcc) :
    (∃ r, resultOf i s = .ok (s.setPr r)) ∨ ∃ e, resultOf i s = .raise e s := by
  rcases h with rfl | rfl | rfl | rfl
  · simp only [resultOf, polyMul]
    split
    · split
      · exact .inr ⟨_, rfl⟩
      · exact .inl ⟨_, rfl⟩
    · exact .inr ⟨_, rfl⟩
  · simp only [resultOf, polyMod]
    split
    · split
      · exact .inr ⟨_, rfl⟩
      · exact .inl ⟨_, rfl⟩
    · exact .inr ⟨_, rfl⟩
  · simp only [resultOf, rsGenpoly]
    split
    · exact .inr ⟨_, rfl⟩
    · exact .inl ⟨_, rfl⟩
  · simp only [resultOf, rsEccCmd]
    split
    · exact .inr ⟨_, rfl⟩
    · split
      · exact .inr ⟨_, rfl⟩
      · exact .inl ⟨_, rfl⟩

end Sys2Proof.Machine
end

