-- ==== Sys2Proof/Laws/Poly.lean ====
section
/-! SUPPORT. Normal forms, lengths and heads of the polynomials of Machine/Gf.lean. -/

namespace Sys2Proof.Machine

theorem norm_cons_zero (p : List Byte) : norm (0 :: p) = norm p := rfl

theorem norm_cons_of_ne {x : Byte} {p : List Byte} (h : x ≠ 0) : norm (x :: p) = x :: p := by
  simp only [norm, List.dropWhile_cons, beq_iff_eq, h, if_false]

theorem norm_length_le (p : List Byte) : (norm p).length ≤ p.length := (List.dropWhile_sublist _).length_le

theorem norm_norm (p : List Byte) : norm (norm p) = norm p := by
  induction p with
  | nil => rfl
  | cons x p ih =>
    by_cases h : x = 0
    · subst h; exact ih
    · simp only [norm_cons_of_ne h]

theorem norm_replicate_zero (k : Nat) (p : List Byte) : norm (List.replicate k 0 ++ p) = norm p := by
  induction k with
  | zero => rfl
  | succ k ih => exact ih

/-- A normalized polynomial that is not empty starts with a non-zero coefficient. -/
theorem norm_eq_cons (p : List Byte) (h : norm p ≠ []) : ∃ x q, x ≠ 0 ∧ norm p = x :: q := by
  induction p with
  | nil => exact absurd rfl h
  | cons x p ih =>
    by_cases hx : x = 0
    · subst hx; exact ih h
    · exact ⟨x, p, hx, norm_cons_of_ne hx⟩

theorem length_convolve (b a : List Byte) (hb : b ≠ []) : (convolve b a).length = a.length + (b.length - 1) := by
  induction a with
  | nil => simp [convolve]
  | cons x xs ih =>
    have hpos := List.length_pos_iff.2 hb
    simp only [convolve, List.length_zipWith, List.length_append, List.length_map, List.length_replicate,
      List.length_cons, ih]
    omega

/-- The product's length (R108). -/
theorem length_pmul (a b : List Byte) (ha : norm a ≠ []) (hb : norm b ≠ []) :
    (pmul a b).length = (norm a).length + (norm b).length - 1 := by
  have h1 := List.length_pos_iff.2 hb
  simp only [pmul, ha, hb, or_self, if_false, length_convolve _ _ hb]
  omega

theorem pmul_of_zero (a b : List Byte) (h : norm a = [] ∨ norm b = []) : pmul a b = [] := by
  simp [pmul, h]

/-- The first coefficient of a product is the product of the first coefficients. -/
theorem head_pmul {a b : List Byte} {x y : Byte} {p q : List Byte} (ha : norm a = x :: p) (hb : norm b = y :: q) :
    ∃ r, pmul a b = (gmul x y ^^^ 0) :: r := by
  simp only [pmul, ha, hb, reduceCtorEq, or_self, if_false, convolve, List.map_cons, List.cons_append, List.zipWith_cons_cons]
  exact ⟨_, rfl⟩

theorem length_xorFront (a d : List Byte) : (xorFront a d).length = a.length := by
  induction a generalizing d with
  | nil => cases d <;> rfl
  | cons x a ih => cases d with
    | nil => rfl
    | cons y d => simp [xorFront, ih]

set_option maxRecDepth 20000 in
/-- LOG is an inverse of EXP on the non-zero elements (R103). -/
theorem exp_log : ∀ b : Byte, b ≠ 0 → expAt (logAt b) = b ∧ logAt b < 255 := by decide

set_option maxRecDepth 20000 in
/-- LOG undoes EXP on 0..254, where EXP is never 0 (R102, R103). -/
theorem log_exp : ∀ e : Fin 255, expAt e.val ≠ 0 ∧ logAt (expAt e.val) = e.val := by decide

/-- x ⊗ α^(log a - log x) = a: the leading coefficients cancel (R109). -/
theorem gmul_ratio (a x : Byte) (ha : a ≠ 0) (hx : x ≠ 0) : gmul x (gexp ((logAt a : Int) - (logAt x : Int))) = a := by
  obtain ⟨hea, hla⟩ := exp_log a ha
  obtain ⟨hex, hlx⟩ := exp_log x hx
  have hr : (((logAt a : Int) - (logAt x : Int)) % 255).toNat < 255 := by omega
  obtain ⟨h1, h2⟩ := log_exp ⟨_, hr⟩
  have hsum : (logAt x + (((logAt a : Int) - (logAt x : Int)) % 255).toNat) % 255 = logAt a := by omega
  simp only at h1 h2
  simp only [gmul, gexp, hx, h1, or_self, if_false, h2, hsum, hea]

/-- One pass of R109 makes the dividend shorter. -/
theorem length_reduceOnce {a b : List Byte} (ha : norm a = a) (hb : norm b = b) (hb0 : b ≠ []) (hl : b.length ≤ a.length) :
    (reduceOnce a b).length < a.length := by
  have ha0 : norm a ≠ [] := by
    rw [ha]; intro h; rw [h] at hl; have := List.length_pos_iff.2 hb0; simp at hl; exact hb0 hl
  obtain ⟨x, p, hx, hax⟩ := norm_eq_cons a ha0
  obtain ⟨y, q, hy, hby⟩ := norm_eq_cons b (by rw [hb]; exact hb0)
  rw [ha] at hax; rw [hb] at hby
  subst hax; subst hby
  simp only [reduceOnce, List.headD_cons, List.map_cons, xorFront, gmul_ratio x y hx hy, BitVec.xor_self]
  refine Nat.lt_of_le_of_lt (norm_length_le (xorFront p _)) ?_
  simp [length_xorFront]

theorem norm_reduceOnce (a b : List Byte) : norm (reduceOnce a b) = reduceOnce a b := norm_norm _

/-- What the loop of R109 leaves: a normalized polynomial, shorter than the divisor, no longer than the dividend. -/
theorem reduceLoop_spec {b : List Byte} (hb : norm b = b) (hb0 : b ≠ []) (fuel : Nat) (a : List Byte) (ha : norm a = a)
    (hf : a.length ≤ fuel) :
    norm (reduceLoop b fuel a) = reduceLoop b fuel a ∧ (reduceLoop b fuel a).length < b.length ∧
      (reduceLoop b fuel a).length ≤ a.length := by
  have hpos := List.length_pos_iff.2 hb0
  induction fuel generalizing a with
  | zero => exact ⟨ha, by simp only [reduceLoop]; omega, Nat.le_refl _⟩
  | succ fuel ih =>
    simp only [reduceLoop]
    split
    · rename_i hl
      have hlt := length_reduceOnce ha hb hb0 hl
      obtain ⟨h1, h2, h3⟩ := ih (reduceOnce a b) (norm_reduceOnce a b) (by omega)
      exact ⟨h1, h2, by omega⟩
    · exact ⟨ha, by omega, Nat.le_refl _⟩

/-- A remainder is never longer than the dividend. -/
theorem length_pmod_le (a b : List Byte) (hb : norm b ≠ []) : (pmod a b).length ≤ a.length :=
  Nat.le_trans (reduceLoop_spec (norm_norm b) hb _ (norm a) (norm_norm a) (Nat.le_refl _)).2.2 (norm_length_le a)

theorem genPoly_succ (n : Nat) : genPoly (n + 1) = pmul (genPoly n) [0x01, gexp n] := rfl

/-- g_n is monic: its first coefficient is 1, so it is normalized (R110). -/
theorem genPoly_monic (n : Nat) : ∃ q, genPoly n = 0x01 :: q ∧ q.length = n := by
  induction n with
  | zero => exact ⟨[], rfl, rfl⟩
  | succ n ih =>
    obtain ⟨q, hq, hl⟩ := ih
    have h1 : norm (genPoly n) = 0x01 :: q := by rw [hq]; rfl
    have h2 : norm [0x01, gexp n] = [0x01, gexp n] := rfl
    obtain ⟨r, hr⟩ := head_pmul h1 h2
    have h3 : gmul 0x01 0x01 ^^^ 0 = 0x01 := by decide
    refine ⟨r, by rw [genPoly_succ, hr, h3], ?_⟩
    have := length_pmul (genPoly n) [0x01, gexp n] (by rw [h1]; simp) (by rw [h2]; simp)
    rw [hr, h1, h2] at this
    simp only [List.length_cons, List.length_nil, hl] at this
    omega

theorem norm_genPoly (n : Nat) : norm (genPoly n) = genPoly n := by
  obtain ⟨q, hq, -⟩ := genPoly_monic n
  rw [hq]; rfl

theorem length_genPoly_le (n : Nat) : (genPoly n).length = n + 1 := by
  obtain ⟨q, hq, hl⟩ := genPoly_monic n
  simp [hq, hl]

theorem length_padLeft (n : Nat) (r : List Byte) (h : r.length ≤ n) : (padLeft n r).length = n := by
  simp [padLeft]; omega

/-- rs_ecc has n bytes (R111). -/
theorem length_rsEcc_le (data : List Byte) (n : Nat) : (rsEcc data n).length ≤ n := by
  have h := (reduceLoop_spec (b := genPoly n) (norm_genPoly n) (by
    obtain ⟨q, hq, -⟩ := genPoly_monic n; simp [hq]) _ (norm (data ++ List.replicate n 0)) (norm_norm _) (Nat.le_refl _)).2.1
  rw [length_genPoly_le] at h
  have : (pmod (data ++ List.replicate n 0) (genPoly n)).length ≤ n := by
    simp only [pmod, norm_genPoly]; omega
  simp only [rsEcc]
  exact Nat.le_of_eq (length_padLeft n _ this)

end Sys2Proof.Machine
end

