-- ==== Sys2Proof/Laws/Codeword.lean ====
section
/-! SUPPORT. Facts of the version tables, and the lengths of bit fields, bit streams and interleaved blocks. -/

namespace Sys2Proof.Machine

/-! ## Tables -/

/-- Entry i of the versions 1..40. -/
theorem forall_version {P : Nat → Prop} (h : ∀ i : Fin 40, P (i.val + 1)) (v : Nat) (h1 : 1 ≤ v) (h2 : v ≤ 40) : P v := by
  have := h ⟨v - 1, by omega⟩
  simpa [show v - 1 + 1 = v by omega] using this

/-- The four levels. -/
theorem forall_level {P : BitVec 2 → Prop} (h : ∀ i : Fin 4, P (BitVec.ofFin i)) (ec : BitVec 2) : P ec := h ec.toFin

set_option maxRecDepth 20000 in
/-- CAP grows with the version, and no row is above SEG_DEPTH. -/
theorem cap_table : ∀ (i : Fin 40) (e : Fin 4),
    cap (i.val + 1) (BitVec.ofFin e) ≤ cap 40 (BitVec.ofFin e) ∧ cap (i.val + 1) (BitVec.ofFin e) ≤ 2953 := by decide

theorem cap_le (v : Nat) (ec : BitVec 2) (h1 : 1 ≤ v) (h2 : v ≤ 40) : cap v ec ≤ cap 40 ec ∧ cap v ec ≤ 2953 :=
  forall_version (P := fun v => cap v ec ≤ cap 40 ec ∧ cap v ec ≤ 2953)
    (fun i => forall_level (P := fun ec => cap (i.val + 1) ec ≤ cap 40 ec ∧ cap (i.val + 1) ec ≤ 2953) (cap_table i) ec) v h1 h2

set_option maxRecDepth 20000 in
/-- The block registers hold every row's values, and each row leaves room for CAP payload bytes. -/
theorem blocks_table : ∀ (i : Fin 40) (e : Fin 4),
    dataCodewords (i.val + 1) (BitVec.ofFin e) < 4096 ∧ totalCodewords (i.val + 1) (BitVec.ofFin e) ≤ 3706 ∧
      (blocks (i.val + 1) (BitVec.ofFin e)).length < 128 ∧
      (blocks (i.val + 1) (BitVec.ofFin e)).all (fun b => decide (b.2 ≤ b.1)) = true ∧
      4 + lenBits (i.val + 1) + 8 * cap (i.val + 1) (BitVec.ofFin e) ≤ 8 * dataCodewords (i.val + 1) (BitVec.ofFin e) := by
  decide

theorem blocks_bounds (v : Nat) (ec : BitVec 2) (h1 : 1 ≤ v) (h2 : v ≤ 40) :
    dataCodewords v ec < 4096 ∧ totalCodewords v ec ≤ 3706 ∧ (blocks v ec).length < 128 ∧
      (∀ b ∈ blocks v ec, b.2 ≤ b.1) ∧ 4 + lenBits v + 8 * cap v ec ≤ 8 * dataCodewords v ec := by
  have := forall_version (P := fun v => dataCodewords v ec < 4096 ∧ totalCodewords v ec ≤ 3706 ∧ (blocks v ec).length < 128 ∧
      (blocks v ec).all (fun b => decide (b.2 ≤ b.1)) = true ∧ 4 + lenBits v + 8 * cap v ec ≤ 8 * dataCodewords v ec)
    (fun i => forall_level (P := fun ec => dataCodewords (i.val + 1) ec < 4096 ∧ totalCodewords (i.val + 1) ec ≤ 3706 ∧
      (blocks (i.val + 1) ec).length < 128 ∧ (blocks (i.val + 1) ec).all (fun b => decide (b.2 ≤ b.1)) = true ∧
      4 + lenBits (i.val + 1) + 8 * cap (i.val + 1) ec ≤ 8 * dataCodewords (i.val + 1) ec) (blocks_table i) ec) v h1 h2
  simpa using this

/-! ## Version selection -/

/-- The version `smallestVersion` finds: in 1..40, it fits, and no smaller one does. -/
theorem smallestVersion_some {ec : BitVec 2} {len v : Nat} (h : smallestVersion ec len = some v) :
    1 ≤ v ∧ v ≤ 40 ∧ len ≤ cap v ec ∧ ∀ u, 1 ≤ u → u < v → cap u ec < len := by
  unfold smallestVersion at h
  obtain ⟨hp, i, hi, hv, hlt⟩ := List.find?_eq_some_iff_getElem.1 h
  simp at hv hi hp
  refine ⟨by omega, by omega, hp, ?_⟩
  intro u h1 h2
  have := hlt (u - 1) (by omega)
  simp [show u - 1 + 1 = u by omega] at this
  exact this

theorem smallestVersion_none {ec : BitVec 2} {len : Nat} (h : smallestVersion ec len = none) : cap 40 ec < len := by
  unfold smallestVersion at h
  have := List.find?_eq_none.1 h 40 (by decide)
  simpa using this

/-- What SELECT_VERSION's pseudocode can come to (R173, R303). -/
theorem selectVersion_cases (s : State) :
    (∃ v, 1 ≤ v ∧ v ≤ 40 ∧ s.regs.segLen.toNat ≤ cap v s.regs.ecLevel ∧ s.status.segValid = true ∧
      selectVersion s = .ok (s.setVersion v s.regs.ecLevel)) ∨
      ∃ e, selectVersion s = .raise e s.loseVersion := by
  unfold selectVersion
  simp only
  split
  · exact .inr ⟨_, rfl⟩
  · rename_i hs
    have hs : s.status.segValid = true := by simpa using hs
    split
    · exact .inr ⟨_, rfl⟩
    · split
      · split
        · exact .inr ⟨_, rfl⟩
        · exact .inl ⟨_, by omega, by omega, by omega, hs, rfl⟩
      · split
        · exact .inr ⟨_, rfl⟩
        · rename_i hc
          cases hv : smallestVersion s.regs.ecLevel s.regs.segLen.toNat with
          | none => exact absurd (smallestVersion_none hv) hc
          | some v =>
            obtain ⟨h1, h2, h3, -⟩ := smallestVersion_some hv
            exact .inl ⟨v, h1, h2, h3, hs, rfl⟩

/-! ## Bits -/

@[simp] theorem length_fieldBits (value len : Nat) : (fieldBits value len).length = len := by simp [fieldBits]

@[simp] theorem length_byteBits (b : Byte) : (byteBits b).length = 8 := length_fieldBits _ _

/-- Bit i of a field, most significant first (R142). -/
theorem getElem_fieldBits (value len i : Nat) (h : i < (fieldBits value len).length) :
    (fieldBits value len)[i] = value.testBit (len - 1 - i) := by simp [fieldBits]

theorem length_flatMap_byteBits (bs : List Byte) : (bs.flatMap byteBits).length = 8 * bs.length := by
  induction bs with
  | nil => rfl
  | cons b bs ih => simp only [List.flatMap_cons, List.length_append, length_byteBits, ih, List.length_cons]; omega

theorem length_segmentBits (seg : List Byte) (v : Nat) : (segmentBits seg v).length = 4 + lenBits v + 8 * seg.length := by
  simp only [segmentBits, List.length_append, length_fieldBits, length_flatMap_byteBits]

/-- Padded out, the data bits fill the data codewords exactly (R177). -/
theorem length_bitstream {seg : List Byte} {v d : Nat} {bits : List Bool} (h : bitstream seg v d = some bits) :
    bits.length = 8 * d := by
  unfold bitstream at h
  simp only at h
  split at h
  · cases h
  · rename_i hle
    injection h with h; subst h
    have hpad : ∀ b : List Bool, (List.flatMap (fun k => byteBits (padByte k)) (List.range ((8 * d - b.length + 7) / 8))).length =
        8 * ((8 * d - b.length + 7) / 8) := by
      intro b
      generalize (8 * d - b.length + 7) / 8 = m
      induction m with
      | zero => rfl
      | succ m ih =>
        rw [List.range_succ, List.flatMap_append, List.length_append, ih]
        simp; omega
    simp only [addPadBytes, List.length_append, hpad]
    have hterm : (addTerminator (8 * d) (segmentBits seg v)).length ≤ 8 * d := by
      unfold addTerminator; split
      · simp; omega
      · omega
    generalize addTerminator (8 * d) (segmentBits seg v) = b at hterm
    simp only [padToByte, List.length_append, List.length_replicate]
    omega

theorem length_packBytes (bits : List Bool) (d : Nat) : (packBytes bits d).length = d := by
  induction d generalizing bits with
  | zero => rfl
  | succ d ih => simp [packBytes, ih]

/-! ## Blocks -/

/-- The blocks' data are the consecutive slices, of the table's lengths; the EC blocks have the table's lengths. -/
theorem length_splitBlocks (bl : List (Nat × Nat)) (data : List Byte) : (splitBlocks bl data).length = bl.length := by
  induction bl generalizing data with
  | nil => rfl
  | cons b bl ih => obtain ⟨t, d⟩ := b; simp [splitBlocks, ih]

theorem sum_data_splitBlocks (bl : List (Nat × Nat)) (data : List Byte) (h : data.length = (bl.map (·.2)).sum) :
    (splitBlocks bl data).map (·.1.length) = bl.map (·.2) := by
  induction bl generalizing data with
  | nil => rfl
  | cons b bl ih =>
    obtain ⟨t, d⟩ := b
    simp only [List.map_cons, List.sum_cons] at h
    simp only [splitBlocks, List.map_cons, List.length_take, ih (data.drop d) (by simp; omega)]
    congr 1; omega

/-- Reading lists column by column loses and adds nothing. -/
theorem length_columns {α : Type} (lists : List (List α)) (n : Nat) (h : ∀ l ∈ lists, l.length ≤ n) :
    ((List.range n).flatMap fun i => column i lists).length = (lists.map List.length).sum := by
  have key : ∀ m, ((List.range m).flatMap fun i => column i lists).length = (lists.map fun l => min m l.length).sum := by
    intro m
    induction m with
    | zero =>
      simp only [List.range_zero, List.flatMap_nil, List.length_nil, Nat.zero_min]
      clear h
      induction lists with
      | nil => rfl
      | cons l lists ih => simpa using ih
    | succ m ih =>
      rw [List.range_succ, List.flatMap_append, List.length_append, ih]
      simp only [List.flatMap_cons, List.flatMap_nil, List.append_nil]
      clear ih h
      induction lists with
      | nil => rfl
      | cons l lists ih =>
        simp only [List.map_cons, List.sum_cons, column, List.filterMap_cons] at *
        by_cases hm : m < l.length
        · simp only [List.getElem?_eq_getElem hm, List.length_cons]; omega
        · simp only [List.getElem?_eq_none (Nat.le_of_not_lt hm)]; omega
  rw [key]
  congr 1
  exact List.map_congr_left fun l hl => Nat.min_eq_right (h l hl)

theorem le_foldl_max (l : List Nat) (a : Nat) : a ≤ l.foldl max a ∧ ∀ x ∈ l, x ≤ l.foldl max a := by
  induction l generalizing a with
  | nil => simp
  | cons y l ih =>
    obtain ⟨h1, h2⟩ := ih (max a y)
    refine ⟨Nat.le_trans (Nat.le_max_left _ _) h1, ?_⟩
    intro x hx
    rcases List.mem_cons.1 hx with rfl | hx
    · exact Nat.le_trans (Nat.le_max_right _ _) h1
    · exact h2 x hx

theorem length_interleave {α : Type} (lists : List (List α)) :
    (interleave lists).length = (lists.map List.length).sum :=
  length_columns lists _ fun _ hl => (le_foldl_max (lists.map List.length) 0).2 _ (List.mem_map_of_mem hl)

end Sys2Proof.Machine
end

