-- ==== Sys2Proof/Laws/Launch.lean ====
section
/-! SUPPORT. The launch premise reset_launch (spec/60_exceptions.md R318): where it holds and what it implies. -/

namespace Sys2Proof.Machine

theorem reset_resetLaunch : State.reset.resetLaunch := ⟨rfl, by decide⟩

/-- RST asserted in any state gives the reset state of R341 (R340). -/
theorem assertReset_resetLaunch (s : State) : s.assertReset.resetLaunch := ⟨rfl, Nat.le_refl _⟩

/-- The release of RST leaves the reset state (R340). -/
theorem releaseReset_resetLaunch {s : State} (h : s.resetLaunch) : s.releaseReset.resetLaunch :=
  ⟨congrArg State.releaseReset h.1, h.2⟩

/-- reset_launch implies idle_launch, clean_status, no_error_recorded and, with R341, irq_masked (R318). -/
theorem resetLaunch_premises {s : State} (h : s.resetLaunch) :
    s.idleLaunch = true ∧ s.cleanStatus = true ∧ s.noErrorRecorded = true ∧ s.irqMasked = true := by
  rw [h.1]
  exact ⟨rfl, by show (State.reset.statusWord == 0) = true; decide, by show (ErrRecord.reset.word == 0) = true; decide,
    by show (IrqEnable.reset.word == 0) = true; decide⟩

/-- reset_launch leaves every memory cell drawn: nothing is written (R318). -/
theorem resetLaunch_drawn {s : State} (h : s.resetLaunch) : s.mems = Mems.fresh s.mems.text.epoch := by
  conv => lhs; rw [h.1]

end Sys2Proof.Machine
end

