-- ==== Sys2Proof/Laws/Matrix.lean ====
section
/-! SUPPORT. Cells and sizes of a matrix under construction: what a write sees, and that no step of a build changes the
size or takes a cell back to unset. -/

namespace Sys2Proof.Machine

/-- n rows of n cells. -/
def Matrix.Square (n : Nat) (w : Matrix) : Prop := w.length = n ∧ ∀ row ∈ w, row.length = n

theorem Matrix.square_blank (n : Nat) : (Matrix.blank n).Square n := by
  refine ⟨by simp [Matrix.blank], fun row h => ?_⟩
  simp only [Matrix.blank, List.mem_replicate] at h
  rw [h.2, List.length_replicate]

theorem Matrix.length_row {n : Nat} {w : Matrix} (h : w.Square n) {r : Nat} (hr : r < n) : (w.getD r []).length = n := by
  have hr' : r < w.length := by rw [h.1]; exact hr
  rw [List.getD_eq_getElem?_getD, List.getElem?_eq_getElem hr', Option.getD_some]
  exact h.2 _ (List.getElem_mem hr')

theorem Matrix.square_put {n : Nat} {w : Matrix} (h : w.Square n) (r c : Nat) (x : Cell) : (w.put r c x).Square n := by
  refine ⟨by simp [Matrix.put, h.1], fun row hrow => ?_⟩
  rcases List.mem_or_eq_of_mem_set hrow with hm | rfl
  · exact h.2 row hm
  · by_cases hr : r < n
    · rw [List.length_set]; exact Matrix.length_row h hr
    · exfalso
      have : w.length ≤ r := by rw [h.1]; omega
      rw [Matrix.put, List.set_eq_of_length_le this] at hrow
      have hg : w.getD r [] = [] := by
        rw [List.getD_eq_getElem?_getD, List.getElem?_eq_none this]; rfl
      rw [hg] at hrow
      have hn := h.2 _ hrow
      simp only [List.set_nil, List.length_nil] at hn
      have : w.length = 0 := by rw [h.1]; exact hn.symm
      rw [List.length_eq_zero_iff.1 this] at hrow
      cases hrow

/-- A cell after a write: the cell written, or as before. -/
theorem Matrix.cell_put {n : Nat} {w : Matrix} (h : w.Square n) {r c : Nat} (hr : r < n) (hc : c < n) (x : Cell) (i j : Nat) :
    (w.put r c x).cell i j = if i = r ∧ j = c then x else w.cell i j := by
  have hr' : r < w.length := by rw [h.1]; exact hr
  have hrow := Matrix.length_row h hr
  rw [List.getD_eq_getElem?_getD, List.getElem?_eq_getElem hr', Option.getD_some] at hrow
  by_cases hi : i = r
  · subst hi
    by_cases hj : j = c
    · subst hj
      simp [Matrix.cell, Matrix.put, hr', hrow, hc]
    · simp [Matrix.cell, Matrix.put, hr', hj, List.getElem?_set_ne (Ne.symm hj)]
  · simp [Matrix.cell, Matrix.put, hi, List.getElem?_set_ne (Ne.symm hi)]

/-- A write outside the matrix changes nothing. -/
theorem Matrix.put_outside {n : Nat} {w : Matrix} (h : w.Square n) {r c : Nat} (hrc : n ≤ r ∨ n ≤ c) (x : Cell) :
    w.put r c x = w := by
  by_cases hr : r < n
  · have hc : n ≤ c := by omega
    have hr' : r < w.length := by rw [h.1]; exact hr
    have hl := Matrix.length_row h hr
    have hset : (w.getD r []).set c x = w.getD r [] := List.set_eq_of_length_le (Nat.le_trans (Nat.le_of_eq hl) hc)
    rw [Matrix.put, hset, List.getD_eq_getElem?_getD, List.getElem?_eq_getElem hr', Option.getD_some, List.set_getElem_self]
  · rw [Matrix.put, List.set_eq_of_length_le (by rw [h.1]; omega)]

/-! ## What every step of a build keeps -/

/-- `w'` has the size of `w`, and each cell set in `w` is set in `w'`. -/
def Matrix.Grows (n : Nat) (w w' : Matrix) : Prop :=
  w'.Square n ∧ ∀ r c, w.cell r c ≠ .unset → w'.cell r c ≠ .unset

theorem Matrix.Grows.refl {n : Nat} {w : Matrix} (h : w.Square n) : Matrix.Grows n w w := ⟨h, fun _ _ => id⟩

theorem Matrix.Grows.trans {n : Nat} {a b c : Matrix} (h1 : Matrix.Grows n a b) (h2 : Matrix.Grows n b c) :
    Matrix.Grows n a c := ⟨h2.1, fun r k h => h2.2 r k (h1.2 r k h)⟩

theorem Cell.ofBool_ne_unset (b : Bool) : Cell.ofBool b ≠ .unset := by cases b <;> decide

theorem Matrix.grows_put {n : Nat} {w : Matrix} (h : w.Square n) (r c : Nat) {x : Cell} (hx : x ≠ .unset) :
    Matrix.Grows n w (w.put r c x) := by
  refine ⟨Matrix.square_put h r c x, fun i j hij => ?_⟩
  by_cases hrc : r < n ∧ c < n
  · rw [Matrix.cell_put h hrc.1 hrc.2]
    split
    · exact hx
    · exact hij
  · rw [Matrix.put_outside h (by omega)]; exact hij

theorem Matrix.grows_foldl {α : Type} {n : Nat} (f : Matrix → α → Matrix)
    (hf : ∀ w a, Matrix.Square n w → Matrix.Grows n w (f w a)) (l : List α) {w : Matrix} (h : w.Square n) :
    Matrix.Grows n w (l.foldl f w) := by
  induction l generalizing w with
  | nil => exact Matrix.Grows.refl h
  | cons a l ih =>
    have h1 := hf w a h
    exact h1.trans (ih h1.1)

theorem Matrix.grows_putAll {n : Nat} {w : Matrix} (h : w.Square n) (l : List ((Nat × Nat) × Cell))
    (hl : ∀ p ∈ l, p.2 ≠ .unset) : Matrix.Grows n w (w.putAll l) := by
  unfold Matrix.putAll
  induction l generalizing w with
  | nil => exact Matrix.Grows.refl h
  | cons p l ih =>
    have h1 := Matrix.grows_put h p.1.1 p.1.2 (hl p (by simp))
    exact h1.trans (ih h1.1 fun q hq => hl q (by simp [hq]))

theorem probeCell_ne_unset (dr dc : Int) : probeCell dr dc ≠ .unset := Cell.ofBool_ne_unset _

theorem grows_probe {n : Nat} (r0 c0 : Nat) {w : Matrix} (h : w.Square n) : Matrix.Grows n w (probe n r0 c0 w) := by
  refine Matrix.grows_putAll h _ fun p hp => ?_
  simp only [List.mem_flatMap, List.mem_filterMap] at hp
  obtain ⟨dr, -, dc, -, hp⟩ := hp
  split at hp
  · injection hp with hp; subst hp; exact probeCell_ne_unset _ _
  · cases hp

theorem grows_placeFinders {n : Nat} {w : Matrix} (h : w.Square n) : Matrix.Grows n w (placeFinders n w) :=
  have h1 := grows_probe 0 0 h
  have h2 := grows_probe (n - 7) 0 h1.1
  (h1.trans h2).trans (grows_probe 0 (n - 7) h2.1)

theorem grows_placeAlignment {n : Nat} {w : Matrix} (h : w.Square n) (a b : Nat) :
    Matrix.Grows n w (placeAlignment w a b) := by
  unfold placeAlignment
  split
  · exact Matrix.Grows.refl h
  · refine Matrix.grows_putAll h _ fun p hp => ?_
    simp only [List.mem_flatMap, List.mem_map] at hp
    obtain ⟨i, -, j, -, rfl⟩ := hp
    exact Cell.ofBool_ne_unset _

theorem grows_placeAlignments {n : Nat} (v : Nat) {w : Matrix} (h : w.Square n) :
    Matrix.Grows n w (placeAlignments v w) :=
  Matrix.grows_foldl _ (fun _ a hw => Matrix.grows_foldl _ (fun _ b hw => grows_placeAlignment hw a b) _ hw) _ h

theorem grows_putUnset {n : Nat} {w : Matrix} (h : w.Square n) (r c : Nat) {x : Cell} (hx : x ≠ .unset) :
    Matrix.Grows n w (w.putUnset r c x) := by
  unfold Matrix.putUnset
  split
  · exact Matrix.grows_put h r c hx
  · exact Matrix.Grows.refl h

theorem grows_placeTiming {n : Nat} {w : Matrix} (h : w.Square n) : Matrix.Grows n w (placeTiming n w) :=
  have h1 := Matrix.grows_foldl _ (fun _ r hw => grows_putUnset hw r 6 (Cell.ofBool_ne_unset (r % 2 == 0))) (timingIndices n) h
  h1.trans (Matrix.grows_foldl _ (fun _ c hw => grows_putUnset hw 6 c (Cell.ofBool_ne_unset (c % 2 == 0))) (timingIndices n) h1.1)

theorem grows_placeFormat {n : Nat} (ec m : Nat) (test : Bool) {w : Matrix} (h : w.Square n) :
    Matrix.Grows n w (placeFormat n ec m test w) := by
  refine Matrix.grows_putAll h _ fun p hp => ?_
  simp only [List.mem_flatMap, List.mem_cons, List.not_mem_nil, or_false] at hp
  obtain ⟨i, -, rfl | rfl⟩ := hp <;> exact Cell.ofBool_ne_unset _

theorem grows_placeDarkModule {n : Nat} (p : Params) (test : Bool) {w : Matrix} (h : w.Square n) :
    Matrix.Grows n w (placeDarkModule p n test w) := Matrix.grows_put h _ _ (Cell.ofBool_ne_unset _)

theorem grows_placeVersion {n : Nat} (v : Nat) (test : Bool) {w : Matrix} (h : w.Square n) :
    Matrix.Grows n w (placeVersion n v test w) := by
  unfold placeVersion
  split
  · exact Matrix.Grows.refl h
  · refine Matrix.grows_putAll h _ fun p hp => ?_
    simp only [List.mem_flatMap, List.mem_cons, List.not_mem_nil, or_false] at hp
    obtain ⟨i, -, rfl | rfl⟩ := hp <;> exact Cell.ofBool_ne_unset _

theorem square_functionPatterns (p : Params) (v ec : Nat) (test : Bool) (m : Nat) :
    (functionPatterns p v ec test m).Square (moduleCountOf v) := by
  unfold functionPatterns
  have h1 := (grows_placeFinders (Matrix.square_blank (moduleCountOf v))).1
  have h2 := (grows_placeAlignments v h1).1
  have h3 := (grows_placeTiming h2).1
  have h4 := (grows_placeFormat ec m test h3).1
  exact (grows_placeVersion v test (grows_placeDarkModule p test h4).1).1

/-! ## Data placement -/

/-- Data placement keeps every cell that is set, and sets every cell it visits (R212). -/
theorem placeBits_spec (p : Params) (m : Nat) {n : Nat} (cells : List (Nat × Nat)) (bits : List Bool) (w : Matrix)
    (h : w.Square n) (hin : ∀ q ∈ cells, q.1 < n ∧ q.2 < n) :
    (placeBits p m cells bits w).Square n ∧
      (∀ r c, w.cell r c ≠ .unset → (placeBits p m cells bits w).cell r c = w.cell r c) ∧
      ∀ q ∈ cells, (placeBits p m cells bits w).cell q.1 q.2 ≠ .unset := by
  induction cells generalizing bits w with
  | nil => exact ⟨h, fun _ _ _ => rfl, fun q hq => by cases hq⟩
  | cons q cells ih =>
    obtain ⟨r, c⟩ := q
    have hq := hin (r, c) (by simp)
    have hrest : ∀ q ∈ cells, q.1 < n ∧ q.2 < n := fun q hq => hin q (by simp [hq])
    by_cases hu : w.cell r c = .unset
    · have step : ∀ (b : Bool) (bits' : List Bool),
          placeBits p m ((r, c) :: cells) bits w = placeBits p m cells bits' (w.put r c (Cell.ofBool b)) →
          (placeBits p m ((r, c) :: cells) bits w).Square n ∧
          (∀ i j, w.cell i j ≠ .unset → (placeBits p m ((r, c) :: cells) bits w).cell i j = w.cell i j) ∧
          ∀ q ∈ (r, c) :: cells, (placeBits p m ((r, c) :: cells) bits w).cell q.1 q.2 ≠ .unset := by
        intro b bits' he
        obtain ⟨h1, h2, h3⟩ := ih bits' (w.put r c (Cell.ofBool b)) (Matrix.square_put h r c _) hrest
        have hput := fun i j => Matrix.cell_put h hq.1 hq.2 (Cell.ofBool b) i j
        rw [he]
        refine ⟨h1, fun i j hij => ?_, fun q hq' => ?_⟩
        · have hne : ¬ (i = r ∧ j = c) := fun hh => hij (by rw [hh.1, hh.2]; exact hu)
          rw [h2 i j (by rw [hput, if_neg hne]; exact hij), hput, if_neg hne]
        · rcases List.mem_cons.1 hq' with rfl | hq'
          · have hset : (w.put r c (Cell.ofBool b)).cell r c ≠ .unset := by
              rw [hput]; simp [Cell.ofBool_ne_unset]
            rw [h2 r c hset]; exact hset
          · exact h3 q hq'
      cases bits with
      | nil => exact step (p.maskRemainderBits && maskbit m r c) [] (by simp [placeBits, hu])
      | cons d rest => exact step (d ^^ maskbit m r c) rest (by simp [placeBits, hu])
    · obtain ⟨h1, h2, h3⟩ := ih bits w h hrest
      have he : placeBits p m ((r, c) :: cells) bits w = placeBits p m cells bits w := by simp [placeBits, hu]
      rw [he]
      refine ⟨h1, h2, fun q hq' => ?_⟩
      rcases List.mem_cons.1 hq' with rfl | hq'
      · rw [h2 r c hu]; exact hu
      · exact h3 q hq'

theorem pairColumns_lt (fuel col : Nat) : ∀ k ∈ pairColumns fuel col, 1 ≤ k ∧ k ≤ max col 1 := by
  induction fuel generalizing col with
  | zero => intro k hk; cases hk
  | succ fuel ih =>
    intro k hk
    simp only [pairColumns] at hk
    split at hk
    · cases hk
    · split at hk
      · rcases List.mem_cons.1 hk with rfl | hk
        · omega
        · have := ih _ k hk; omega
      · rcases List.mem_cons.1 hk with rfl | hk
        · omega
        · have := ih _ k hk; omega

/-- Every cell visited is a cell of the matrix (R212). -/
theorem zigzag_inside {n : Nat} (h : 2 ≤ n) : ∀ q ∈ zigzag n, q.1 < n ∧ q.2 < n := by
  have key : ∀ (cols : List Nat) (up : Bool), (∀ k ∈ cols, k < n) → ∀ q ∈ snake n cols up, q.1 < n ∧ q.2 < n := by
    intro cols
    induction cols with
    | nil => intro up _ q hq; cases hq
    | cons col cols ih =>
      intro up hk q hq
      rcases List.mem_append.1 hq with hq | hq
      · simp only [pairCells, List.mem_flatMap, List.mem_cons, List.not_mem_nil, or_false] at hq
        obtain ⟨r, hr, rfl | rfl⟩ := hq
        · have : r < n := by cases up <;> simpa using hr
          exact ⟨this, hk col (by simp)⟩
        · have : r < n := by cases up <;> simpa using hr
          have := hk col (by simp)
          exact ⟨by assumption, by simp only; omega⟩
      · exact ih _ (fun k hk' => hk k (by simp [hk'])) q hq
  refine key _ _ fun k hk => ?_
  have := pairColumns_lt n (n - 1) k hk
  omega

/-- A build is n × n, and data placement leaves every function module as it is (R200, R212). -/
theorem build_spec (p : Params) (v ec : Nat) (cw : List Byte) (test : Bool) (m : Nat) :
    (build p v ec cw test m).Square (moduleCountOf v) ∧
      (∀ r c, (functionPatterns p v ec test m).cell r c ≠ .unset →
        (build p v ec cw test m).cell r c = (functionPatterns p v ec test m).cell r c) ∧
      ∀ q ∈ zigzag (moduleCountOf v), (build p v ec cw test m).cell q.1 q.2 ≠ .unset :=
  placeBits_spec p m _ _ _ (square_functionPatterns p v ec test m)
    (zigzag_inside (by simp only [moduleCountOf]; omega))

/-- A cell's code and back (R45). -/
theorem Cell.ofCode_code (x : Cell) : Cell.ofCode x.code = x := by cases x <;> rfl

end Sys2Proof.Machine
end

