-- ==== Sys2Proof/Laws/Operands.lean ====
section
/-! SUPPORT. Each operand read, in full: when it is there and what it is. -/

namespace Sys2Proof.Machine

theorem byteOperand_of_lt {w : Word} (h : w.toNat < 256) : byteOperand w = some (w.setWidth 8) := by
  have hz : w.extractLsb' 8 24 = 0 := by
    apply BitVec.eq_of_toNat_eq
    simp only [BitVec.extractLsb'_toNat, Nat.shiftRight_eq_div_pow, show (0 : BitVec 24).toNat = 0 from rfl]
    omega
  rw [byteOperand, if_pos hz]
  congr 1

theorem byteOperand_of_ge {w : Word} (h : 256 ≤ w.toNat) : byteOperand w = none := by
  rw [byteOperand, if_neg]
  intro hz
  have hd := congrArg BitVec.toNat hz
  simp only [BitVec.extractLsb'_toNat, Nat.shiftRight_eq_div_pow, show (0 : BitVec 24).toNat = 0 from rfl] at hd
  have := w.isLt
  omega

/-- A block read from location 0 is the list of its locations. -/
theorem readBlock_zero {α : Type} (free : Nat → Nat → α) (m : Mem α) (n : Nat) :
    m.readBlock free 0 n = (List.range n).map (m.read free) := by
  simp [Mem.readBlock]

theorem paOperand_of_le {s : State} (h : s.regs.paLen.toNat ≤ 256) :
    s.paOperand = some ((List.range s.regs.paLen.toNat).map s.paAt) := by
  rw [State.paOperand, if_pos h, readBlock_zero]; rfl

theorem paOperand_of_gt {s : State} (h : 256 < s.regs.paLen.toNat) : s.paOperand = none := by
  rw [State.paOperand, if_neg (Nat.not_le.2 h)]

theorem pbOperand_of_le {s : State} (h : s.regs.pbLen.toNat ≤ 256) :
    s.pbOperand = some ((List.range s.regs.pbLen.toNat).map s.pbAt) := by
  rw [State.pbOperand, if_pos h, readBlock_zero]; rfl

theorem pbOperand_of_gt {s : State} (h : 256 < s.regs.pbLen.toNat) : s.pbOperand = none := by
  rw [State.pbOperand, if_neg (Nat.not_le.2 h)]

theorem textOperand_of_le {s : State} (h : s.regs.textLen.toNat ≤ 4096) :
    s.textOperand = some ((List.range s.regs.textLen.toNat).map s.textAt) := by
  rw [State.textOperand, if_pos h, readBlock_zero]; rfl

theorem textOperand_of_gt {s : State} (h : 4096 < s.regs.textLen.toNat) : s.textOperand = none := by
  rw [State.textOperand, if_neg (Nat.not_le.2 h)]

theorem segOperand_eq (s : State) : s.segOperand = (List.range s.regs.segLen.toNat).map s.segAt := by
  rw [State.segOperand, readBlock_zero]; rfl

theorem cwOperand_eq (s : State) : s.cwOperand = (List.range s.regs.totalCw.toNat).map s.cwAt := by
  rw [State.cwOperand, readBlock_zero]; rfl

theorem workOperand_eq (s : State) (n : Nat) :
    s.workOperand n = (List.range n).map fun r => (List.range n).map fun c => s.workAt r c := by
  simp [State.workOperand, Mem.readBlock, State.workAt, cellIndex]

end Sys2Proof.Machine
end

