-- ==== Sys2Proof/Laws/PerInstr.lean ====
section
/-! SUPPORT. Statements for all commands, one lemma per command. -/

namespace Sys2Proof.Laws.EncodeLegal

/-- The word of a command is legal: its opcode is assigned, its reserved bits are 0, and MASK and TEST are 0 unless it is
MATRIX_BUILD (R84). -/
def Statement (i : Instr) : Prop := i.fields.wellFormed = true

theorem nop : Statement .nop := by unfold Statement; decide
theorem softReset : Statement .softReset := by unfold Statement; decide
theorem gfExp : Statement .gfExp := by unfold Statement; decide
theorem gfLog : Statement .gfLog := by unfold Statement; decide
theorem gfMul : Statement .gfMul := by unfold Statement; decide
theorem polyMul : Statement .polyMul := by unfold Statement; decide
theorem polyMod : Statement .polyMod := by unfold Statement; decide
theorem rsGenpoly : Statement .rsGenpoly := by unfold Statement; decide
theorem rsEcc : Statement .rsEcc := by unfold Statement; decide
theorem bbClear : Statement .bbClear := by unfold Statement; decide
theorem bbPut : Statement .bbPut := by unfold Statement; decide
theorem bbGet : Statement .bbGet := by unfold Statement; decide
theorem segLoad : Statement .segLoad := by unfold Statement; decide
theorem selectVersion : Statement .selectVersion := by unfold Statement; decide
theorem buildCodewords : Statement .buildCodewords := by unfold Statement; decide
theorem matrixBuild (mask : BitVec 3) (test : Bool) : Statement (.matrixBuild mask test) := by unfold Statement; rfl
theorem penalty : Statement .penalty := by unfold Statement; decide
theorem commit : Statement .commit := by unfold Statement; decide
theorem maskSearch : Statement .maskSearch := by unfold Statement; decide
theorem encode : Statement .encode := by unfold Statement; decide
theorem query : Statement .query := by unfold Statement; decide

end Sys2Proof.Laws.EncodeLegal
end

