-- ==== Sys2Proof/Tests/Slice0.lean ====
section
/-! SUPPORT. Tests: ill-formed command words, decoding of written-out words, one step of each command with results from
spec/95_test_vectors.md (the section is named), and for each statement with hypotheses a state that meets them. -/

namespace Sys2Proof.Tests

open Sys2Proof Sys2Proof.Machine Sys2Proof.Claims

/-! ## Helpers -/

/-- What a test reads off a step: RES and the error code, opcode and step (0, 0, 0 without an error). -/
def resErr : Host.Outcome State Fault Refusal → Option (Word × Word)
  | .next t => some (t.regs.res, t.errcode.word)
  | .fault _ => none
  | .refused _ => none

/-- PR_LEN and the coefficients of PR below it. -/
def prOf : Host.Outcome State Fault Refusal → Option (Nat × List Byte)
  | .next t => some (t.regs.prLen.toNat, (List.range t.regs.prLen.toNat).map t.prAt)
  | .fault _ => none
  | .refused _ => none

/-- The outcome's next state. -/
def stateOf : Host.Outcome State Fault Refusal → State
  | .next t => t
  | .fault _ => State.reset
  | .refused _ => State.reset

def withOps (a b : Word) : State := { State.reset with regs := { Regs.reset with opa := a, opb := b } }

/-- PA and PB hold the given polynomials, OPA the given number. -/
def withPolys (p q : List Byte) (n : Word) : State :=
  { State.reset with
    regs := { Regs.reset with paLen := BitVec.ofNat 9 p.length, pbLen := BitVec.ofNat 9 q.length, opa := n }
    mems := { Mems.fresh 0 with pa := ⟨4, numbered 0 p⟩, pb := ⟨5, numbered 0 q⟩ } }

def withBits (bits : List Bool) (a b : Word) : State :=
  { State.reset with
    regs := { Regs.reset with bbLen := BitVec.ofNat 16 bits.length, opa := a, opb := b }
    mems := { Mems.fresh 0 with bb := ⟨2, numbered 0 bits⟩ } }

def withText (t : List Word) : State :=
  { State.reset with
    regs := { Regs.reset with textLen := BitVec.ofNat 13 t.length }
    mems := { Mems.fresh 0 with text := ⟨0, numbered 0 t⟩ } }

/-- A loaded segment of `len` bytes, with a level and a forced version. -/
def withSegment (len : Nat) (ec : BitVec 2) (fv : BitVec 6) : State :=
  { State.reset with
    status := { Status.reset with segValid := true }
    regs := { Regs.reset with segLen := BitVec.ofNat 12 len, ecLevel := ec, forceVersion := fv } }

/-- An empty segment and the selection of version 1 at level M. -/
def selected : State := (withSegment 0 0 0).setVersion 1 0

/-- Codewords of version 1 at level M, all zero. -/
def withCodewords : State := selected.setCodewords (List.replicate 26 0)

/-- WORK of size n, every cell light, valid. -/
def withWork (n : Nat) : State :=
  { State.reset with
    status := { Status.reset with workValid := true }
    regs := { Regs.reset with workSize := BitVec.ofNat 8 n }
    mems := { Mems.fresh 0 with work := ⟨7, numbered 0 (List.replicate (177 * n) 1)⟩ } }

/-- A symbol of size 21 whose module (0, 0) is dark. -/
def withGrid (row col : Word) : State :=
  { State.reset with
    status := { Status.reset with gridValid := true }
    regs := { Regs.reset with gridSize := 21, qrow := row, qcol := col }
    mems := { Mems.fresh 0 with grid := ⟨8, [(0, true), (1, false)]⟩ } }

def busyWith (w : Word) : State := { State.reset with phase := .busy w }

def withError : State := { State.reset with status := { Status.reset with done := true, err := true } }

/-- The host's program is the one line given. -/
def withLine (l : HostLine) : State := { State.reset with host := ⟨[l], 0, [], false⟩ }

/-! ## Ill-formed words (R84): each check refuses one -/

theorem test_wf_reserved_opcode : (Fields.mk 0 0 0 0x02).opAssigned = false := by decide
theorem test_wf_reserved_bits : (Fields.mk 1 0 0 0x40).rsvdZero = false := by decide
theorem test_wf_mask_outside_build : (Fields.mk 0 0 1 0x41).maskTestZero = false := by decide
theorem test_wf_test_outside_build : (Fields.mk 0 1 0 0x50).wellFormed = false := by decide
theorem test_wf_mask_and_test_in_build : (Fields.mk 0 1 7 0x40).wellFormed = true := by decide

/-! ## Decoding: words written out from R80 and the opcodes of R83 -/

theorem test_decode_nop : decode 0b00000000000000000000000000000000 = .ok .nop := rfl
theorem test_decode_softReset : decode 0b00000000000000000000000000000001 = .ok .softReset := rfl
theorem test_decode_gfExp : decode 0b00000000000000000000000000010000 = .ok .gfExp := rfl
theorem test_decode_gfLog : decode 0b00000000000000000000000000010001 = .ok .gfLog := rfl
theorem test_decode_gfMul : decode 0b00000000000000000000000000010010 = .ok .gfMul := rfl
theorem test_decode_polyMul : decode 0b00000000000000000000000000011000 = .ok .polyMul := rfl
theorem test_decode_polyMod : decode 0b00000000000000000000000000011001 = .ok .polyMod := rfl
theorem test_decode_rsGenpoly : decode 0b00000000000000000000000000011010 = .ok .rsGenpoly := rfl
theorem test_decode_rsEcc : decode 0b00000000000000000000000000011011 = .ok .rsEcc := rfl
theorem test_decode_bbClear : decode 0b00000000000000000000000000100000 = .ok .bbClear := rfl
theorem test_decode_bbPut : decode 0b00000000000000000000000000100001 = .ok .bbPut := rfl
theorem test_decode_bbGet : decode 0b00000000000000000000000000100010 = .ok .bbGet := rfl
theorem test_decode_segLoad : decode 0b00000000000000000000000000110000 = .ok .segLoad := rfl
theorem test_decode_selectVersion : decode 0b00000000000000000000000000110001 = .ok .selectVersion := rfl
theorem test_decode_buildCodewords : decode 0b00000000000000000000000000110010 = .ok .buildCodewords := rfl
theorem test_decode_matrixBuild : decode 0b00000000000000000000110101000000 = .ok (.matrixBuild 5 true) := rfl
theorem test_decode_penalty : decode 0b00000000000000000000000001000001 = .ok .penalty := rfl
theorem test_decode_commit : decode 0b00000000000000000000000001000010 = .ok .commit := rfl
theorem test_decode_maskSearch : decode 0b00000000000000000000000001000011 = .ok .maskSearch := rfl
theorem test_decode_encode : decode 0b00000000000000000000000001010000 = .ok .encode := rfl
theorem test_decode_query : decode 0b00000000000000000000000001100000 = .ok .query := rfl
theorem test_decode_reserved : decode 0x000000FF = .error (.reservedOpcode 0xFF) := rfl
theorem test_decode_table_word : decodeTableWord 32 0xD40 = some (.matrixBuild 5 true) := by decide

/-! ## One step of each command -/

theorem test_nop : (stateOf (exec .nop (busyWith 0))).statusWord = 0x00000002 := by decide
theorem test_softReset : (stateOf (exec .softReset withError)).statusWord = 0x00000002 := by decide
/-- 3.1 -/
theorem test_gfExp_minus_one : resErr (exec .gfExp (withOps 0xFFFFFFFF 0)) = some (0x8E, 0) := by decide
theorem test_gfExp_min : resErr (exec .gfExp (withOps 0x80000000 0)) = some (0xCC, 0) := by decide
/-- 3.2 -/
theorem test_gfLog : resErr (exec .gfLog (withOps 0x53 0)) = some (0xCE, 0) := by decide
theorem test_gfLog_zero : resErr (exec .gfLog (withOps 0 0)) = some (0, 0x00111104) := by decide
/-- 3.3 -/
theorem test_gfMul : resErr (exec .gfMul (withOps 0x53 0xCA)) = some (0x8F, 0) := by decide
theorem test_gfMul_operand : resErr (exec .gfMul (withOps 0x100 0x02)) = some (0, 0x00121205) := by decide
/-- 3.4 -/
theorem test_polyMul :
    prOf (exec .polyMul (withPolys [0x02, 0x03, 0x04] [0x05, 0x06] 0)) = some (4, [0x0A, 0x03, 0x1E, 0x18]) := by decide
theorem test_polyMul_strips_zeros : prOf (exec .polyMul (withPolys [0, 0, 0x05] [0x07] 0)) = some (1, [0x1B]) := by decide
/-- 3.5 -/
theorem test_polyMod :
    prOf (exec .polyMod (withPolys [0x01, 0x02, 0x03, 0x04, 0x05] [0x01, 0x07, 0x06] 0)) = some (2, [0x40, 0x41]) := by decide
theorem test_polyMod_zero_divisor :
    resErr (exec .polyMod (withPolys [0x01, 0x02] [0, 0] 0)) = some (0, 0x00191905) := by decide
/-- 3.6 -/
theorem test_rsGenpoly :
    prOf (exec .rsGenpoly (withOps 7 0)) = some (8, [0x01, 0x7F, 0x7A, 0x9A, 0xA4, 0x0B, 0x44, 0x75]) := by decide
theorem test_rsGenpoly_range : resErr (exec .rsGenpoly (withOps 256 0)) = some (0, 0x001A1A05) := by decide
/-- 2.2, the published vector -/
theorem test_rsEcc_published :
    prOf (exec .rsEcc (withPolys [0x20, 0x5B, 0x0B, 0x78, 0xD1, 0x72, 0xDC, 0x4D, 0x43, 0x40, 0xEC, 0x11, 0xEC, 0x11, 0xEC, 0x11]
      [] 10)) = some (10, [0xC4, 0x23, 0x27, 0x77, 0xEB, 0xD7, 0xE7, 0xE2, 0x5D, 0x17]) := by decide
/-- 3.7 -/
theorem test_rsEcc_leading_zeros : prOf (exec .rsEcc (withPolys [0, 0, 0x01] [] 3)) = some (3, [0x07, 0x0E, 0x08]) := by decide
/-- BB holds 1, 0, 1 with BB_LEN = 0, as after a SOFT_RESET (R271). -/
def keptBits (a b : Word) : State :=
  { withBits [true, false, true] a b with regs := { Regs.reset with opa := a, opb := b } }

/-- R142: put writes the one bit of its field. -/
theorem test_bbPut_field_only :
    (stateOf (exec .bbPut (keptBits 0 1))).regs.bbLen = 1 ∧
      (List.range 3).map (stateOf (exec .bbPut (keptBits 0 1))).bbAt = [false, false, true] := by decide
/-- 6.1 -/
theorem test_bbPut_bits :
    (List.range 12).map (stateOf (exec .bbPut (withBits [true, false, true, true, true, true, false, true, true, false, false] 1 1))).bbAt =
      [true, false, true, true, true, true, false, true, true, false, false, true] := by decide
theorem test_bbGet : resErr (exec .bbGet (withBits [true, false, true] 2 0)) = some (1, 0) := by decide
theorem test_bbGet_unsigned : resErr (exec .bbGet (withBits [true, false, true] 0xFFFFFFFF 0)) = some (0, 0x00222203) := by decide
theorem test_bbClear : (stateOf (exec .bbClear (withBits [true, false, true] 0 0))).regs.bbLen = 0 := by decide
/-- 6.2 -/
theorem test_segLoad_mark :
    (List.range 5).map (stateOf (exec .segLoad (withText [0xE9]))).segAt = [0xEF, 0xBB, 0xBF, 0xC3, 0xA9] := by decide
theorem test_segLoad_lowest_bad_index :
    resErr (exec .segLoad (withText [0x41, 0xD800, 0x110000])) = some (1, 0x00303007) := by decide
/-- 5.1 -/
theorem test_selectVersion :
    (stateOf (exec .selectVersion (withSegment 11 2 0))).regs.version = 2 ∧
      (stateOf (exec .selectVersion (withSegment 11 2 0))).regs.totalCw = 44 := by decide
theorem test_selectVersion_forced_too_small :
    resErr (exec .selectVersion (withSegment 12 3 1)) = some (0, 0x00313101) := by decide
set_option maxRecDepth 20000 in
/-- 5.3, the empty text at level M -/
theorem test_buildCodewords :
    (List.range 26).map (stateOf (exec .buildCodewords selected)).cwAt =
      [0x40, 0x00, 0xEC, 0x11, 0xEC, 0x11, 0xEC, 0x11, 0xEC, 0x11, 0xEC, 0x11, 0xEC, 0x11, 0xEC, 0x11] ++
      [0x08, 0xB1, 0xA5, 0x39, 0x52, 0x62, 0x38, 0x3B, 0x9F, 0x34] := by decide
/-- 5.6 -/
theorem test_buildCodewords_sequence : resErr (exec .buildCodewords State.reset) = some (0, 0x00323208) := by decide
theorem test_matrixBuild_size : (stateOf (exec (.matrixBuild 3 false) withCodewords)).regs.workSize = 21 := by decide
/-- 5.6 -/
theorem test_matrixBuild_sequence : resErr (exec (.matrixBuild 0 false) State.reset) = some (0, 0x00404008) := by decide
theorem test_penalty_sequence : resErr (exec .penalty State.reset) = some (0, 0x00414108) := by decide
theorem test_commit_test_build :
    resErr (exec .commit { withWork 21 with status := { Status.reset with workValid := true, workTest := true } }) =
      some (0, 0x00424208) := by decide
theorem test_maskSearch_sequence : resErr (exec .maskSearch State.reset) = some (0, 0x00434308) := by decide
/-- 6.2 under ENCODE (S8): ERRCODE.OP is ENCODE's, STEP the failing step's. -/
theorem test_encode_step : resErr (exec .encode (withText [0xD800])) = some (0, 0x00305007) := by decide
/-- S9 -/
theorem test_query_negative : resErr (exec .query (withGrid 0xFFFFFFFF 0)) = some (0, 0x00606003) := by decide
theorem test_query_dark : resErr (exec .query (withGrid 0 0)) = some (1, 0) := by decide

/-! ## Functions of the rules -/

/-- 44_matrix.md R207 and R210; section 1 -/
theorem test_format_and_version_words :
    formatWord 1 0 = 0x77C4 ∧ formatWord 0 0 = 0x5412 ∧ formatWord 3 3 = 0x3A06 ∧ versionWord 7 = 0x07C94 := by decide
/-- S10: a run of 10 adds 8 -/
theorem test_run_of_ten : runPenalty 5 10 = 8 ∧ runPenalty 4 10 = 9 ∧ runPenalty 5 4 = 0 := by decide
set_option maxRecDepth 20000 in
/-- 8.3: all light -/
theorem test_score_all_light :
    score Config.params 21 (List.replicate 21 (List.replicate 21 false)) = ⟨798, 1200, 0, 90⟩ := by decide
/-- 8.3, last row: one finder-like pattern at the left edge -/
theorem test_finder_like_at_edge :
    finderLikeAt true ([true, false, true, true, true, false, true] ++ List.replicate 4 false ++ [true]) 0 = true ∧
      finderLikeAt false ([true, false, true, true, true, false, true] ++ List.replicate 3 false ++ [true]) 0 = false := by decide
/-- 8.2: the tie-break -/
theorem test_select_tie : selectMask [5, 3, 3, 9, 3, 4, 4, 4] = 1 := by decide
/-- 6.1: BB word 0 after the twelve bits is 0x000090BD -/
theorem test_bb_window :
    (withBits ([true, false, true, true, true, true, false, true, true, false, false, true] ++ List.replicate 20 false) 0 0).readWindow
      .bb 0 = 0x000090BD := by decide
/-- 20_memory.md R56: field 1 of a WORK word is column 1 -/
theorem test_work_window : ((withWork 1).busWrite (.word .work 0) 0x00000008).workAt 0 1 = 2 := by decide

/-! ## The host -/

theorem test_host_writes_command : (stateOf (step (withLine (.command .gfMul)))).phase = .busy 0x12 := by decide
theorem test_host_reads_id :
    (stateOf (step (withLine (.rd (.reg .id) (some 0))))).host.named = [(0, 0x51524D31)] := by decide
theorem test_first_instruction_runs :
    resErr (step (State.reset.withFetchWord 32 0x10)) = some (1, 0) := by decide

/-! ## Witnesses: for each statement with hypotheses, data that meets them -/

theorem test_hyp_DecodeAcceptsOnlyEncodedWords : decode 0x00000F40 = .ok (.matrixBuild 7 true) := rfl

theorem test_hyp_IllegalWordsCompleteWithIllegalCommand :
    ∀ i, decode 0x1040 ≠ .ok i := fun i h => by
  have : decode 0x1040 = .error .reservedBits := rfl
  rw [this] at h; cases h

theorem test_hyp_StepRunsTheDecodedCommand :
    (busyWith 0x12).phase = .busy 0x12 ∧ decode 0x12 = .ok .gfMul ∧ (busyWith 0x12).sched = [] ∧
      ({ busyWith 0x12 with sched := [.engine, .host] } : State).sched = .engine :: [.host] :=
  ⟨rfl, rfl, rfl, rfl⟩

/-- The host to move with and without a scheduled turn, and each kind of line: WR and RD of the last TEXT word, a command, a
misaligned access, BR and EXPECT of a named value, a window word past the end, a name without a value, and no line left. -/
theorem test_hyp_StepRunsTheHostLine :
    (HostMoves (withLine (.wr (.word .text 4095) 5)) (withLine (.wr (.word .text 4095) 5)) ∧
      HostMoves { withLine (.rd (.reg .id) (some 0)) with sched := [.host] } (withLine (.rd (.reg .id) (some 0)))) ∧
      (LineMakes (.wr (.word .text 4095) 5) (.write .word 0x07FFC 5) ∧
        (withLine (.wr (.word .text 4095) 5)).admission (.write .word 0x07FFC 5) = .ok (.word .text 4095)) ∧
      (LineMakes (.rd (.word .text 4095) (some 0)) (.read .word 0x07FFC) ∧
        State.reset.admission (.read .word 0x07FFC) = .ok (.word .text 4095)) ∧
      (LineMakes (.command .gfMul) (.write .word 0x00004 0x12) ∧
        State.reset.admission (.write .word 0x00004 0x12) = .ok (.reg .cmd)) ∧
      (LineMakes (.bus (.read .word 0x2)) (.read .word 0x2) ∧ State.reset.admission (.read .word 0x2) = .error .misaligned) ∧
      List.lookup 3 [(3, (7 : Word)), (3, 8)] = some 7 ∧
      (LineRefused State.reset.host (.wr (.word .pa 64) 0) (.badTarget .pa 64) ∧
        LineRefused State.reset.host (.br 0 0 true 0) (.unboundName 0)) ∧
      State.reset.host.prog.length ≤ State.reset.host.line :=
  ⟨⟨.inl ⟨rfl, rfl, rfl⟩, .inr ⟨[], rfl, rfl⟩⟩, ⟨⟨by unfold TargetExists InWindow; decide, rfl⟩, rfl⟩,
    ⟨⟨by unfold TargetExists InWindow; decide, rfl⟩, rfl⟩, ⟨rfl, rfl⟩, ⟨rfl, rfl⟩, rfl,
    ⟨⟨by unfold InWindow; decide, rfl⟩, ⟨rfl, rfl⟩⟩, by decide⟩

theorem test_hyp_CmdWriteIsDroppedIgnoredOrAccepted :
    (busyWith 0).phase.isBusy = true ∧
      (withError.phase = .idle ∧ withError.status.err = true ∧ (0x00000002 : Word) ≠ 0x00000001) ∧
      (State.reset.phase = .idle ∧ State.reset.status.err = false) := by decide

theorem test_hyp_WritesWhileBusyAreDropped : (busyWith 0).phase.isBusy = true ∧ Place.reg .opa ≠ .reg .irqEn := by decide

theorem test_hyp_ReadsHaveNoSideEffect :
    State.reset.phase = .idle ∧ Place.reg .irqEn ∈ [Place.reg .id, Place.reg .status, Place.reg .errcode, Place.reg .irqEn] ∧
      (busyWith 0).phase.isBusy = true ∧
      Place.reg .res ∉ [Place.reg .id, Place.reg .status, Place.reg .errcode, Place.reg .irqEn] := by decide

theorem test_hyp_StatusWriteClearsOnlyTheBitsWrittenOne :
    withError.phase = .idle ∧ (0x00000004 : Word).getLsbD 2 = true := by decide

/-- The last mapped and the first unmapped offset of the register window, a narrow access, and RST. -/
theorem test_hyp_AccessIsAdmittedExactlyWhenAlignedWordAndMapped :
    State.reset.admission (.read .word 0x000A4) = .ok (.reg (.penalty 7)) ∧
      State.reset.admission (.read .word 0x000A8) = .error .unmapped ∧
      State.reset.admission (.read .half 0x00000) = .error .narrow ∧
      State.reset.admission (.write .word 0x127FC 0) = .ok (.word .logRom 255) ∧
      ({ State.reset with rst := true } : State).admission (.read .word 0x00000) = .error .inReset := ⟨rfl, rfl, rfl, rfl, rfl⟩

theorem test_hyp_OnlyTheStuckHostStopsTheSystem :
    step (withLine (.wr (.raw 0x2) 0)) = .fault (.hostStuck .misaligned) ∧
      step (withLine (.expect 0 0)) = .refused (.unboundName 0) := ⟨rfl, rfl⟩

theorem test_hyp_EveryCommandCompletes :
    Instr.gfLog ≠ .softReset ∧ (stateOf (exec .gfLog (withOps 1 0))).status.err = false := by decide

theorem test_hyp_FailedCommandWritesNoMemory :
    Instr.gfLog ≠ .encode ∧ (withOps 0 0).status.err = false ∧
      exec .gfLog (withOps 0 0) = .next (stateOf (exec .gfLog (withOps 0 0))) ∧
      (stateOf (exec .gfLog (withOps 0 0))).status.err = true := ⟨by decide, rfl, rfl, rfl⟩

theorem test_hyp_ResetInputGivesTheResetState :
    ({ busyWith 0x50 with sched := [.rst true] } : State).sched = .rst true :: [] := rfl

theorem test_hyp_GfLogIsTheLogarithm :
    256 ≤ (withOps 0x100 0).regs.opa.toNat ∧ (withOps 0 0).regs.opa.toNat = 0 ∧
      (0 < (withOps 0xFF 0).regs.opa.toNat ∧ (withOps 0xFF 0).regs.opa.toNat < 256) := by decide

theorem test_hyp_GfMulIsTheFieldProduct :
    256 ≤ (withOps 2 0x100).regs.opb.toNat ∧ ((withOps 0xFF 0xFF).regs.opa.toNat < 256 ∧ (withOps 0xFF 0xFF).regs.opb.toNat < 256) := by
  decide

/-- The last and the first index below n = 7. -/
theorem test_hyp_BlockWithItsEcIsDivisibleByTheGenerator : 0 < 7 ∧ 6 < 7 := by decide

/-- PA_LEN = 257. -/
def longPa : State := { State.reset with regs := { Regs.reset with paLen := 257, pbLen := 1 } }

/-- PA has 256 and PB 2 non-zero coefficients: a product of 257. -/
def longProduct : State := withPolys (List.replicate 256 1) [1, 1] 0

theorem norm_ones (n : Nat) (h : 0 < n) : norm (List.replicate n 0x01) = List.replicate n 0x01 := by
  cases n with
  | zero => omega
  | succ n => rfl

theorem paLen_longProduct : longProduct.regs.paLen.toNat = 256 := by
  show (BitVec.ofNat 9 (List.replicate 256 (1 : Byte)).length).toNat = 256
  rw [List.length_replicate]; rfl

theorem pa_withPolys (n : Nat) (h : n ≤ 256) (q : List Byte) (x : Word) :
    pa (withPolys (List.replicate n 1) q x) = List.replicate n 1 := by
  have hn : (withPolys (List.replicate n 1) q x).regs.paLen.toNat = n := by
    show (BitVec.ofNat 9 (List.replicate n (1 : Byte)).length).toNat = n
    rw [List.length_replicate, BitVec.toNat_ofNat]; omega
  rw [pa, hn]
  apply List.ext_getElem
  · simp
  · intro i h1 h2
    have hi : i < n := by simpa using h1
    simp [withPolys, State.paAt, Mem.read, findCell_numbered, hi]

theorem pa_longProduct : pa longProduct = List.replicate 256 1 := pa_withPolys 256 (by decide) _ _

theorem pb_longProduct : pb longProduct = [1, 1] := by decide

theorem test_hyp_PolyMulIsTheProduct :
    256 < longPa.regs.paLen.toNat ∧
      (longProduct.regs.paLen.toNat ≤ 256 ∧ longProduct.regs.pbLen.toNat ≤ 256 ∧ norm (pa longProduct) ≠ [] ∧
        norm (pb longProduct) ≠ [] ∧ 256 < (norm (pa longProduct)).length + (norm (pb longProduct)).length - 1) ∧
      ((withPolys [0, 0] [1] 0).regs.paLen.toNat ≤ 256 ∧ (withPolys [0, 0] [1] 0).regs.pbLen.toNat ≤ 256 ∧
        norm (pa (withPolys [0, 0] [1] 0)) = []) ∧
      ((withPolys [1, 2] [0, 3] 0).regs.paLen.toNat ≤ 256 ∧ (withPolys [1, 2] [0, 3] 0).regs.pbLen.toNat ≤ 256 ∧
        norm (pa (withPolys [1, 2] [0, 3] 0)) ≠ [] ∧ norm (pb (withPolys [1, 2] [0, 3] 0)) ≠ [] ∧
        (norm (pa (withPolys [1, 2] [0, 3] 0))).length + (norm (pb (withPolys [1, 2] [0, 3] 0))).length - 1 ≤ 256) := by
  refine ⟨by decide, ?_, by decide, by decide⟩
  rw [pa_longProduct, pb_longProduct, norm_ones 256 (by decide)]
  rw [paLen_longProduct]
  exact ⟨by decide, by decide, fun h => (by have h := congrArg List.length h; rw [List.length_replicate] at h; cases h), by decide, by rw [List.length_replicate]; decide⟩

theorem test_hyp_PolyModLeavesTheRemainder :
    256 < longPa.regs.paLen.toNat ∧
      ((withPolys [1] [0, 0] 0).regs.paLen.toNat ≤ 256 ∧ (withPolys [1] [0, 0] 0).regs.pbLen.toNat ≤ 256 ∧
        norm (pb (withPolys [1] [0, 0] 0)) = []) ∧
      ((withPolys [1] [0, 3] 0).regs.paLen.toNat ≤ 256 ∧ (withPolys [1] [0, 3] 0).regs.pbLen.toNat ≤ 256 ∧
        norm (pb (withPolys [1] [0, 3] 0)) ≠ []) := by decide

theorem test_hyp_RemainderIsShorterThanTheDivisor :
    norm [0x00, 0x01, 0x02] ≠ [] ∧ (norm [0x05]).length < (norm [0x00, 0x01, 0x02]).length := by decide

/-- 3.5 through the definitions the statements are written in: 01 02 03 04 05 = (01 05 1E)(01 07 06) ⊕ (40 41), term by term. -/
theorem test_hyp_divisionCoefficient :
    ∀ d, d < 6 → coefficient [0x01, 0x02, 0x03, 0x04, 0x05] d = divisionCoefficient [0x01, 0x05, 0x1E] [0x01, 0x07, 0x06] [0x40, 0x41] d := by
  decide

theorem test_hyp_RsGenpolyLeavesTheGenerator :
    255 < (withOps 256 0).regs.opa.toNat ∧ ((withOps 255 0).regs.opa.toNat ≤ 255 ∧ 254 < (withOps 255 0).regs.opa.toNat) := by
  decide

theorem test_hyp_RsEccLeavesTheEcCodewords :
    256 < longPa.regs.paLen.toNat ∧ (longProduct.regs.paLen.toNat ≤ 256 ∧ longProduct.regs.opa.toNat ≤ 255) := by
  rw [paLen_longProduct]; decide

/-- BB_LEN = 32760, OPB as given (6.1). -/
def nearlyFull (b : Word) : State := { State.reset with regs := { Regs.reset with bbLen := 32760, opb := b } }

theorem test_hyp_BbPutAppendsTheField :
    32 < (nearlyFull 33).regs.opb.toNat ∧
      ((nearlyFull 9).regs.opb.toNat ≤ 32 ∧ 32768 < (nearlyFull 9).regs.bbLen.toNat + (nearlyFull 9).regs.opb.toNat) ∧
      ((nearlyFull 8).regs.opb.toNat ≤ 32 ∧ (nearlyFull 8).regs.bbLen.toNat + (nearlyFull 8).regs.opb.toNat ≤ 32768) := by decide

theorem test_hyp_BbGetReadsTheBit :
    (withBits [true] 1 0).regs.bbLen.toNat ≤ (withBits [true] 1 0).regs.opa.toNat ∧
      (withBits [true] 0 0).regs.opa.toNat < (withBits [true] 0 0).regs.bbLen.toNat := by decide

/-- The puts of 6.1. -/
def sixOne : List (Word × Nat) := [(0x5, 3), (0xEC, 8), (0x1, 1)]

theorem test_hyp_BitBufferReadsBackWhatWasPut :
    exec .bbClear State.reset = .next (State.reset.setBitBuffer []).complete ∧ (∀ f ∈ sixOne, f.2 ≤ 32) ∧
      (sixOne.map (·.2)).sum ≤ 32768 ∧ 11 < (sixOne.map (·.2)).sum := ⟨rfl, by decide, by decide, by decide⟩

/-- TEXT_LEN = n, every TEXT word 0x41. -/
def longText (n : Nat) : State :=
  { State.reset with
    regs := { Regs.reset with textLen := BitVec.ofNat 13 n }
    mems := { Mems.fresh 0 with text := ⟨0, numbered 0 (List.replicate n 0x41)⟩ } }

theorem text_longText (n : Nat) (h : n ≤ 4096) : text (longText n) = List.replicate n 0x41 := by
  have hn : (longText n).regs.textLen.toNat = n := by
    show (BitVec.ofNat 13 n).toNat = n
    rw [BitVec.toNat_ofNat]; omega
  rw [text, hn]
  apply List.ext_getElem
  · simp
  · intro i h1 h2
    have hi : i < n := by simpa using h1
    simp [longText, State.textAt, Mem.read, findCell_numbered, hi]

theorem payload_longText (n : Nat) : payload (List.replicate n 0x41) = List.replicate n 0x41 := by
  have h : ∀ n, (List.replicate n (0x41 : Word)).flatMap (fun w => utf8 w.toNat) = List.replicate n 0x41 := by
    intro n
    induction n with
    | zero => rfl
    | succ n ih => rw [List.replicate_succ, List.flatMap_cons, ih]; rfl
  simp only [payload, h, List.length_replicate, ne_eq, not_true_eq_false, if_false]

theorem test_hyp_SegLoadBuildsTheSegment :
    4096 < (longText 4097).regs.textLen.toNat ∧
      ((withText [0x41, 0xD800]).regs.textLen.toNat ≤ 4096 ∧ 1 < (withText [0x41, 0xD800]).regs.textLen.toNat ∧
        ¬ IsCodepoint ((withText [0x41, 0xD800]).textAt 1) ∧ ∀ j, j < 1 → IsCodepoint ((withText [0x41, 0xD800]).textAt j)) ∧
      ((longText 2954).regs.textLen.toNat ≤ 4096 ∧ (∀ w ∈ text (longText 2954), IsCodepoint w) ∧
        2953 < (payload (text (longText 2954))).length) ∧
      ((longText 2953).regs.textLen.toNat ≤ 4096 ∧ (∀ w ∈ text (longText 2953), IsCodepoint w) ∧
        (payload (text (longText 2953))).length ≤ 2953) := by
  have valid : ∀ n, ∀ w ∈ List.replicate n (0x41 : Word), IsCodepoint w := by
    intro n w hw
    rw [(List.mem_replicate.1 hw).2]
    unfold IsCodepoint; decide
  refine ⟨by decide, ⟨by decide, by decide, by unfold IsCodepoint; decide, ?_⟩, ⟨by decide, ?_, ?_⟩, ⟨by decide, ?_, ?_⟩⟩
  · intro j hj
    obtain rfl : j = 0 := by omega
    unfold IsCodepoint; decide
  · rw [text_longText 2954 (by decide)]; exact valid 2954
  · rw [text_longText 2954 (by decide), payload_longText, List.length_replicate]; decide
  · rw [text_longText 2953 (by decide)]; exact valid 2953
  · rw [text_longText 2953 (by decide), payload_longText, List.length_replicate] <;> decide

/-- The ends of the four ranges, and a text with and one without a code point of 0x80 or above. -/
theorem test_hyp_PayloadIsUtf8WithTheMarkForNonAscii :
    (utf8 0x7F = [0x7F] ∧ utf8 0x80 = [0xC2, 0x80] ∧ utf8 0x7FF = [0xDF, 0xBF] ∧ utf8 0x800 = [0xE0, 0xA0, 0x80] ∧
      utf8 0xFFFF = [0xEF, 0xBF, 0xBF] ∧ utf8 0x10000 = [0xF0, 0x90, 0x80, 0x80] ∧
      utf8 0x10FFFF = [0xF4, 0x8F, 0xBF, 0xBF]) ∧
      ((∀ w ∈ ([0x80] : List Word), IsCodepoint w) ∧ ∃ w ∈ ([0x80] : List Word), 0x80 ≤ w.toNat) ∧
      ((∀ w ∈ ([0x7F] : List Word), IsCodepoint w) ∧ ∀ w ∈ ([0x7F] : List Word), w.toNat < 0x80) :=
  ⟨by decide, by simp [IsCodepoint], by simp [IsCodepoint]⟩

theorem test_hyp_SelectVersionTakesTheSmallestThatFits :
    State.reset.status.segValid = false ∧
      ((withSegment 11 0 41).status.segValid = true ∧ 40 < (withSegment 11 0 41).regs.forceVersion.toNat) ∧
      ((withSegment 12 3 1).status.segValid = true ∧ 1 ≤ (withSegment 12 3 1).regs.forceVersion.toNat ∧
        (withSegment 12 3 1).regs.forceVersion.toNat ≤ 40 ∧ cap 1 3 < (withSegment 12 3 1).regs.segLen.toNat) ∧
      ((withSegment 2954 1 0).status.segValid = true ∧ (withSegment 2954 1 0).regs.forceVersion.toNat = 0 ∧
        ∀ v, 1 ≤ v → v ≤ 40 → cap v 1 < (withSegment 2954 1 0).regs.segLen.toNat) ∧
      ((withSegment 11 3 5).regs.forceVersion.toNat = 5 ∧ (withSegment 11 3 5).regs.segLen.toNat ≤ cap 5 3) ∧
      ((withSegment 11 2 0).regs.segLen.toNat ≤ cap 2 2 ∧
        ∀ u, 1 ≤ u → u < 2 → cap u 2 < (withSegment 11 2 0).regs.segLen.toNat) := by
  refine ⟨rfl, by decide, by decide, ⟨rfl, by decide, fun v h1 h2 => ?_⟩, by decide, by decide, fun u h1 h2 => ?_⟩
  · exact Nat.lt_of_le_of_lt (cap_le v 1 h1 h2).2 (by decide)
  · obtain rfl : u = 1 := by omega
    decide

theorem test_hyp_BuildCodewordsNeverExceedsCapacity :
    (State.reset.VersionLegal ∧ State.reset.SelectionFits ∧ State.reset.status.verValid = false) ∧
      (selected.VersionLegal ∧ selected.SelectionFits ∧ selected.status.verValid = true) := by
  refine ⟨⟨.inl ⟨rfl, rfl⟩, fun h => ?_, rfl⟩, .inr ⟨by decide, by decide, by decide⟩, fun _ => by decide, rfl⟩
  cases h

/-- The longest and the shortest payload, and the last bit of the last codeword of version 40 at level L. -/
theorem test_hyp_BitstreamFillsTheDataCodewords :
    (List.replicate 2953 (0x41 : Byte)).length ≤ cap 40 1 ∧ ([] : List Byte).length ≤ cap 1 2 ∧
      2955 < dataCodewords 40 1 ∧ 7 < 8 := by
  rw [List.length_replicate]; decide

/-- 43_codeword.md R177: byte j is bits 8j..8j+7, the first the most significant. -/
theorem test_pack_msb_first :
    packBytes ([false, true, false, false, false, false, false, false] ++ true :: List.replicate 7 false) 2 = [0x40, 0x80] := by
  decide

/-- Version 5 at level Q: two blocks of (33, 15), two of (34, 16). -/
theorem test_hyp_StreamInterleavesTheBlocks :
    (List.replicate 62 (0 : Byte)).length = dataCodewords 5 3 ∧ (blocks 5 3)[0]? = some (33, 15) ∧
      (blocks 5 3)[3]? = some (34, 16) ∧ 15 < 16 ∧ 17 < 34 - 16 := by decide

/-- The boundary versions are in range. -/
theorem test_hyp_version_range : (1 ≤ 1 ∧ 1 ≤ 40) ∧ (1 ≤ 40 ∧ 40 ≤ 40) ∧ 0 < 4 * 1 + 17 ∧ 176 < 4 * 40 + 17 := by decide

/-- The last format and version bit, and the last mask and level. -/
theorem test_hyp_InformationCellsCarryTheirWords : 3 < 4 ∧ 7 < 8 ∧ 14 < 15 ∧ (7 ≤ 7 ∧ 7 ≤ 40) ∧ 17 < 18 := by decide

/-- The ends of the finder corners and of the timing lines, and an alignment pattern that lies on a timing line. -/
theorem test_hyp_FixedPatternsAreMaskInvariant :
    7 < 8 ∧ (IsAlignmentCentre 2 18 18 ∧ IsAlignmentCentre 7 6 22 ∧ ¬ IsAlignmentCentre 7 6 38) ∧ 4 < 5 ∧
      (8 ≤ 8 ∧ 8 ≤ 4 * 1 + 17 - 9) ∧ (8 ≤ 12 ∧ 12 ≤ 4 * 1 + 17 - 9) := by
  unfold IsAlignmentCentre; decide

set_option maxRecDepth 20000 in
/-- The first data cells of version 1, the last of a first and the first of a second codeword, and both cases of a mask. -/
theorem test_hyp_DataCellsCarryTheMaskedCodewords :
    ((dataCells 1)[0]? = some (20, 20) ∧ (dataCells 1)[7]? = some (17, 19) ∧ (dataCells 1)[8]? = some (16, 20)) ∧
      (7 < 8 * [(0x80 : Byte)].length ∧ 8 * [(0x80 : Byte)].length ≤ 8) ∧ MaskInverts 7 17 19 ∧ ¬ MaskInverts 7 20 20 :=
  ⟨by decide, by decide, by show (17 * 19 % 3 + (17 + 19) % 2) % 2 = 0; decide,
    by show ¬ (20 * 20 % 3 + (20 + 20) % 2) % 2 = 0; decide⟩

theorem test_hyp_MatrixBuildFillsWork :
    State.reset.status.cwValid = false ∧
      (withCodewords.status.cwValid = true ∧ 1 ≤ withCodewords.regs.version.toNat ∧ withCodewords.regs.version.toNat ≤ 40) := by
  decide

theorem withWork_light (n r c : Nat) (hr : r < n) (hc : c < 177) : (withWork n).workAt r c = 1 := by
  have h : 177 * r + c < 177 * n := by omega
  simp [State.workAt, cellIndex, withWork, Mem.read, findCell_numbered, h]

/-- WORK_SIZE = 21 and cell (0, 0) unset. -/
def unsetWork : State :=
  { State.reset with
    regs := { Regs.reset with workSize := 21 }
    mems := { Mems.fresh 0 with work := ⟨7, [(0, 0)]⟩ } }

theorem test_hyp_PenaltyScoresWork :
    State.reset.regs.workSize.toNat = 0 ∧
      ((withWork 22).regs.workSize.toNat ≠ 0 ∧ ¬ ∃ v, 1 ≤ v ∧ v ≤ 40 ∧ (withWork 22).regs.workSize.toNat = 4 * v + 17) ∧
      (unsetWork.regs.workSize.toNat = 4 * 1 + 17 ∧
        ∃ r c, r < 21 ∧ c < 21 ∧ unsetWork.workAt r c ≠ 0b01 ∧ unsetWork.workAt r c ≠ 0b10) ∧
      ((withWork 21).regs.workSize.toNat = 4 * 1 + 17 ∧
        ∀ r c, r < 21 → c < 21 → (withWork 21).workAt r c = 0b01 ∨ (withWork 21).workAt r c = 0b10) := by
  refine ⟨rfl, ⟨fun h => ?_, fun h => ?_⟩, ⟨rfl, 0, 0, by decide, by decide, ?_⟩, rfl, fun r c hr hc => ?_⟩
  · cases h
  · obtain ⟨v, h1, h2, h3⟩ := h
    have : (withWork 22).regs.workSize.toNat = 22 := rfl
    omega
  · have : unsetWork.workAt 0 0 = 0 := rfl
    rw [this]; decide
  · exact .inl (withWork_light 21 r c hr (by omega))

/-- 21 rows of 21 light cells. -/
theorem test_hyp_PenaltyComponentsAreBounded :
    21 ≤ 21 ∧ (List.replicate 21 (List.replicate 21 false)).length = 21 ∧
      ∀ row ∈ List.replicate 21 (List.replicate 21 false), row.length = 21 := by decide

/-- A line with a run of five and a finder-like pattern at the edge, through the definitions the statement is written in. -/
theorem test_hyp_PenaltyRulesCountTheirPatterns :
    ([[true, true], [true, false]] : List (List Bool)).length = 2 ∧
      (∀ row ∈ ([[true, true], [true, false]] : List (List Bool)), row.length = 2) ∧
      isRun 5 (fun _ => true) 0 5 = true ∧ isRun 5 (fun _ => true) 0 4 = false ∧
      isFinderLike Config.params 7 (fun i => i != 1 && i != 5) 0 = true := by decide

theorem test_hyp_SelectionIsTheLowestMinimum :
    ([7, 3, 5, 3] : List Nat) ≠ [] ∧ selectMask [7, 3, 5, 3] = 1 ∧ 1 < ([7, 3, 5, 3] : List Nat).length := by decide

theorem test_hyp_MaskSearchCommitsTheBestBuild :
    State.reset.status.cwValid = false ∧
      (withCodewords.status.cwValid = true ∧ 1 ≤ withCodewords.regs.version.toNat ∧ withCodewords.regs.version.toNat ≤ 40) := by
  decide

theorem test_hyp_CommitCopiesTheRealBuild :
    State.reset.status.workValid = false ∧
      ((withWork 177).status.workValid = true ∧ (withWork 177).status.workTest = false ∧
        (withWork 177).regs.workSize.toNat ≤ 177) :=
  ⟨rfl, rfl, rfl, by show (BitVec.ofNat 8 177).toNat ≤ 177; decide⟩

theorem test_hyp_EncodeCommitsASymbolForEveryTextThatFits :
    (withText [0x48, 0xE9]).regs.textLen.toNat ≤ 4096 ∧ (∀ w ∈ text (withText [0x48, 0xE9]), IsCodepoint w) ∧
      ((withText [0x48, 0xE9]).regs.forceVersion.toNat = 0 ∧
        (payload (text (withText [0x48, 0xE9]))).length ≤ cap 40 (withText [0x48, 0xE9]).regs.ecLevel) ∧
      ((withSegment 0 0 40).regs.textLen.toNat = 0 ∧ 1 ≤ (withSegment 0 0 40).regs.forceVersion.toNat ∧
        (withSegment 0 0 40).regs.forceVersion.toNat ≤ 40 ∧ text (withSegment 0 0 40) = [] ∧ payload [] = []) := by
  have h : text (withText [0x48, 0xE9]) = [0x48, 0xE9] := by decide
  rw [h]
  exact ⟨by decide, by simp [IsCodepoint], by decide, by decide⟩

/-- The states of a run of the four steps from a state. -/
def stepsFrom (a : State) : State × State × State :=
  let b := stateOf (exec .segLoad a)
  let c := stateOf (exec .selectVersion b)
  (b, c, stateOf (exec .buildCodewords c))

theorem exec_next (i : Instr) (hi : i ≠ .encode) (s : State) : exec i s = .next (stateOf (exec i s)) := by
  rw [exec_eq_finish s i hi]
  obtain ⟨t, ht, -⟩ := finish_next i.opcode (resultOf i s)
  rw [ht]; rfl

theorem steps_exec (a : State) :
    exec .segLoad a = .next (stepsFrom a).1 ∧ exec .selectVersion (stepsFrom a).1 = .next (stepsFrom a).2.1 ∧
      exec .buildCodewords (stepsFrom a).2.1 = .next (stepsFrom a).2.2 ∧
      exec .maskSearch (stepsFrom a).2.2 = .next (stateOf (exec .maskSearch (stepsFrom a).2.2)) :=
  ⟨exec_next _ (by decide) _, exec_next _ (by decide) _, exec_next _ (by decide) _, exec_next _ (by decide) _⟩

/-- The first step fails for an invalid code point, the second for FORCE_VERSION = 41, and none for the empty text. -/
theorem test_hyp_EncodeIsItsFourSteps :
    ((withText [0xD800]).status.err = false ∧ (stepsFrom (withText [0xD800])).1.status.err = true) ∧
      ((withSegment 0 0 41).status.err = false ∧ (stepsFrom (withSegment 0 0 41)).1.status.err = false ∧
        (stepsFrom (withSegment 0 0 41)).2.1.status.err = true) ∧
      ((stepsFrom State.reset).1.status.err = false ∧ (stepsFrom State.reset).2.1.status.err = false ∧
        (stepsFrom State.reset).2.2.status.err = false ∧ (stepsFrom State.reset).2.2.status.cwValid = true) := by decide

theorem test_hyp_QueryReadsTheCommittedModule :
    State.reset.status.gridValid = false ∧
      ((withGrid 0xFFFFFFFF 0).status.gridValid = true ∧ (withGrid 0xFFFFFFFF 0).regs.qrow.toInt < 0) ∧
      ((withGrid 21 0).regs.gridSize.toNat : Int) ≤ (withGrid 21 0).regs.qrow.toInt ∧
      ((withGrid 20 20).regs.qrow.toNat < (withGrid 20 20).regs.gridSize.toNat ∧
        (withGrid 20 20).regs.qcol.toNat < (withGrid 20 20).regs.gridSize.toNat) := by decide

/-- A step that changes no symbol, SOFT_RESET's, a scheduled COMMIT's and RST's. -/
theorem test_hyp_TheSymbolChangesOnlyAtACommit :
    step (busyWith 0) = .next (busyWith 0).complete ∧ step (busyWith 1) = .next (busyWith 1).resetRegisters.complete ∧
      (stateOf (step { withWork 21 with phase := .busy 0x42, sched := [.engine] })).status.gridValid = true ∧
      step { withGrid 0 0 with sched := [.rst true] } = .next ({ withGrid 0 0 with sched := [] } : State).assertReset :=
  ⟨rfl, rfl, rfl, rfl⟩

theorem test_hyp_TheEngineNeverWritesAHostInput :
    exec .gfExp State.reset = .next (State.reset.setRes 1).complete ∧ Instr.gfExp ≠ .softReset ∧
      Instr.gfExp ∉ [Instr.polyMul, .polyMod, .rsGenpoly, .rsEcc] ∧ Instr.gfExp ∉ [Instr.bbClear, .bbPut, .buildCodewords, .encode] ∧
      Instr.gfExp ∉ [Instr.segLoad, .encode] ∧ Instr.gfExp ∉ [Instr.buildCodewords, .encode] ∧
      Instr.gfExp ∉ [Instr.maskSearch, .encode] ∧ (∀ m test, Instr.gfExp ≠ .matrixBuild m test) ∧
      Instr.gfExp ∉ [Instr.commit, .maskSearch, .encode] :=
  ⟨rfl, by decide, by decide, by decide, by decide, by decide, by decide, by decide, by decide⟩

/-- A state with a word in flight meets the invariant, and its step answers a next state. -/
theorem test_hyp_EveryStepKeepsTheInvariant : (busyWith 0x20).Inv ∧ step (busyWith 0x20) = .next (stateOf (step (busyWith 0x20))) :=
  ⟨⟨rfl, by decide, by decide, .inl ⟨rfl, rfl⟩, fun h => (by cases h), by decide, by decide, by decide, .inl rfl⟩, rfl⟩

/-- The last words of the windows, a byte and a cell at the end of each, and a window that ignores writes. -/
theorem test_hyp_WindowWritesStoreTheirFields :
    State.reset.phase = .idle ∧ 4095 < 4096 ∧ (63 < 64 ∧ (4 * 63 ≤ 255 ∧ 255 < 4 * 63 + 4)) ∧
      (2123 < 2124 ∧ 176 * 12 + 176 / 16 = 2123) ∧ 2124 ≤ 2124 ∧
      Window.grid ∈ [Window.seg, Window.bb, Window.cw, Window.pr, Window.grid, Window.expRom, Window.logRom] := by decide

/-- A register with reserved bits, one that clears WORK_VALID, and one that ignores writes. -/
theorem test_hyp_RegisterWritesStoreTheWritableBits :
    State.reset.phase = .idle ∧ (Reg.forceVersion ≠ .cmd ∧ Reg.forceVersion ≠ .status) ∧
      (Reg.workSize ≠ .cmd ∧ Reg.workSize ≠ .status ∧ storedBits .workSize ≠ 0) ∧
      (Reg.res ≠ .cmd ∧ Reg.res ≠ .status ∧ storedBits .res = 0) := by decide

/-- The last elements shown by the windows, the first bytes past SEG and CW, and the first column and word past WORK. -/
theorem test_hyp_WindowsShowTheirMemories :
    4095 < 4096 ∧ (2952 < 2953 ∧ 2953 < 4096 ∧ 3705 < 3706 ∧ 3706 < 4096) ∧ 255 < 256 ∧ 32767 < 32768 ∧
      (176 < 177 ∧ 177 < 192 ∧ 176 * 12 + 191 / 16 = 2123 ∧ 2124 ≤ 2124) ∧ (1 ≤ 1 ∧ 1 ≤ 255) := by decide

/-- The last module, the first column past the matrix, and the first word past it. -/
theorem test_hyp_GridWindowShowsTheSymbol :
    176 < 177 ∧ (177 < 192 ∧ 176 * 6 + 191 / 32 = 1061) ∧ (1062 ≤ 1062 ∧ 1062 < 2048) ∧ (1062 ≤ 2047 ∧ 2047 < 2048) := by decide

end Sys2Proof.Tests
end

/-! PROOFS. The family of spec/10_state.md: the STATUS write (O9), register writes (O59), and what commands may write (O54). -/

namespace Sys2Proof.Proofs

open Sys2Proof.Machine Sys2Proof.Claims

/-! ## The STATUS write (R24, R304, R311) -/

/-- The bits of STATUS, from bit 0 up (R24). -/
def statusBits (s : State) : List Bool :=
  [s.phase.isBusy, s.status.done, s.status.err, s.status.haz, s.status.segValid, s.status.verValid, s.status.cwValid,
    s.status.workValid, s.status.workTest, s.status.gridValid]

theorem getLsbD_append_ofBool {n : Nat} (x : BitVec n) (b : Bool) (i : Nat) :
    (x ++ BitVec.ofBool b).getLsbD i = (if i = 0 then b else x.getLsbD (i - 1)) := BitVec.getLsbD_concat x b i

theorem getLsbD_statusWord (s : State) (i : Nat) : s.statusWord.getLsbD i = (statusBits s).getD i false := by
  simp only [State.statusWord, getLsbD_append_ofBool, statusBits]
  match i with
  | 0 | 1 | 2 | 3 | 4 | 5 | 6 | 7 | 8 | 9 => rfl
  | i + 10 => simp

/-- The W1C write clears DONE, ERR and HAZ where it has a 1, and no other bit (R24). -/
theorem statusWord_acknowledge (s : State) (v : Word) :
    (s.acknowledge v).statusWord = s.statusWord &&& ~~~(v &&& 0x0000000E) := by
  apply BitVec.eq_of_getLsbD_eq
  intro i hi
  simp only [BitVec.getLsbD_and, BitVec.getLsbD_not, getLsbD_statusWord, hi, decide_true, Bool.true_and]
  match i with
  | 0 | 1 | 2 | 3 | 4 | 5 | 6 | 7 | 8 | 9 => simp [statusBits, State.acknowledge]
  | i + 10 => simp [statusBits]

/-- With ERR cleared every word is accepted (R300, R311). -/
theorem busWrite_cmd_of_err_clear (s : State) (w : Word) (hp : s.phase = .idle) (he : s.status.err = false) :
    s.busWrite (.reg .cmd) w = s.accept w := by
  rw [busWrite_idle_reg s _ w hp]
  simp [State.writeReg, State.writeCmd, he]

/-- Settles O9: the write is the acknowledgement, whose STATUS word is masked bit by bit. -/
theorem statusWriteClearsOnlyTheBitsWrittenOne : Obligations.StatusWriteClearsOnlyTheBitsWrittenOne := by
  unfold Obligations.StatusWriteClearsOnlyTheBitsWrittenOne
  intro s v hp
  refine ⟨s.acknowledge v, busWrite_idle_reg s .status v hp, rfl, statusWord_acknowledge s v, fun hv w => ?_⟩
  have he : (s.acknowledge v).status.err = false := by simp [State.acknowledge, hv]
  exact busWrite_cmd_of_err_clear _ w hp he

/-! ## Register writes (R19, R26..R38) -/

/-- A field of `n` bits stores a word's low bits, and the bits above it read 0 (R19). -/
theorem setWidth_setWidth_eq_and (v : Word) (n : Nat) :
    (v.setWidth n).setWidth 32 = v &&& BitVec.ofNat 32 (2 ^ n - 1) := by
  apply BitVec.eq_of_getLsbD_eq
  intro i hi
  simp only [BitVec.getLsbD_setWidth, BitVec.getLsbD_and, BitVec.getLsbD_ofNat, Nat.testBit_two_pow_sub_one, hi, decide_true,
    Bool.true_and, Bool.and_comm]

/-- IRQ_EN reads back the bits it stores (R26). -/
theorem irqEnable_word_ofWord (v : Word) : (IrqEnable.ofWord v).word = v &&& 0x0000000E := by
  apply BitVec.eq_of_getLsbD_eq
  intro i hi
  simp only [IrqEnable.ofWord, IrqEnable.word, BitVec.getLsbD_append, BitVec.getLsbD_and]
  match i with
  | 0 | 1 | 2 | 3 => simp
  | i + 4 => simp [BitVec.getLsbD_ofNat, Nat.testBit_add]

section
variable (s : State) (v : Word)

/-- A writable register reads back the bits stored (R19, R26..R31, R36, R38). -/
theorem readReg_writeReg_same {r : Reg} (h : storedBits r ≠ 0) : (s.writeReg r v).readReg r = v &&& storedBits r := by
  cases r
  case irqEn => exact irqEnable_word_ofWord v
  case ecLevel | forceVersion | textLen | paLen | pbLen | workSize => exact setWidth_setWidth_eq_and v _
  case opa | opb | qrow | qcol => exact BitVec.and_allOnes.symm
  all_goals exact absurd rfl h

/-- RO registers ignore the write (R19). -/
theorem writeReg_of_readOnly {r : Reg} (h : storedBits r = 0) (hc : r ≠ .cmd) (hs : r ≠ .status) : s.writeReg r v = s := by
  cases r
  case cmd => exact absurd rfl hc
  case status => exact absurd rfl hs
  case irqEn | ecLevel | forceVersion | textLen | opa | opb | paLen | pbLen | workSize | qrow | qcol => simp [storedBits] at h
  all_goals rfl

/-- A register write changes what no other register reads, STATUS apart: a write to WORK_SIZE clears its WORK_VALID (R36). -/
theorem readReg_writeReg_other {r q : Reg} (h : storedBits r ≠ 0) (hqr : q ≠ r) (hq : q ≠ .status) :
    (s.writeReg r v).readReg q = s.readReg q := by
  cases r
  case irqEn | ecLevel | forceVersion | textLen | opa | opb | paLen | pbLen | workSize | qrow | qcol =>
    cases q <;> first | rfl | contradiction
  all_goals exact absurd rfl h

/-- A register write reaches IRQ_EN, the registers and, for WORK_SIZE, WORK_VALID (R36). -/
theorem writeReg_frame {r : Reg} (hc : r ≠ .cmd) (hs : r ≠ .status) :
    s.writeReg r v = { s with
      irqEn := (s.writeReg r v).irqEn
      regs := (s.writeReg r v).regs
      status := { s.status with workValid := s.status.workValid && r != .workSize } } := by
  by_cases hw : r = .workSize
  · subst hw
    simp [State.writeReg, State.clearWorkValid]
  · have hkept : (s.status.workValid && r != .workSize) = s.status.workValid := by simp [hw]
    rw [hkept]
    cases r
    case cmd => exact absurd rfl hc
    case status => exact absurd rfl hs
    case workSize => exact absurd rfl hw
    all_goals rfl

end

/-- Settles O59: a writable register reads back the stored bits, every other register reads as before. -/
theorem registerWritesStoreTheWritableBits : Obligations.RegisterWritesStoreTheWritableBits := by
  unfold Obligations.RegisterWritesStoreTheWritableBits
  intro s r v hp hc hs
  refine ⟨s.writeReg r v, busWrite_idle_reg s r v hp, fun q hq => ?_, writeReg_frame s v hc hs⟩
  by_cases h0 : storedBits r = 0
  · rw [if_neg fun h => h.2 h0, writeReg_of_readOnly s v h0 hc hs]
  · by_cases hqr : q = r
    · rw [if_pos ⟨hqr, h0⟩, hqr, readReg_writeReg_same s v h0]
    · rw [if_neg fun h => hqr h.1, readReg_writeReg_other s v h0 hqr hq]

/-! ## What a command may write (R30, R40..R45, R140, R315) -/

/-- What no command writes: the host's memories, IRQ_EN, RST, the parameters, the host and the schedule (R40, R44, R315). -/
def inputValues (s : State) : Mem Word × Mem Byte × Mem Byte × IrqEnable × Bool × Params × HostAgent × List Turn :=
  (s.mems.text, s.mems.pa, s.mems.pb, s.irqEn, s.rst, s.params, s.host, s.sched)

/-- The registers the host owns and a build does not write (R27..R31, R38). -/
def hostRegValues (r : Regs) : BitVec 2 × BitVec 6 × BitVec 13 × Word × Word × BitVec 9 × BitVec 9 × Word × Word :=
  (r.ecLevel, r.forceVersion, r.textLen, r.opa, r.opb, r.paLen, r.pbLen, r.qrow, r.qcol)

/-- The regions of the state that the rules name writers of. -/
inductive Region where
  | inputs | hostRegs | bbLen | pr | bb | seg | cw | work | grid

/-- `t` holds in a region what `s` holds there. -/
def Region.Kept (s t : State) : Region → Prop
  | .inputs => inputValues t = inputValues s
  | .hostRegs => hostRegValues t.regs = hostRegValues s.regs
  | .bbLen => t.regs.bbLen = s.regs.bbLen
  | .pr => t.mems.pr = s.mems.pr
  | .bb => t.mems.bb = s.mems.bb
  | .seg => t.mems.seg = s.mems.seg
  | .cw => t.mems.cw = s.mems.cw
  | .work => t.mems.work = s.mems.work
  | .grid => t.mems.grid = s.mems.grid

/-- From `s` to `t` only the regions `ws` may have changed. -/
def WritesOnly (ws : List Region) (s t : State) : Prop := ∀ g, g ∉ ws → g.Kept s t

/-- The regions a command may write. -/
def writtenBy : Instr → List Region
  | .softReset => [.hostRegs, .bbLen]
  | .polyMul => [.pr]
  | .polyMod => [.pr]
  | .rsGenpoly => [.pr]
  | .rsEcc => [.pr]
  | .bbClear => [.bbLen, .bb]
  | .bbPut => [.bbLen, .bb]
  | .segLoad => [.seg]
  | .buildCodewords => [.bbLen, .bb, .cw]
  | .matrixBuild _ _ => [.work]
  | .commit => [.grid]
  | .maskSearch => [.work, .grid]
  | .encode => [.bbLen, .bb, .seg, .cw, .work, .grid]
  | _ => []

/-- The state a command's pseudocode leaves. -/
def endState : Result → State
  | .ok t => t
  | .raise _ t => t

section
variable {s t u : State} {ws xs : List Region}

theorem WritesOnly.trans (h : WritesOnly ws s t) (h' : WritesOnly ws t u) : WritesOnly ws s u := by
  intro g hg
  cases g <;> exact Eq.trans (h' _ hg) (h _ hg)

theorem WritesOnly.mono (hsub : ws ⊆ xs) (h : WritesOnly ws s t) : WritesOnly xs s t :=
  fun g hg => h g fun hw => hg (hsub hw)

/-- An update that writes no region. -/
theorem WritesOnly.of_eq (hin : inputValues t = inputValues s) (hr : hostRegValues t.regs = hostRegValues s.regs)
    (hb : t.regs.bbLen = s.regs.bbLen) (hm : t.mems = s.mems) : WritesOnly ws s t := by
  intro g _
  cases g
  case inputs => exact hin
  case hostRegs => exact hr
  case bbLen => exact hb
  all_goals exact congrArg _ hm

end

section
variable (s : State) {ws : List Region}

theorem writesOnly_refl : WritesOnly ws s s := .of_eq rfl rfl rfl rfl
theorem writesOnly_complete : WritesOnly ws s s.complete := .of_eq rfl rfl rfl rfl
theorem writesOnly_raise (e : ErrCode) (op step : Byte) : WritesOnly ws s (s.raise e op step) := .of_eq rfl rfl rfl rfl
theorem writesOnly_setRes (v : Word) : WritesOnly ws s (s.setRes v) := .of_eq rfl rfl rfl rfl
theorem writesOnly_setScore (x : Score) : WritesOnly ws s (s.setScore x) := .of_eq rfl rfl rfl rfl
theorem writesOnly_recordSearch : WritesOnly ws s s.recordSearch := .of_eq rfl rfl rfl rfl
theorem writesOnly_setVersion (v : Nat) (ec : BitVec 2) : WritesOnly ws s (s.setVersion v ec) := .of_eq rfl rfl rfl rfl
theorem writesOnly_loseVersion : WritesOnly ws s s.loseVersion := .of_eq rfl rfl rfl rfl
theorem writesOnly_loseSegment : WritesOnly ws s s.loseSegment := .of_eq rfl rfl rfl rfl
theorem writesOnly_loseCodewords : WritesOnly ws s s.loseCodewords := .of_eq rfl rfl rfl rfl

theorem writesOnly_resetRegisters : WritesOnly [.hostRegs, .bbLen] s s.resetRegisters := by
  intro g hg
  cases g
  case hostRegs | bbLen => simp at hg
  all_goals rfl

theorem writesOnly_setPr (r : List Byte) : WritesOnly [.pr] s (s.setPr r) := by
  intro g hg
  cases g
  case pr => simp at hg
  all_goals rfl

theorem writesOnly_setBitBuffer (bits : List Bool) : WritesOnly [.bbLen, .bb] s (s.setBitBuffer bits) := by
  intro g hg
  cases g
  case bbLen | bb => simp at hg
  all_goals rfl

theorem writesOnly_putField (value len : Nat) : WritesOnly [.bbLen, .bb] s (s.putField value len) := by
  intro g hg
  cases g
  case bbLen | bb => simp at hg
  all_goals rfl

theorem writesOnly_setSegment (b : List Byte) : WritesOnly [.seg] s (s.setSegment b) := by
  intro g hg
  cases g
  case seg => simp at hg
  all_goals rfl

theorem writesOnly_setCodewords (stream : List Byte) : WritesOnly [.cw] s (s.setCodewords stream) := by
  intro g hg
  cases g
  case cw => simp at hg
  all_goals rfl

theorem writesOnly_matrixBuild (mask : BitVec 3) (test : Bool) : WritesOnly [.work] s (endState (matrixBuild mask test s)) := by
  cases h : s.status.cwValid
  · rw [matrixBuild_raise s mask test h]
    exact writesOnly_refl s
  · rw [matrixBuild_ok s mask test h]
    intro g hg
    cases g
    case work => simp at hg
    all_goals rfl

theorem writesOnly_commit : WritesOnly [.grid] s (endState (commitCmd s)) := by
  by_cases h : s.status.workValid = false ∨ s.status.workTest = true
  · rw [commitCmd_raise s h]
    exact writesOnly_refl s
  · simp only [not_or, Bool.not_eq_false, Bool.not_eq_true] at h
    rw [commitCmd_ok s h.1 h.2]
    intro g hg
    cases g
    case grid => simp at hg
    all_goals rfl

theorem writesOnly_maskSearch : WritesOnly [.work, .grid] s (endState (maskSearch s)) := by
  cases h : s.status.cwValid
  · rw [maskSearch_raise s h]
    exact writesOnly_refl s
  · obtain ⟨b, u, hb, hu, hok⟩ := maskSearch_ok s h
    have hbuild := writesOnly_matrixBuild s.recordSearch s.recordSearch.regs.bestMask false
    have hcommit := writesOnly_commit b
    rw [hb] at hbuild
    rw [hu] at hcommit
    rw [hok]
    exact ((writesOnly_recordSearch s).trans (hbuild.mono (by simp))).trans (hcommit.mono (by simp))

theorem writesOnly_segLoad : WritesOnly [.seg] s (endState (segLoad s)) := by
  obtain ⟨b, -, h⟩ | ⟨e, h⟩ | ⟨e, k, h⟩ := segLoad_cases s <;> rw [h]
  · exact writesOnly_setSegment s b
  · exact writesOnly_loseSegment s
  · exact (writesOnly_loseSegment s).trans (writesOnly_setRes _ k)

theorem writesOnly_selectVersion : WritesOnly ws s (endState (selectVersion s)) := by
  obtain ⟨v, -, -, -, -, h⟩ | ⟨e, h⟩ := selectVersion_cases s <;> rw [h]
  · exact writesOnly_setVersion s v _
  · exact writesOnly_loseVersion s

theorem writesOnly_buildCodewords : WritesOnly [.bbLen, .bb, .cw] s (endState (buildCodewords s)) := by
  obtain ⟨bits, -, -, h⟩ | ⟨e, h⟩ := buildCodewords_cases s <;> rw [h]
  · exact ((writesOnly_setBitBuffer s bits).mono (by simp)).trans ((writesOnly_setCodewords _ _).mono (by simp))
  · exact writesOnly_loseCodewords s

/-- A pseudocode that sets RES or raises with nothing changed. -/
theorem writesOnly_of_setRes {r : Result} (h : (∃ v, r = .ok (s.setRes v)) ∨ ∃ e, r = .raise e s) :
    WritesOnly ws s (endState r) := by
  obtain ⟨v, rfl⟩ | ⟨e, rfl⟩ := h
  · exact writesOnly_setRes s v
  · exact writesOnly_refl s

/-- A pseudocode that sets PR or raises with nothing changed. -/
theorem writesOnly_of_setPr {r : Result} (h : (∃ p, r = .ok (s.setPr p)) ∨ ∃ e, r = .raise e s) :
    WritesOnly [.pr] s (endState r) := by
  obtain ⟨p, rfl⟩ | ⟨e, rfl⟩ := h
  · exact writesOnly_setPr s p
  · exact writesOnly_refl s

theorem writesOnly_bbPut : WritesOnly [.bbLen, .bb] s (endState (bbPut s)) := by
  obtain ⟨-, h⟩ | ⟨e, h⟩ := bbPut_cases s <;> rw [h]
  · exact writesOnly_putField s _ _
  · exact writesOnly_refl s

theorem writesOnly_penalty : WritesOnly ws s (endState (penaltyCmd s)) := by
  obtain ⟨x, h⟩ | ⟨e, h⟩ := penaltyCmd_cases s <;> rw [h]
  · exact writesOnly_setScore s x
  · exact writesOnly_refl s

/-- Every command's pseudocode but ENCODE's writes what the table gives it. -/
theorem writesOnly_resultOf (i : Instr) (hi : i ≠ .encode) : WritesOnly (writtenBy i) s (endState (resultOf i s)) := by
  cases i
  case nop => exact writesOnly_refl s
  case softReset => exact writesOnly_resetRegisters s
  case gfExp => exact writesOnly_setRes s _
  case gfLog => exact writesOnly_of_setRes s (gfLog_cases s)
  case gfMul => exact writesOnly_of_setRes s (gfMul_cases s)
  case polyMul | polyMod | rsGenpoly | rsEcc => exact writesOnly_of_setPr s (poly_cases s _ (by simp))
  case bbClear => exact writesOnly_setBitBuffer s []
  case bbPut => exact writesOnly_bbPut s
  case bbGet => exact writesOnly_of_setRes s (bbGet_cases s)
  case segLoad => exact writesOnly_segLoad s
  case selectVersion => exact writesOnly_selectVersion s
  case buildCodewords => exact writesOnly_buildCodewords s
  case matrixBuild mask test => exact writesOnly_matrixBuild s mask test
  case penalty => exact writesOnly_penalty s
  case commit => exact writesOnly_commit s
  case maskSearch => exact writesOnly_maskSearch s
  case encode => exact absurd rfl hi
  case query => exact writesOnly_of_setRes s (queryCmd_cases s)

/-- A completion adds no write to those of the pseudocode. -/
theorem writesOnly_finish {r : Result} {op : Byte} {t : State} (h : WritesOnly ws s (endState r))
    (ht : finish op r = .next t) : WritesOnly ws s t := by
  cases r with
  | ok u =>
    cases ht
    exact h.trans (writesOnly_complete u)
  | raise e u =>
    cases ht
    exact h.trans (writesOnly_raise u e op op)

/-- One step of ENCODE: its own writes are among ENCODE's. -/
theorem writesOnly_encode_of {r : Result} {t : State} (h : WritesOnly ws s (endState r)) (hsub : ws ⊆ writtenBy .encode)
    (hr : endState r = t) : WritesOnly (writtenBy .encode) s t := hr ▸ h.mono hsub

/-- ENCODE writes what its four steps write, however far it gets (R273). -/
theorem writesOnly_encode {t : State} (ht : execEncode s = .next t) : WritesOnly (writtenBy .encode) s t := by
  have fails {u e step} (h : WritesOnly (writtenBy .encode) s u) (hx : execEncode s = .next (u.raise e 0x50 step)) :
      WritesOnly (writtenBy .encode) s t := by
    rw [hx] at ht
    cases ht
    exact h.trans (writesOnly_raise u e _ _)
  have hseg {u} := writesOnly_encode_of s (t := u) (writesOnly_segLoad s) (by simp [writtenBy])
  obtain ⟨e, u, hu, hx⟩ | ⟨a, ha, hrest⟩ := execEncode_cases s
  · exact fails (hseg (congrArg endState hu)) hx
  have hsa := hseg (congrArg endState ha)
  have hselect {u} := writesOnly_encode_of a (t := u) (writesOnly_selectVersion a) (List.nil_subset _)
  obtain ⟨e, u, hu, hx⟩ | ⟨b, hb, hrest⟩ := hrest
  · exact fails (hsa.trans (hselect (congrArg endState hu))) hx
  have hsb := hsa.trans (hselect (congrArg endState hb))
  have hcodewords {u} := writesOnly_encode_of b (t := u) (writesOnly_buildCodewords b) (by simp [writtenBy])
  obtain ⟨e, u, hu, hx⟩ | ⟨c, hc, hrest⟩ := hrest
  · exact fails (hsb.trans (hcodewords (congrArg endState hu))) hx
  have hsc := hsb.trans (hcodewords (congrArg endState hc))
  have hsearch {u} := writesOnly_encode_of c (t := u) (writesOnly_maskSearch c) (by simp [writtenBy])
  obtain ⟨e, u, hu, hx⟩ | ⟨d, hd, hx⟩ := hrest
  · exact fails (hsc.trans (hsearch (congrArg endState hu))) hx
  · rw [hx] at ht
    cases ht
    exact (hsc.trans (hsearch (congrArg endState hd))).trans (writesOnly_complete d)

/-- Every command writes only what the table gives it. -/
theorem exec_writesOnly {i : Instr} {t : State} (ht : exec i s = .next t) : WritesOnly (writtenBy i) s t := by
  by_cases hi : i = .encode
  · subst hi
    exact writesOnly_encode s ht
  · rw [exec_eq_finish s i hi] at ht
    exact writesOnly_finish s (writesOnly_resultOf s i hi) ht

end

/-! ### The writers of each region, read off the table -/

theorem inputs_not_mem_writtenBy (i : Instr) : Region.inputs ∉ writtenBy i := by cases i <;> simp [writtenBy]

theorem hostRegs_mem_writtenBy (i : Instr) : Region.hostRegs ∈ writtenBy i ↔ i = .softReset := by
  cases i <;> simp [writtenBy]

theorem bbLen_mem_writtenBy (i : Instr) :
    Region.bbLen ∈ writtenBy i ↔ i ∈ [Instr.bbClear, .bbPut, .buildCodewords, .encode] ∨ i = .softReset := by
  cases i <;> simp [writtenBy]

theorem pr_mem_writtenBy (i : Instr) : Region.pr ∈ writtenBy i ↔ i ∈ [Instr.polyMul, .polyMod, .rsGenpoly, .rsEcc] := by
  cases i <;> simp [writtenBy]

theorem bb_mem_writtenBy (i : Instr) :
    Region.bb ∈ writtenBy i ↔ i ∈ [Instr.bbClear, .bbPut, .buildCodewords, .encode] := by
  cases i <;> simp [writtenBy]

theorem seg_mem_writtenBy (i : Instr) : Region.seg ∈ writtenBy i ↔ i ∈ [Instr.segLoad, .encode] := by
  cases i <;> simp [writtenBy]

theorem cw_mem_writtenBy (i : Instr) : Region.cw ∈ writtenBy i ↔ i ∈ [Instr.buildCodewords, .encode] := by
  cases i <;> simp [writtenBy]

theorem work_mem_writtenBy (i : Instr) :
    Region.work ∈ writtenBy i ↔ i ∈ [Instr.maskSearch, .encode] ∨ ∃ m test, i = .matrixBuild m test := by
  cases i <;> simp [writtenBy]

theorem grid_mem_writtenBy (i : Instr) : Region.grid ∈ writtenBy i ↔ i ∈ [Instr.commit, .maskSearch, .encode] := by
  cases i <;> simp [writtenBy]

/-- Settles O54: a command keeps every region that the table of writers does not give it. -/
theorem theEngineNeverWritesAHostInput : Obligations.TheEngineNeverWritesAHostInput := by
  unfold Obligations.TheEngineNeverWritesAHostInput
  intro i s t ht
  have kept := exec_writesOnly s ht
  have hin := kept .inputs (inputs_not_mem_writtenBy i)
  have hregs := fun hi => kept .hostRegs (mt (hostRegs_mem_writtenBy i).1 hi)
  simp only [Region.Kept, inputValues, hostRegValues, Prod.mk.injEq] at hin hregs
  obtain ⟨htext, hpa, hpb, hirq, hrst, hparams, hhost, hsched⟩ := hin
  refine ⟨htext, hpa, hpb, hirq, hrst, hparams, hhost, hsched, hregs, ?_,
    fun hi => ⟨?_, fun hr => ?_⟩, ?_, ?_, fun hi hm => ?_, ?_⟩
  · exact fun hi => kept .pr (mt (pr_mem_writtenBy i).1 hi)
  · exact kept .bb (mt (bb_mem_writtenBy i).1 hi)
  · exact kept .bbLen (mt (bbLen_mem_writtenBy i).1 (not_or.2 ⟨hi, hr⟩))
  · exact fun hi => kept .seg (mt (seg_mem_writtenBy i).1 hi)
  · exact fun hi => kept .cw (mt (cw_mem_writtenBy i).1 hi)
  · exact kept .work (mt (work_mem_writtenBy i).1 (not_or.2 ⟨hi, fun ⟨m, test, h⟩ => hm m test h⟩))
  · exact fun hi => kept .grid (mt (grid_mem_writtenBy i).1 hi)

end Sys2Proof.Proofs

/-! PROOFS. The family of spec/20_memory.md: reads (O8), admitted accesses and the address map (O10), what the windows show
(O57, O60) and what window writes store (O58). -/

namespace Sys2Proof.Proofs

open Sys2Proof.Machine Sys2Proof.Claims

/-! ## Reads (R60, R306) -/

theorem readableWhileBusy_iff (p : Place) :
    p.readableWhileBusy = true ↔ p ∈ [Place.reg .id, Place.reg .status, Place.reg .errcode, Place.reg .irqEn] := by
  cases p with
  | word w k => simp [Place.readableWhileBusy]
  | reg r => cases r <;> simp [Place.readableWhileBusy]

theorem busRead_of_current (s : State) (p : Place) (h : s.phase = .idle ∨ p.readableWhileBusy = true) :
    s.busRead p = (s.peek p, s) := by
  obtain h | h := h <;> simp [State.busRead, h, Phase.isBusy]

theorem busRead_of_free (s : State) (p : Place) (hb : s.phase.isBusy = true) (hp : p.readableWhileBusy = false) :
    s.busRead p = (Config.freeBusWord s.draws, { s with draws := s.draws + 1 }) := by
  simp [State.busRead, hb, hp]

/-- Settles O8: a read returns the current value with the state as it is, or a free draw that only counts up the draws. -/
theorem readsHaveNoSideEffect : Obligations.ReadsHaveNoSideEffect := by
  unfold Obligations.ReadsHaveNoSideEffect
  intro s p
  refine ⟨?_, fun h => ?_, fun h => ?_, fun hb h => ?_⟩
  · obtain h | h := busRead_snd s p <;> rw [h]
  · simp [busRead_of_current s p (.inl h)]
  · exact busRead_of_current s p (.inr ((readableWhileBusy_iff p).2 h))
  · have hp : p.readableWhileBusy = false := Bool.eq_false_iff.2 (mt (readableWhileBusy_iff p).1 h)
    simp [busRead_of_free s p hb hp]

/-! ## The address map (R51, R52, R58, R340) -/

/-- Word i of the register window is the register whose offset is 4i. -/
theorem regOfIndex_offset : ∀ i : Fin 42, (Reg.ofIndex i).map registerOffset = some (4 * i.val) := by decide

theorem regOfIndex_registerOffset (r : Reg) : Reg.ofIndex (registerOffset r / 4) = some r := by
  cases r
  case penalty m => revert m; decide
  all_goals rfl

theorem registerOffset_lt (r : Reg) : registerOffset r < 0xA8 := by
  cases r
  case penalty m => simp only [registerOffset]; omega
  all_goals simp [registerOffset]

theorem regOfIndex_eq_none (i : Nat) (h : 42 ≤ i) : Reg.ofIndex i = none := List.getElem?_eq_none h

theorem regOfIndex_eq_some_iff (i : Nat) (r : Reg) : Reg.ofIndex i = some r ↔ 4 * i = registerOffset r := by
  constructor
  · intro h
    by_cases hi : i < 42
    · have hoff := regOfIndex_offset ⟨i, hi⟩
      rw [h] at hoff
      exact (Option.some.inj hoff).symm
    · rw [regOfIndex_eq_none i (by omega)] at h
      cases h
  · intro h
    have hdiv : registerOffset r / 4 = i := by omega
    rw [← hdiv]
    exact regOfIndex_registerOffset r

theorem mem_allWindows (w : Window) : w ∈ allWindows := by cases w <;> decide

theorem windowRange_eq (w : Window) : windowRange w = (w.base, w.base + 4 * w.words - 1) := by cases w <;> rfl

theorem window_words_pos (w : Window) : 0 < w.words := by cases w <;> decide

theorem window_base_aligned (w : Window) : w.base % 4 = 0 := by cases w <;> rfl

theorem window_base_above_registers (w : Window) : 0x100 ≤ w.base := by cases w <;> decide

theorem window_holds_iff (w : Window) (addr : Nat) :
    w.holds addr = true ↔ w.base ≤ addr ∧ addr < w.base + 4 * w.words := by simp [Window.holds]

/-- The windows do not overlap (R52). -/
theorem windows_disjoint :
    ∀ w ∈ allWindows, ∀ w' ∈ allWindows,
      w = w' ∨ w.base + 4 * w.words ≤ w'.base ∨ w'.base + 4 * w'.words ≤ w.base := by decide

theorem window_unique {w w' : Window} {addr : Nat} (h : w.holds addr = true) (h' : w'.holds addr = true) : w = w' := by
  rw [window_holds_iff] at h h'
  obtain heq | hlt | hlt := windows_disjoint w (mem_allWindows w) w' (mem_allWindows w')
  · exact heq
  · omega
  · omega

/-- The search finds the one window that holds the offset. -/
theorem findWindow_eq_some_iff (addr : Nat) (w : Window) :
    allWindows.find? (·.holds addr) = some w ↔ w.holds addr = true := by
  constructor
  · intro h
    simpa using List.find?_some h
  · intro h
    cases hf : allWindows.find? (·.holds addr) with
    | none => exact absurd h (List.find?_eq_none.1 hf w (mem_allWindows w))
    | some w' =>
      have hw' : w'.holds addr = true := by simpa using List.find?_some hf
      rw [window_unique hw' h]

theorem placeAt_low (addr : Nat) (h : addr < 0x100) : placeAt addr = (Reg.ofIndex (addr / 4)).map .reg := if_pos h

theorem placeAt_high (addr : Nat) (h : 0x100 ≤ addr) :
    placeAt addr = (allWindows.find? (·.holds addr)).map fun w => .word w ((addr - w.base) / 4) := if_neg (by omega)

theorem placeAt_eq_reg_iff (addr : Nat) (r : Reg) (ha : addr % 4 = 0) :
    placeAt addr = some (.reg r) ↔ addr = registerOffset r := by
  by_cases h : addr < 0x100
  · rw [placeAt_low addr h]
    simp only [Option.map_eq_some_iff, Place.reg.injEq, exists_eq_right, regOfIndex_eq_some_iff]
    omega
  · rw [placeAt_high addr (by omega)]
    have hr := registerOffset_lt r
    simp only [Option.map_eq_some_iff, reduceCtorEq, and_false, exists_false, false_iff]
    omega

theorem placeAt_eq_word_iff (addr : Nat) (w : Window) (k : Nat) (ha : addr % 4 = 0) :
    placeAt addr = some (.word w k) ↔ InWindow w k ∧ addr = (windowRange w).1 + 4 * k := by
  have hbase := window_base_aligned w
  have hlow := window_base_above_registers w
  have hpos := window_words_pos w
  simp only [InWindow, windowRange_eq]
  by_cases h : addr < 0x100
  · rw [placeAt_low addr h]
    simp only [Option.map_eq_some_iff, reduceCtorEq, and_false, exists_false, false_iff]
    omega
  · rw [placeAt_high addr (by omega)]
    simp only [Option.map_eq_some_iff, findWindow_eq_some_iff, window_holds_iff, Place.word.injEq]
    constructor
    · rintro ⟨w', hin, rfl, rfl⟩
      omega
    · intro hin
      exact ⟨w, by omega, rfl, by omega⟩

/-- What an aligned offset names is what stands there (R52). -/
theorem placeAt_eq_some_iff (addr : Nat) (p : Place) (ha : addr % 4 = 0) : placeAt addr = some p ↔ StandsAt addr p := by
  cases p with
  | reg r => exact placeAt_eq_reg_iff addr r ha
  | word w k => exact placeAt_eq_word_iff addr w k ha

theorem registerOffset_aligned (r : Reg) : registerOffset r % 4 = 0 := by
  cases r
  case penalty m => simp only [registerOffset]; omega
  all_goals rfl

theorem standsAt_aligned {addr : Nat} {p : Place} (h : StandsAt addr p) : addr % 4 = 0 := by
  cases p with
  | reg r =>
    rw [show addr = registerOffset r from h]
    exact registerOffset_aligned r
  | word w k =>
    obtain ⟨-, h⟩ := h
    have hbase := window_base_aligned w
    rw [windowRange_eq] at h
    omega

/-- The mapped offsets are those of the register window and of the windows (R52). -/
theorem mapped_iff (addr : Nat) : Mapped addr ↔ addr ≤ 0xA7 ∨ ∃ w ∈ allWindows, w.holds addr = true := by
  simp only [Mapped, allWindows, List.mem_cons, List.not_mem_nil, or_false, exists_eq_or_imp, exists_eq_left,
    window_holds_iff, Window.base, Window.words]
  omega

/-- An aligned offset is mapped exactly when something stands there (R58). -/
theorem exists_standsAt_iff (addr : Nat) (ha : addr % 4 = 0) : (∃ p, StandsAt addr p) ↔ Mapped addr := by
  rw [mapped_iff]
  constructor
  · rintro ⟨p, hp⟩
    cases p with
    | reg r =>
      have hlt := registerOffset_lt r
      exact .inl (by rw [show addr = registerOffset r from hp]; omega)
    | word w k =>
      obtain ⟨hin, haddr⟩ := hp
      have hpos := window_words_pos w
      simp only [InWindow, windowRange_eq] at hin haddr
      exact .inr ⟨w, mem_allWindows w, (window_holds_iff w addr).2 (by omega)⟩
  · rintro (hlow | ⟨w, -, hw⟩)
    · have hoff := regOfIndex_offset ⟨addr / 4, by omega⟩
      obtain ⟨r, -, hr⟩ := Option.map_eq_some_iff.1 hoff
      have heq : 4 * (addr / 4) = registerOffset r := hr.symm
      exact ⟨.reg r, show addr = registerOffset r by omega⟩
    · rw [window_holds_iff] at hw
      have hbase := window_base_aligned w
      refine ⟨.word w ((addr - w.base) / 4), ?_⟩
      simp only [StandsAt, InWindow, windowRange_eq]
      omega

theorem admission_eq_ok_iff (s : State) (a : Access) (p : Place) :
    s.admission a = .ok p ↔ s.rst = false ∧ a.size = .word ∧ a.addr.toNat % 4 = 0 ∧ placeAt a.addr.toNat = some p := by
  unfold State.admission
  by_cases hr : s.rst = true
  · simp [hr]
  by_cases hs : a.size = .word
  · by_cases ha : a.addr.toNat % 4 = 0
    · cases placeAt a.addr.toNat <;> simp [hr, hs, ha]
    · simp [hr, hs, ha]
  · simp [hr, hs]

theorem admission_eq_ok_iff_standsAt (s : State) (a : Access) (p : Place) :
    s.admission a = .ok p ↔ s.rst = false ∧ a.size = .word ∧ StandsAt a.addr.toNat p := by
  rw [admission_eq_ok_iff]
  refine and_congr_right fun _ => and_congr_right fun _ => ?_
  constructor
  · rintro ⟨ha, hp⟩
    exact (placeAt_eq_some_iff _ p ha).1 hp
  · intro hp
    exact ⟨standsAt_aligned hp, (placeAt_eq_some_iff _ p (standsAt_aligned hp)).2 hp⟩

/-- Settles O10: an access is admitted to what stands at its offset, and something stands at the aligned mapped offsets. -/
theorem accessIsAdmittedExactlyWhenAlignedWordAndMapped :
    Obligations.AccessIsAdmittedExactlyWhenAlignedWordAndMapped := by
  unfold Obligations.AccessIsAdmittedExactlyWhenAlignedWordAndMapped
  intro s a
  refine ⟨?_, fun p => admission_eq_ok_iff_standsAt s a p⟩
  simp only [admission_eq_ok_iff_standsAt, exists_and_left]
  refine and_congr_right fun _ => and_congr_right fun _ => ?_
  constructor
  · rintro ⟨p, hp⟩
    exact ⟨standsAt_aligned hp, (exists_standsAt_iff _ (standsAt_aligned hp)).1 ⟨p, hp⟩⟩
  · rintro ⟨ha, hm⟩
    exact (exists_standsAt_iff _ ha).2 hm

/-! ## Byte windows (R53, R55) -/

theorem getLsbD_byteOf (w : Word) (t b : Nat) (hb : b < 8) : (byteOf w t).getLsbD b = w.getLsbD (8 * t + b) := by
  simp [byteOf, hb]

theorem byteOf_packWord (b0 b1 b2 b3 : Byte) (t : Nat) (ht : t < 4) :
    byteOf (packWord b0 b1 b2 b3) t = [b0, b1, b2, b3].getD t 0 := by
  apply BitVec.eq_of_getLsbD_eq
  intro b hb
  rw [getLsbD_byteOf _ t b hb, getLsbD_packWord]
  match t, ht with
  | 0, _ => rw [Nat.mul_zero, Nat.zero_add, if_pos hb]; rfl
  | 1, _ => rw [if_neg (by omega), if_pos (by omega), Nat.mul_one, Nat.add_sub_cancel_left]; rfl
  | 2, _ => rw [if_neg (by omega), if_neg (by omega), if_pos (by omega), Nat.add_sub_cancel_left]; rfl
  | 3, _ => rw [if_neg (by omega), if_neg (by omega), if_neg (by omega), Nat.add_sub_cancel_left]; rfl

/-- Byte j of a byte memory is byte j mod 4 of word j div 4; past the memory's end it is 0 (R53). -/
theorem byteOf_byteWindow (read : Nat → Byte) (depth j : Nat) :
    byteOf (byteWindow read depth (j / 4)) (j % 4) = if j < depth then read j else 0 := by
  have ht : j % 4 < 4 := Nat.mod_lt _ (by omega)
  have hj : 4 * (j / 4) + j % 4 = j := Nat.div_add_mod j 4
  simp only [byteWindow]
  rw [byteOf_packWord _ _ _ _ _ ht]
  generalize j / 4 = k at hj
  generalize j % 4 = t at ht hj
  subst hj
  match t, ht with
  | 0, _ | 1, _ | 2, _ | 3, _ => rfl

/-- Bit b of a byte of BB is bit 7 - b of its eight bits (R55, R141). -/
theorem getLsbD_bbByte (s : State) (j b : Nat) (hb : b < 8) : (s.bbByte j).getLsbD b = s.bbAt (8 * j + (7 - b)) := by
  match b, hb with
  | 0, _ | 1, _ | 2, _ | 3, _ | 4, _ | 5, _ | 6, _ | 7, _ =>
    simp [State.bbByte, State.bbByte.bitsByteOf, List.range_succ]

theorem getLsbD_bbWindow (s : State) (i : Nat) (hi : i < 32768) :
    (s.readWindow .bb (i / 32)).getLsbD (8 * (i / 8 % 4) + 7 - i % 8) = s.bbAt i := by
  have hword : i / 32 = i / 8 / 4 := by omega
  have hbit : 8 * (i / 8 % 4) + 7 - i % 8 = 8 * (i / 8 % 4) + (7 - i % 8) := by omega
  have hindex : 8 * (i / 8) + (7 - (7 - i % 8)) = i := by omega
  rw [hword, hbit, ← getLsbD_byteOf _ _ _ (by omega), State.readWindow, byteOf_byteWindow, if_pos (by omega),
    getLsbD_bbByte s _ _ (by omega), hindex]

/-! ## Cell windows (R56, R57) -/

theorem extractLsb'_packFields (w count : Nat) (field : Nat → BitVec w) (f : Nat) (hw : 0 < w) (hf : f < count)
    (hc : w * count ≤ 32) : (packFields w count field).extractLsb' (w * f) w = field f := by
  apply BitVec.eq_of_getLsbD_eq
  intro b hb
  have hlt : w * f + b < 32 := by
    calc w * f + b < w * (f + 1) := by rw [Nat.mul_add, Nat.mul_one]; omega
      _ ≤ w * count := Nat.mul_le_mul_left w hf
      _ ≤ 32 := hc
  have hdiv : (w * f + b) / w = f := by rw [Nat.mul_add_div hw, Nat.div_eq_of_lt hb, Nat.add_zero]
  have hmod : (w * f + b) % w = b := by rw [Nat.mul_add_mod, Nat.mod_eq_of_lt hb]
  rw [BitVec.getLsbD_extractLsb', getLsbD_packFields w count field hw _ hlt, hdiv, hmod]
  simp [hb, hf]

theorem workField_of_cell (r c : Nat) (hc : c < 192) : workField (r * 12 + c / 16) (c % 16) = (r, c) := by
  simp only [workField, Prod.mk.injEq]
  omega

theorem gridField_of_module (r c : Nat) (hc : c < 192) : gridField (r * 6 + c / 32) (c % 32) = (r, c) := by
  simp only [gridField, Prod.mk.injEq]
  omega

theorem extractLsb'_workWindow (s : State) (r c : Nat) (hr : r < 177) (hc : c < 192) :
    (s.readWindow .work (r * 12 + c / 16)).extractLsb' (2 * (c % 16)) 2 = if c < 177 then s.workAt r c else 0 := by
  rw [State.readWindow, State.workWord, if_neg (by omega),
    extractLsb'_packFields 2 16 _ _ (by omega) (Nat.mod_lt _ (by omega)) (by omega), workField_of_cell r c hc]

theorem workWindow_past_end (s : State) (k : Nat) (hk : 2124 ≤ k) : s.readWindow .work k = 0 := if_pos hk

theorem gridWindow_of_invalid (s : State) (k : Nat) (h : s.status.gridValid = false ∨ 1062 ≤ k) :
    s.readWindow .grid k = 0 := if_pos h

theorem getLsbD_gridWindow (s : State) (r c : Nat) (hr : r < 177) (hc : c < 192) (hv : s.status.gridValid = true) :
    (s.readWindow .grid (r * 6 + c / 32)).getLsbD (c % 32) =
      (decide (c < 177) && decide (r < s.regs.gridSize.toNat) && decide (c < s.regs.gridSize.toNat) && s.gridAt r c) := by
  have hbit : c % 32 < 32 := Nat.mod_lt _ (by omega)
  have hword : ¬ (s.status.gridValid = false ∨ 1062 ≤ r * 6 + c / 32) := not_or.2 ⟨by simp [hv], by omega⟩
  rw [State.readWindow, State.gridWord, if_neg hword, getLsbD_packFields 1 32 _ (by omega) _ hbit, Nat.div_one,
    gridField_of_module r c hc]
  simp [hbit, Nat.mod_one]

/-- Settles O60: a GRID word packs the modules inside the symbol, and is 0 past the matrix and while GRID_VALID = 0. -/
theorem gridWindowShowsTheSymbol : Obligations.GridWindowShowsTheSymbol := by
  unfold Obligations.GridWindowShowsTheSymbol
  intro s
  refine ⟨fun r c hr hc => ?_, fun k hk _ => gridWindow_of_invalid s k (.inr hk)⟩
  cases hv : s.status.gridValid with
  | false => simp [gridWindow_of_invalid s _ (.inl hv)]
  | true => simp [getLsbD_gridWindow s r c hr hc hv]

/-! ## The ROM windows (R46, R102, R103) -/

set_option maxRecDepth 20000 in
/-- Each entry of EXP is the one before it times x (R102). -/
theorem expAt_succ : ∀ i : Fin 255, expAt (i.val + 1) = timesX (expAt i.val) := by decide

theorem expAt_eq_alphaPow (i : Nat) (hi : i < 256) : expAt i = alphaPow i := by
  induction i with
  | zero => rfl
  | succ i ih =>
    calc expAt (i + 1) = timesX (expAt i) := expAt_succ ⟨i, by omega⟩
      _ = timesX (alphaPow i) := by rw [ih (by omega)]
      _ = alphaPow (i + 1) := rfl

theorem logWindow_is_logarithm (s : State) (i : Nat) (h1 : 1 ≤ i) (h2 : i < 256) :
    ∃ e, e ≤ 254 ∧ alphaPow e = BitVec.ofNat 8 i ∧ s.readWindow .logRom i = BitVec.ofNat 32 e := by
  have hne : BitVec.ofNat 8 i ≠ 0 := by bv_omega
  obtain ⟨hexp, hlt⟩ := exp_log (BitVec.ofNat 8 i) hne
  refine ⟨logAt (BitVec.ofNat 8 i), by omega, ?_, if_neg (by omega)⟩
  rw [← expAt_eq_alphaPow _ (by omega), hexp]

/-- Settles O57: byte and cell windows show their memories field by field, and the ROM windows the two tables. -/
theorem windowsShowTheirMemories : Obligations.WindowsShowTheirMemories := by
  unfold Obligations.WindowsShowTheirMemories
  intro s
  refine ⟨fun _ _ => rfl, fun j _ => ⟨byteOf_byteWindow _ _ j, byteOf_byteWindow _ _ j⟩, fun j hj => ?_,
    getLsbD_bbWindow s, extractLsb'_workWindow s, fun k hk _ => workWindow_past_end s k hk, fun i hi => ?_, rfl,
    logWindow_is_logarithm s⟩
  · have poly (read : Nat → Byte) : byteOf (byteWindow read Config.polyDepth (j / 4)) (j % 4) = read j := by
      rw [byteOf_byteWindow, if_pos hj]
    exact ⟨poly s.paAt, poly s.pbAt, poly s.prAt⟩
  · rw [State.readWindow, expAt_eq_alphaPow i hi]

/-! ## Window writes (R52..R54, R56) -/

theorem length_wordBytes (v : Word) : (wordBytes v).length = 4 := rfl

theorem getElem_wordBytes (v : Word) (t : Nat) (h : t < (wordBytes v).length) : (wordBytes v)[t] = byteOf v t := by
  simp [wordBytes, byteOf]

/-- A word written to PA or PB stores its four coefficients and no other (R53). -/
theorem read_writeWord (free : Nat → Nat → Byte) (m : Mem Byte) (depth k j : Nat) (v : Word) (hj : j < depth) :
    (m.writeBlock depth (4 * k) (wordBytes v)).read free j =
      if 4 * k ≤ j ∧ j < 4 * k + 4 then byteOf v (j - 4 * k) else m.read free j := by
  have hlen := length_wordBytes v
  split
  case isTrue h =>
    rw [Mem.read_writeBlock_inside free depth m _ j _ hj h.1 (by omega), getElem_wordBytes]
  case isFalse h =>
    exact Mem.read_writeBlock_outside free depth m _ j _ hj (by omega)

/-- The cells of a word of the WORK window are consecutive cells of one row (R56). -/
theorem workAt_writeWork (s : State) (k r c : Nat) (v : Word) (hk : k < 2124) (hr : r < 177) (hc : c < 177) :
    (s.writeWork k v).workAt r c = if r * 12 + c / 16 = k then v.extractLsb' (2 * (c % 16)) 2 else s.workAt r c := by
  have hcell : cellIndex r c < Config.cellCount := by simp only [cellIndex, Config.maxN, Config.cellCount]; omega
  rw [State.writeWork, if_neg (by omega)]
  simp only [State.workAt, State.clearWorkValid_mems, workField, Nat.add_zero]
  split
  case isTrue h =>
    subst h
    have hrow : (r * 12 + c / 16) / 12 = r := by omega
    have hcol : (r * 12 + c / 16) % 12 = c / 16 := by omega
    have hoff : cellIndex r c - cellIndex r (16 * (c / 16)) = c % 16 := by simp only [cellIndex, Config.maxN]; omega
    rw [hrow, hcol, Mem.read_writeBlock_inside _ _ _ _ _ _ hcell]
    · simp [hoff]
    · simp only [cellIndex, Config.maxN]; omega
    · simp only [List.length_map, List.length_range, hoff, Config.maxN]; omega
  case isFalse h =>
    refine Mem.read_writeBlock_outside _ _ _ _ _ _ hcell ?_
    simp only [cellIndex, Config.maxN, List.length_map, List.length_range]
    omega

theorem writeWork_past_end (s : State) (k : Nat) (v : Word) (hk : 2124 ≤ k) : s.writeWork k v = s := if_pos hk

/-- A write to the WORK window reaches WORK and WORK_VALID (R56). -/
theorem writeWork_frame (s : State) (k : Nat) (v : Word) (hk : k < 2124) :
    s.writeWork k v =
      { s with
        status := { s.status with workValid := false }
        mems := { s.mems with work := (s.writeWork k v).mems.work } } := by
  rw [State.writeWork, if_neg (by omega)]
  rfl

/-- RO windows ignore the write (R52). -/
theorem writeWindow_of_readOnly (s : State) (k : Nat) (v : Word) {w : Window}
    (hw : w ∈ [Window.seg, Window.bb, Window.cw, Window.pr, Window.grid, Window.expRom, Window.logRom]) :
    s.writeWindow w k v = s := by
  cases w
  case text | pa | pb | work => simp at hw
  all_goals rfl

/-- Settles O58: while IDLE the write is that of its window, and each window's write stores its fields alone. -/
theorem windowWritesStoreTheirFields : Obligations.WindowWritesStoreTheirFields := by
  unfold Obligations.WindowWritesStoreTheirFields
  intro s k v hp
  simp only [busWrite_idle_word s _ k v hp]
  refine ⟨fun hk => ⟨_, rfl, rfl, fun j _ => ?_⟩, fun _ => ⟨_, rfl, rfl, fun j hj => ?_⟩,
    fun _ => ⟨_, rfl, rfl, fun j hj => ?_⟩, fun hk => ⟨_, rfl, writeWork_frame s k v hk, fun r c hr hc => ?_⟩,
    fun hk => writeWork_past_end s k v hk, fun w hw => writeWindow_of_readOnly s k v hw⟩
  · have hread := Mem.read_write Config.freeWord Config.textDepth s.mems.text k j v
    simpa [State.writeWindow, State.textAt, hk, eq_comm] using hread
  · exact read_writeWord Config.freeByte s.mems.pa Config.polyDepth k j v hj
  · exact read_writeWord Config.freeByte s.mems.pb Config.polyDepth k j v hj
  · exact workAt_writeWork s k r c v hk hr hc

end Sys2Proof.Proofs

/-! PROOFS. The family of spec/30_encoding.md: `decode` inverts `encode` (O1, O2), the legal words and the completion of an
illegal one (O3), and words of R83's table (O4). -/

namespace Sys2Proof.Proofs

open Sys2Proof.Machine

/-! ## Fields and words (R80) -/

theorem ofWord_toWord (f : Fields) : Fields.ofWord f.toWord = f := by
  obtain ⟨rsvd, test, mask, op⟩ := f
  simp only [Fields.ofWord, Fields.toWord, Fields.mk.injEq]
  refine ⟨?_, ?_, ?_, BitVec.extractLsb'_append_eq_right⟩
  · rw [BitVec.extractLsb'_append_eq_of_le (by decide), BitVec.extractLsb'_append_eq_of_le (by decide)]
    exact BitVec.extractLsb'_append_eq_left
  · rw [BitVec.extractLsb'_append_eq_of_le (by decide), BitVec.extractLsb'_append_eq_of_le (by decide)]
    exact BitVec.extractLsb'_append_eq_right
  · rw [BitVec.extractLsb'_append_eq_of_le (by decide)]
    exact BitVec.extractLsb'_append_eq_right

theorem toWord_ofWord (w : Word) : (Fields.ofWord w).toWord = w := by
  have hrsvd_test : w.extractLsb' 12 20 ++ w.extractLsb' 11 1 = w.extractLsb' 11 21 :=
    BitVec.extractLsb'_append_extractLsb'_eq_extractLsb' rfl
  have hmask : w.extractLsb' 11 21 ++ w.extractLsb' 8 3 = w.extractLsb' 8 24 :=
    BitVec.extractLsb'_append_extractLsb'_eq_extractLsb' rfl
  have hop : w.extractLsb' 8 24 ++ w.extractLsb' 0 8 = w.extractLsb' 0 32 :=
    BitVec.extractLsb'_append_extractLsb'_eq_extractLsb' rfl
  calc (Fields.ofWord w).toWord
      = w.extractLsb' 12 20 ++ w.extractLsb' 11 1 ++ w.extractLsb' 8 3 ++ w.extractLsb' 0 8 := rfl
    _ = w.extractLsb' 0 32 := by rw [hrsvd_test, hmask, hop]
    _ = w := BitVec.extractLsb'_eq_self

theorem ofWord_eq_iff (w : Word) (f : Fields) : Fields.ofWord w = f ↔ w = f.toWord := by
  constructor
  · rintro rfl
    exact (toWord_ofWord w).symm
  · rintro rfl
    exact ofWord_toWord f

/-- Bits [11:8] are TEST above MASK (R80). -/
theorem mask_and_test_zero_iff (w : Word) :
    w.extractLsb' 8 3 = 0 ∧ w.extractLsb' 11 1 = 0 ↔ w.extractLsb' 8 4 = 0 := by
  have happend : w.extractLsb' 11 1 ++ w.extractLsb' 8 3 = w.extractLsb' 8 4 :=
    BitVec.extractLsb'_append_extractLsb'_eq_extractLsb' rfl
  have hzero : ∀ (t : BitVec 1) (m : BitVec 3), m = 0 ∧ t = 0 ↔ t ++ m = 0 := by decide
  rw [← happend]
  exact hzero _ _

/-! ## The opcode map (R83) -/

/-- The map returns each command at its own opcode and operands. -/
theorem ofOpcode_opcode (i : Instr) : ofOpcode i.opcode i.maskField i.testField = some i := by cases i <;> rfl

theorem opcode_of_ofOpcode {op : BitVec 8} {mask : BitVec 3} {test : Bool} {i : Instr}
    (h : ofOpcode op mask test = some i) : i.opcode = op := by
  apply BitVec.eq_of_toNat_eq
  unfold ofOpcode at h
  split at h
  case h_22 => cases h
  all_goals
    rename_i hop
    cases h
    exact hop.symm

/-- MASK and TEST are MATRIX_BUILD's alone (R80, R82). -/
theorem operands_zero {i : Instr} (h : i.opcode ≠ 0x40) : i.maskField = 0 ∧ i.testField = false := by
  cases i
  case matrixBuild => exact absurd rfl h
  all_goals exact ⟨rfl, rfl⟩

theorem opcode_mem_assignedOps (i : Instr) : i.opcode ∈ assignedOps := by cases i <;> simp [Instr.opcode, assignedOps]

theorem exists_ofOpcode_iff (op : BitVec 8) (mask : BitVec 3) (test : Bool) :
    (∃ i, ofOpcode op mask test = some i) ↔ op ∈ assignedOps := by
  constructor
  · rintro ⟨i, h⟩
    rw [← opcode_of_ofOpcode h]
    exact opcode_mem_assignedOps i
  · intro h
    have hmap : ∀ op ∈ assignedOps, ∀ mask test, (ofOpcode op mask test).isSome = true := by decide
    exact Option.isSome_iff_exists.1 (hmap op h mask test)

/-- Where the fields of a command without operands are 0, the map's command has the word's MASK and TEST. -/
theorem operands_of_ofOpcode {op : BitVec 8} {mask : BitVec 3} {test : Bool} {i : Instr}
    (h : ofOpcode op mask test = some i) (hz : op ≠ 0x40 → mask = 0 ∧ test = false) :
    i.maskField = mask ∧ i.testField = test := by
  have hop := opcode_of_ofOpcode h
  by_cases h40 : op = 0x40
  · subst h40
    obtain rfl : Instr.matrixBuild mask test = i := Option.some.inj h
    exact ⟨rfl, rfl⟩
  · obtain ⟨rfl, rfl⟩ := hz h40
    exact operands_zero (hop ▸ h40)

/-! ## The decoder (R84, R85) -/

/-- The three checks of R84 on the fields, with the command the map gives. -/
theorem decodeFields_eq_ok_iff (f : Fields) (i : Instr) :
    decodeFields f = .ok i ↔
      ofOpcode f.op f.mask (f.test == 1) = some i ∧ f.rsvd = 0 ∧ (f.op ≠ 0x40 → f.mask = 0 ∧ f.test = 0) := by
  unfold decodeFields
  split
  case isTrue hr => exact ⟨nofun, fun ⟨_, h, _⟩ => absurd h hr⟩
  case isFalse hr =>
    have hrsvd : f.rsvd = 0 := Decidable.not_not.1 hr
    cases ofOpcode f.op f.mask (f.test == 1) with
    | none => exact ⟨nofun, nofun⟩
    | some j =>
      have hchecks : ¬ (f.op ≠ 0x40 ∧ (f.mask ≠ 0 ∨ f.test ≠ 0)) ↔ (f.op ≠ 0x40 → f.mask = 0 ∧ f.test = 0) := by
        simp only [ne_eq, not_and, not_or, Decidable.not_not]
      simp only [Option.some.injEq, hrsvd, true_and, ← hchecks]
      split
      case isTrue hz => exact ⟨nofun, fun ⟨_, h⟩ => absurd hz h⟩
      case isFalse hz => simp only [Except.ok.injEq, hz, not_false_eq_true, and_true]

theorem ofBool_eq_iff_beq_one (b : Bool) (t : BitVec 1) : BitVec.ofBool b = t ↔ b = (t == 1) := by
  revert b t; decide

/-- What passes the checks is the fields of the command it decodes to. -/
theorem decodeFields_eq_ok_iff_fields (f : Fields) (i : Instr) : decodeFields f = .ok i ↔ f = i.fields := by
  rw [decodeFields_eq_ok_iff]
  constructor
  · rintro ⟨hi, hrsvd, hzero⟩
    obtain ⟨hmask, htest⟩ := operands_of_ofOpcode hi fun h => ⟨(hzero h).1, by rw [(hzero h).2]; rfl⟩
    rw [Instr.fields, hmask, opcode_of_ofOpcode hi, (ofBool_eq_iff_beq_one _ _).2 htest, ← hrsvd]
  · rintro rfl
    refine ⟨?_, rfl, fun h => ?_⟩
    · have htest : i.testField = (i.fields.test == 1) := (ofBool_eq_iff_beq_one _ _).1 rfl
      rw [← htest]
      exact ofOpcode_opcode i
    · obtain ⟨hmask, htest⟩ := operands_zero h
      simp [Instr.fields, hmask, htest]

/-- A word decodes to a command exactly when it is that command's own word (R80, R83). -/
theorem decode_eq_ok_iff (w : Word) (i : Instr) : decode w = .ok i ↔ w = encode i := by
  calc decode w = .ok i ↔ Fields.ofWord w = i.fields := decodeFields_eq_ok_iff_fields (Fields.ofWord w) i
    _ ↔ w = encode i := ofWord_eq_iff w i.fields

/-- Settles O1: a command's own word decodes to it. -/
theorem decodeOfEncodeIsTheCommand : Obligations.DecodeOfEncodeIsTheCommand := by
  unfold Obligations.DecodeOfEncodeIsTheCommand
  intro i
  exact (decode_eq_ok_iff (encode i) i).2 rfl

/-- Settles O2: a word that decodes to a command is its own word. -/
theorem decodeAcceptsOnlyEncodedWords : Obligations.DecodeAcceptsOnlyEncodedWords := by
  unfold Obligations.DecodeAcceptsOnlyEncodedWords
  intro w i h
  exact (decode_eq_ok_iff w i).1 h

/-- Legality (R84). -/
theorem exists_decode_iff (w : Word) :
    (∃ i, decode w = .ok i) ↔
      w.extractLsb' 0 8 ∈ assignedOps ∧ w.extractLsb' 12 20 = 0 ∧ (w.extractLsb' 0 8 ≠ 0x40 → w.extractLsb' 8 4 = 0) := by
  simp only [decode, decodeFields_eq_ok_iff, exists_and_right, exists_ofOpcode_iff, Fields.ofWord,
    mask_and_test_zero_iff]

theorem runWord_illegal (s : State) (w : Word) (h : ∀ i, decode w ≠ .ok i) :
    runWord w s = .next (s.raise .illegalCommand (opField w) (opField w)) := by
  obtain ⟨i, hi, -⟩ | ⟨-, hrun⟩ := runWord_cases w s
  · exact absurd hi (h i)
  · exact hrun

/-- Settles O3: decoding succeeds exactly on R84's three conditions; the rest is the completion of an illegal word. -/
theorem illegalWordsCompleteWithIllegalCommand : Obligations.IllegalWordsCompleteWithIllegalCommand := by
  unfold Obligations.IllegalWordsCompleteWithIllegalCommand
  exact ⟨exists_decode_iff, runWord_illegal⟩

/-- Settles O4, by evaluating the decoder on the thirteen words. -/
theorem knownWordsDecode : Obligations.KnownWordsDecode := by
  unfold Obligations.KnownWordsDecode
  exact ⟨rfl, rfl, rfl, rfl, rfl, rfl, rfl, rfl, rfl, rfl, rfl, rfl, rfl⟩

end Sys2Proof.Proofs

/-! PROOFS. The family of spec/41_gf_poly.md: the field's product is bilinear and multiplies powers of α (O19, O20, O21); the
values and coefficients of the polynomials that the list operations give (O22, O24, O25, O27), and the commands that leave one
in PR (O22, O23, O25, O26). -/

namespace Sys2Proof.Proofs

open Sys2Proof.Machine Sys2Proof.Claims

/-! ## Powers of α (R101, R102) -/

theorem timesX_xor (a b : Byte) : timesX (a ^^^ b) = timesX a ^^^ timesX b := by
  have hcarry : ∀ s t : Bool,
      (if (s ^^ t) then 0x1D else 0 : Byte) = (if s then 0x1D else 0) ^^^ (if t then 0x1D else 0) := by decide
  simp only [timesX, BitVec.shiftLeft_xor_distrib, BitVec.getLsbD_xor, hcarry]
  ac_rfl

theorem timesXPow_xor (a b : Byte) (k : Nat) : timesXPow (a ^^^ b) k = timesXPow a k ^^^ timesXPow b k := by
  induction k with
  | zero => rfl
  | succ k ih => simp only [timesXPow, ih, timesX_xor]

theorem timesXPow_zero (k : Nat) : timesXPow 0 k = 0 := by
  induction k with
  | zero => rfl
  | succ k ih => rw [timesXPow, ih]; rfl

theorem timesXPow_timesXPow (a : Byte) (j k : Nat) : timesXPow (timesXPow a j) k = timesXPow a (j + k) := by
  induction k with
  | zero => rfl
  | succ k ih => exact congrArg timesX ih

theorem timesXPow_alphaPow (j k : Nat) : timesXPow (alphaPow j) k = alphaPow (j + k) := timesXPow_timesXPow 1 j k

/-- α^255 = 1: exponents count modulo 255 (R104). -/
theorem alphaPow_mod (k : Nat) : alphaPow (k % 255) = alphaPow k := by
  have hperiod : ∀ m, alphaPow (255 + m) = alphaPow m := fun m => by
    have hone : alphaPow 255 = 1 := (expAt_eq_alphaPow 255 (by omega)).symm
    rw [← timesXPow_alphaPow, hone, alphaPow]
  induction k using Nat.strongRecOn with
  | _ k ih =>
    by_cases hk : k < 255
    · rw [Nat.mod_eq_of_lt hk]
    · obtain ⟨m, rfl⟩ : ∃ m, k = 255 + m := ⟨k - 255, by omega⟩
      rw [Nat.add_mod_left, ih m (by omega), hperiod]

theorem expAt_mod (k : Nat) : expAt (k % 255) = alphaPow k := by
  rw [expAt_eq_alphaPow _ (by omega), alphaPow_mod]

theorem gexp_eq_alphaPow (e : Int) : gexp e = alphaPow (e % 255).toNat := expAt_eq_alphaPow _ (by omega)

theorem gexp_natCast (k : Nat) : gexp k = alphaPow k := by
  rw [gexp_eq_alphaPow, show ((k : Int) % 255).toNat = k % 255 by omega, alphaPow_mod]

theorem alphaPow_ne_zero (k : Nat) : alphaPow k ≠ 0 := by
  rw [← expAt_mod]
  exact (log_exp ⟨k % 255, Nat.mod_lt _ (by omega)⟩).1

theorem logAt_alphaPow (k : Nat) : logAt (alphaPow k) = k % 255 := by
  rw [← expAt_mod]
  exact (log_exp ⟨k % 255, Nat.mod_lt _ (by omega)⟩).2

/-- The logarithm of a non-zero byte (R103). -/
theorem alphaPow_logAt {a : Byte} (ha : a ≠ 0) : alphaPow (logAt a) = a := by
  obtain ⟨hexp, hlt⟩ := exp_log a ha
  rw [← expAt_eq_alphaPow _ (by omega), hexp]

theorem eq_zero_or_alphaPow (a : Byte) : a = 0 ∨ ∃ k, a = alphaPow k := by
  by_cases ha : a = 0
  · exact .inl ha
  · exact .inr ⟨logAt a, (alphaPow_logAt ha).symm⟩

/-! ## The field product (R100, R106) -/

theorem gmul_zero (a : Byte) : gmul a 0 = 0 := if_pos (.inr rfl)

theorem zero_gmul (a : Byte) : gmul 0 a = 0 := if_pos (.inl rfl)

theorem gmul_comm (a b : Byte) : gmul a b = gmul b a := by simp only [gmul, Or.comm, Nat.add_comm]

/-- A product with α^k is k multiplications by x: the log and exp tables multiply as R100 does. -/
theorem gmul_alphaPow (a : Byte) (k : Nat) : gmul a (alphaPow k) = timesXPow a k := by
  obtain rfl | ⟨j, rfl⟩ := eq_zero_or_alphaPow a
  · rw [timesXPow_zero, zero_gmul]
  · rw [gmul, if_neg (not_or.2 ⟨alphaPow_ne_zero j, alphaPow_ne_zero k⟩), logAt_alphaPow, logAt_alphaPow, ← Nat.add_mod, expAt_mod,
      timesXPow_alphaPow]

theorem gmul_one (a : Byte) : gmul a 1 = a := gmul_alphaPow a 0

theorem xor_gmul (a b c : Byte) : gmul (a ^^^ b) c = gmul a c ^^^ gmul b c := by
  obtain rfl | ⟨k, rfl⟩ := eq_zero_or_alphaPow c
  · simp only [gmul_zero]
    rfl
  · simp only [gmul_alphaPow, timesXPow_xor]

theorem gmul_xor (a b c : Byte) : gmul a (b ^^^ c) = gmul a b ^^^ gmul a c := by
  simp only [gmul_comm a, xor_gmul]

theorem gmul_assoc (a b c : Byte) : gmul (gmul a b) c = gmul a (gmul b c) := by
  obtain rfl | ⟨j, rfl⟩ := eq_zero_or_alphaPow b
  · rw [gmul_zero, zero_gmul, gmul_zero]
  · obtain rfl | ⟨k, rfl⟩ := eq_zero_or_alphaPow c
    · simp only [gmul_zero]
    · rw [gmul_alphaPow a, gmul_alphaPow, gmul_alphaPow, timesXPow_alphaPow, gmul_alphaPow, timesXPow_timesXPow]

/-- Shift and add is linear in the shifted operand, so it is that operand times its value at 1. -/
theorem fieldProduct_eq_gmul_fieldProduct_one (a b : Byte) : fieldProduct a b = gmul b (fieldProduct a 1) := by
  rw [fieldProduct, ← gmul_zero b]
  refine List.foldl_hom (gmul b) fun acc i => ?_
  split
  · rw [gmul_xor, ← gmul_alphaPow b]
    rfl
  · rfl

set_option maxRecDepth 20000 in
theorem fieldProduct_one : ∀ a : Byte, fieldProduct a 1 = a := by decide

/-- R106 computes the product of R100. -/
theorem fieldProduct_eq_gmul (a b : Byte) : fieldProduct a b = gmul a b := by
  rw [fieldProduct_eq_gmul_fieldProduct_one, fieldProduct_one, gmul_comm]

/-! ## GF_EXP, GF_LOG, GF_MUL (R113..R115) -/

/-- Settles O19: EXP holds the powers of α, and the exponent counts modulo 255. -/
theorem gfExpIsAPowerOfAlpha : Obligations.GfExpIsAPowerOfAlpha := by
  unfold Obligations.GfExpIsAPowerOfAlpha
  intro s
  rw [exec_eq_finish s .gfExp nofun, resultOf, gfExp, gexp_eq_alphaPow]
  rfl

theorem setWidth_byte_eq_zero_iff {w : Word} (h : w.toNat < 256) : w.setWidth 8 = 0 ↔ w.toNat = 0 := by
  rw [← BitVec.toNat_inj]
  simp [Nat.mod_eq_of_lt h]

/-- Settles O20: on a byte LOG is the logarithm to α, and the checks come in R114's order. -/
theorem gfLogIsTheLogarithm : Obligations.GfLogIsTheLogarithm := by
  unfold Obligations.GfLogIsTheLogarithm
  intro s
  rw [exec_eq_finish s .gfLog nofun, resultOf, gfLog]
  refine ⟨fun h => ?_, fun h => ?_, fun hpos h => ?_⟩
  · rw [byteOperand_of_ge h]
    rfl
  · have hlt : s.regs.opa.toNat < 256 := by omega
    simp only [byteOperand_of_lt hlt, (setWidth_byte_eq_zero_iff hlt).2 h, if_true]
    rfl
  · have hne : s.regs.opa.setWidth 8 ≠ 0 := fun hz => by
      have := (setWidth_byte_eq_zero_iff h).1 hz
      omega
    simp only [byteOperand_of_lt h, hne, if_false]
    exact ⟨_, Nat.le_of_lt_succ (exp_log _ hne).2, alphaPow_logAt hne, rfl⟩

/-- Settles O21: the tables' product is the shift-and-add product. -/
theorem gfMulIsTheFieldProduct : Obligations.GfMulIsTheFieldProduct := by
  unfold Obligations.GfMulIsTheFieldProduct
  intro s
  rw [exec_eq_finish s .gfMul nofun, resultOf, gfMul]
  refine ⟨fun h => ?_, fun ha hb => ?_⟩
  · obtain ha | hb := h
    · rw [byteOperand_of_ge ha]
      rfl
    · rw [byteOperand_of_ge hb]
      cases byteOperand s.regs.opa <;> rfl
  · rw [byteOperand_of_lt ha, byteOperand_of_lt hb, fieldProduct_eq_gmul]
    rfl

/-! ## Values of polynomials (R107) -/

theorem byte_zero_xor (a : Byte) : 0 ^^^ a = a := BitVec.zero_xor

theorem byte_xor_zero (a : Byte) : a ^^^ 0 = a := BitVec.xor_zero

/-- Horner's rule over ⊗, from the value `acc` of the coefficients already read. -/
def valueFrom (y acc : Byte) (p : List Byte) : Byte := p.foldl (fun acc c => gmul acc y ^^^ c) acc

theorem valueAt_eq_valueFrom (p : List Byte) (y : Byte) : valueAt p y = valueFrom y 0 p := by
  simp only [valueAt, fieldProduct_eq_gmul, valueFrom]

@[simp] theorem valueFrom_nil (y acc : Byte) : valueFrom y acc [] = acc := rfl

@[simp] theorem valueFrom_cons (y acc c : Byte) (p : List Byte) :
    valueFrom y acc (c :: p) = valueFrom y (gmul acc y ^^^ c) p := rfl

theorem valueFrom_append (y acc : Byte) (p q : List Byte) :
    valueFrom y acc (p ++ q) = valueFrom y (valueFrom y acc p) q := List.foldl_append

/-- A leading zero adds nothing to the value. -/
theorem valueFrom_zero_cons (y : Byte) (p : List Byte) : valueFrom y 0 (0 :: p) = valueFrom y 0 p := by
  rw [valueFrom_cons, zero_gmul]
  rfl

theorem valueFrom_zeros (y : Byte) (k : Nat) : valueFrom y 0 (List.replicate k 0) = 0 := by
  induction k with
  | zero => rfl
  | succ k ih => rw [List.replicate_succ, valueFrom_zero_cons, ih]

theorem valueFrom_norm (y : Byte) (p : List Byte) : valueFrom y 0 (norm p) = valueFrom y 0 p := by
  induction p with
  | nil => rfl
  | cons x p ih =>
    by_cases hx : x = 0
    · rw [hx, norm_cons_zero, valueFrom_zero_cons, ih]
    · rw [norm_cons_of_ne hx]

/-- The value is additive in the polynomial. -/
theorem valueFrom_zipWith_xor (y a b : Byte) {p q : List Byte} (hl : p.length = q.length) :
    valueFrom y (a ^^^ b) (List.zipWith (· ^^^ ·) p q) = valueFrom y a p ^^^ valueFrom y b q := by
  induction p generalizing a b q with
  | nil =>
    obtain rfl := List.length_eq_zero_iff.1 hl.symm
    rfl
  | cons x p ih =>
    cases q with
    | nil => cases hl
    | cons z q =>
      have hstep : gmul (a ^^^ b) y ^^^ (x ^^^ z) = (gmul a y ^^^ x) ^^^ (gmul b y ^^^ z) := by
        rw [xor_gmul]
        ac_rfl
      rw [List.zipWith_cons_cons, valueFrom_cons, hstep, ih _ _ (Nat.succ.inj hl)]
      rfl

theorem valueFrom_zero_zipWith_xor (y : Byte) {p q : List Byte} (hl : p.length = q.length) :
    valueFrom y 0 (List.zipWith (· ^^^ ·) p q) = valueFrom y 0 p ^^^ valueFrom y 0 q := valueFrom_zipWith_xor y 0 0 hl

theorem zipWith_xor_zeros (p : List Byte) : List.zipWith (· ^^^ ·) p (List.replicate p.length 0) = p := by
  induction p with
  | nil => rfl
  | cons x p ih => rw [List.length_cons, List.replicate_succ, List.zipWith_cons_cons, ih, byte_xor_zero]

theorem valueFrom_map_gmul (y x acc : Byte) (p : List Byte) :
    valueFrom y (gmul x acc) (p.map (gmul x)) = gmul x (valueFrom y acc p) := by
  induction p generalizing acc with
  | nil => rfl
  | cons c p ih => rw [List.map_cons, valueFrom_cons, gmul_assoc, ← gmul_xor, ih, valueFrom_cons]

theorem valueFrom_zero_map_gmul (y x : Byte) (p : List Byte) :
    valueFrom y 0 (p.map (gmul x)) = gmul x (valueFrom y 0 p) := by
  rw [← valueFrom_map_gmul, gmul_zero]

theorem gmul_valueFrom_zeros (y x acc : Byte) (k : Nat) :
    valueFrom y (gmul x acc) (List.replicate k 0) = gmul x (valueFrom y acc (List.replicate k 0)) := by
  rw [← valueFrom_map_gmul, List.map_replicate, gmul_zero]

/-- What is read before `p` counts as if `p` were zeros. -/
theorem valueFrom_eq_xor (y acc : Byte) (p : List Byte) :
    valueFrom y acc p = valueFrom y 0 p ^^^ valueFrom y acc (List.replicate p.length 0) := by
  rw [← valueFrom_zipWith_xor y 0 acc List.length_replicate.symm, zipWith_xor_zeros, byte_zero_xor]

/-! ## Coefficients of polynomials (R107, R108) -/

theorem coefficient_append (p q : List Byte) (d : Nat) :
    coefficient (p ++ q) d = if d < q.length then coefficient q d else coefficient p (d - q.length) := by
  simp only [coefficient, List.reverse_append, List.getD_eq_getElem?_getD, List.getElem?_append, List.length_reverse]
  split <;> rfl

theorem coefficient_zeros (k d : Nat) : coefficient (List.replicate k 0) d = 0 := by
  rw [coefficient, List.reverse_replicate, List.getD_eq_getElem?_getD, List.getElem?_replicate]
  split <;> rfl

theorem coefficient_of_length_le {p : List Byte} {d : Nat} (h : p.length ≤ d) : coefficient p d = 0 := by
  rw [coefficient, List.getD_eq_getElem?_getD, List.getElem?_eq_none (by rwa [List.length_reverse]), Option.getD_none]

theorem getD_append_zeros (p : List Byte) (k j : Nat) : (p ++ List.replicate k 0).getD j 0 = p.getD j 0 := by
  simp only [List.getD_eq_getElem?_getD, List.getElem?_append, List.getElem?_replicate]
  split
  case isTrue => rfl
  case isFalse hj =>
    rw [List.getElem?_eq_none (Nat.not_lt.1 hj)]
    split <;> rfl

/-- Leading zeros are no coefficients. -/
theorem coefficient_zeros_append (k : Nat) (p : List Byte) (d : Nat) :
    coefficient (List.replicate k 0 ++ p) d = coefficient p d := by
  rw [coefficient, List.reverse_append, List.reverse_replicate, getD_append_zeros, coefficient]

theorem coefficient_norm (p : List Byte) (d : Nat) : coefficient (norm p) d = coefficient p d := by
  induction p with
  | nil => rfl
  | cons x p ih =>
    by_cases hx : x = 0
    · rw [hx, norm_cons_zero, ih]
      exact (coefficient_zeros_append 1 p d).symm
    · rw [norm_cons_of_ne hx]

theorem getD_zipWith_xor {p q : List Byte} (hl : p.length = q.length) (k : Nat) :
    (List.zipWith (· ^^^ ·) p q).getD k 0 = p.getD k 0 ^^^ q.getD k 0 := by
  simp only [List.getD_eq_getElem?_getD, List.getElem?_zipWith]
  by_cases hk : k < p.length
  · rw [List.getElem?_eq_getElem hk, List.getElem?_eq_getElem (hl ▸ hk)]
    rfl
  · rw [List.getElem?_eq_none (Nat.not_lt.1 hk), List.getElem?_eq_none (hl ▸ Nat.not_lt.1 hk)]
    rfl

theorem coefficient_zipWith_xor {p q : List Byte} (hl : p.length = q.length) (d : Nat) :
    coefficient (List.zipWith (· ^^^ ·) p q) d = coefficient p d ^^^ coefficient q d := by
  rw [coefficient, List.reverse_zipWith hl, getD_zipWith_xor (by rwa [List.length_reverse, List.length_reverse]), coefficient,
    coefficient]

theorem getD_map_gmul (x : Byte) (p : List Byte) (k : Nat) : (p.map (gmul x)).getD k 0 = gmul x (p.getD k 0) := by
  rw [List.getD_eq_getElem?_getD, List.getD_eq_getElem?_getD, List.getElem?_map]
  cases p[k]? with
  | none => exact (gmul_zero x).symm
  | some c => rfl

theorem coefficient_map_gmul (x : Byte) (p : List Byte) (d : Nat) :
    coefficient (p.map (gmul x)) d = gmul x (coefficient p d) := by
  rw [coefficient, ← List.map_reverse, getD_map_gmul, coefficient]

/-- R108's sum, taken from its first term. -/
theorem productCoefficient_cons (x : Byte) (p b : List Byte) (k : Nat) :
    productCoefficient (x :: p) b k =
      gmul x (b.getD k 0) ^^^ ((List.range k).map fun i => gmul (p.getD i 0) (b.getD (k - (i + 1)) 0)).foldl (· ^^^ ·) 0 := by
  simp only [productCoefficient, fieldProduct_eq_gmul, List.range_succ_eq_map, List.map_cons, List.foldl_cons,
    List.getD_cons_zero, Nat.sub_zero, List.map_map, Function.comp_def, List.getD_cons_succ, Nat.succ_eq_add_one]
  rw [BitVec.xor_comm 0, List.foldl_assoc]

theorem productCoefficient_cons_zero (x : Byte) (p b : List Byte) :
    productCoefficient (x :: p) b 0 = gmul x (b.getD 0 0) := by
  rw [productCoefficient_cons]
  exact byte_xor_zero _

theorem productCoefficient_cons_succ (x : Byte) (p b : List Byte) (k : Nat) :
    productCoefficient (x :: p) b (k + 1) = gmul x (b.getD (k + 1) 0) ^^^ productCoefficient p b k := by
  rw [productCoefficient_cons]
  simp only [Nat.add_sub_add_right, productCoefficient, fieldProduct_eq_gmul]

theorem productCoefficient_norm (q b : List Byte) (k : Nat) :
    productCoefficient q (norm b).reverse k = productCoefficient q b.reverse k := by
  have hb (j : Nat) : (norm b).reverse.getD j 0 = b.reverse.getD j 0 := coefficient_norm b j
  simp only [productCoefficient, hb]

theorem productCoefficient_nil (b : List Byte) (k : Nat) : productCoefficient [] b k = 0 := by
  have hzeros (l : List Nat) : (l.map fun _ => (0 : Byte)).foldl (· ^^^ ·) 0 = 0 := by
    induction l with
    | nil => rfl
    | cons i l ih => rwa [List.map_cons, List.foldl_cons, byte_xor_zero]
  simp only [productCoefficient, fieldProduct_eq_gmul, List.getD_nil, zero_gmul]
  exact hzeros _

/-- The sum of two polynomials, lowest degree first. -/
def addLists : List Byte → List Byte → List Byte
  | [], q => q
  | p, [] => p
  | x :: p, y :: q => (x ^^^ y) :: addLists p q

theorem addLists_nil (p : List Byte) : addLists p [] = p := by cases p <;> rfl

/-- R108's product distributes over the sum. -/
theorem productCoefficient_addLists (p q b : List Byte) (k : Nat) :
    productCoefficient (addLists p q) b k = productCoefficient p b k ^^^ productCoefficient q b k := by
  induction p generalizing q k with
  | nil => rw [addLists, productCoefficient_nil, byte_zero_xor]
  | cons x p ih =>
    cases q with
    | nil => rw [addLists_nil, productCoefficient_nil, byte_xor_zero]
    | cons y q =>
      rw [addLists]
      cases k with
      | zero => simp only [productCoefficient_cons_zero, xor_gmul]
      | succ k =>
        simp only [productCoefficient_cons_succ, xor_gmul, ih]
        ac_rfl

/-- The product of c·x^k with `b`, lowest degree first. -/
theorem productCoefficient_monomial (k : Nat) (c : Byte) (b : List Byte) (d : Nat) :
    productCoefficient (List.replicate k 0 ++ [c]) b d = if d < k then 0 else gmul c (b.getD (d - k) 0) := by
  induction k generalizing d with
  | zero =>
    rw [if_neg (Nat.not_lt_zero d)]
    cases d with
    | zero => exact productCoefficient_cons_zero c [] b
    | succ d =>
      rw [List.replicate_zero, List.nil_append, productCoefficient_cons_succ, productCoefficient_nil]
      exact byte_xor_zero _
  | succ k ih =>
    rw [List.replicate_succ, List.cons_append]
    cases d with
    | zero => rw [productCoefficient_cons_zero, zero_gmul, if_pos (Nat.succ_pos k)]
    | succ d =>
      rw [productCoefficient_cons_succ, zero_gmul, ih, Nat.add_sub_add_right]
      simp only [Nat.add_lt_add_iff_right]
      exact byte_zero_xor _

/-! ## The model's product (R108) -/

/-- The partial product and the shifted rest that R108 adds have one length. -/
theorem length_partialProduct {b : List Byte} (hb : b ≠ []) (x : Byte) (xs : List Byte) :
    (b.map (gmul x) ++ List.replicate xs.length 0).length = (0 :: convolve b xs).length := by
  have hpos := List.length_pos_iff.2 hb
  simp only [List.length_append, List.length_map, List.length_replicate, List.length_cons, length_convolve b xs hb]
  omega

theorem getD_convolve {b : List Byte} (hb : b ≠ []) (a : List Byte) (k : Nat) :
    (convolve b a).getD k 0 = productCoefficient a b k := by
  induction a generalizing k with
  | nil =>
    rw [convolve, productCoefficient_nil]
    exact getD_append_zeros [] _ k
  | cons x xs ih =>
    rw [convolve, getD_zipWith_xor (length_partialProduct hb x xs), getD_append_zeros, getD_map_gmul]
    cases k with
    | zero =>
      rw [productCoefficient_cons_zero]
      exact byte_xor_zero _
    | succ k => rw [List.getD_cons_succ, ih, productCoefficient_cons_succ]

/-- The coefficients of a product are R108's sums of products. -/
theorem pmul_eq_productCoefficients {a b : List Byte} (ha : norm a ≠ []) (hb : norm b ≠ []) :
    pmul a b = (List.range ((norm a).length + (norm b).length - 1)).map (productCoefficient (norm a) (norm b)) := by
  refine List.ext_getElem (by rw [length_pmul a b ha hb, List.length_map, List.length_range]) fun k hk _ => ?_
  rw [List.getElem_map, List.getElem_range, ← getD_convolve hb, List.getElem_eq_getD 0, pmul, if_neg (not_or.2 ⟨ha, hb⟩)]

theorem valueFrom_convolve (y : Byte) {b : List Byte} (hb : b ≠ []) (a : List Byte) :
    valueFrom y 0 (convolve b a) = gmul (valueFrom y 0 a) (valueFrom y 0 b) := by
  induction a with
  | nil => rw [convolve, valueFrom_zeros, valueFrom_nil, zero_gmul]
  | cons x xs ih =>
    have hhead : valueFrom y 0 (x :: xs) = valueFrom y x xs := by rw [valueFrom_cons, zero_gmul, byte_zero_xor]
    have hpartial : valueFrom y 0 (b.map (gmul x) ++ List.replicate xs.length 0) =
        gmul (valueFrom y x (List.replicate xs.length 0)) (valueFrom y 0 b) := by
      rw [valueFrom_append, valueFrom_zero_map_gmul, gmul_comm x, gmul_valueFrom_zeros, gmul_comm]
    rw [convolve, valueFrom_zero_zipWith_xor y (length_partialProduct hb x xs), valueFrom_zero_cons, hpartial, ih, ← xor_gmul,
      hhead, valueFrom_eq_xor y x xs, BitVec.xor_comm]

/-- A product's value is the product of the values (R108). -/
theorem valueFrom_pmul (y : Byte) (a b : List Byte) :
    valueFrom y 0 (pmul a b) = gmul (valueFrom y 0 a) (valueFrom y 0 b) := by
  rw [← valueFrom_norm y a, ← valueFrom_norm y b]
  by_cases hz : norm a = [] ∨ norm b = []
  · rw [pmul_of_zero a b hz]
    obtain ha | hb := hz
    · rw [ha, valueFrom_nil, zero_gmul]
    · rw [hb, valueFrom_nil, gmul_zero]
  · rw [pmul, if_neg hz, valueFrom_convolve y (not_or.1 hz).2]

/-! ## The model's remainder (R109) -/

theorem xorFront_eq_zipWith {a d : List Byte} (hl : d.length ≤ a.length) :
    xorFront a d = List.zipWith (· ^^^ ·) a (d ++ List.replicate (a.length - d.length) 0) := by
  induction d generalizing a with
  | nil =>
    rw [List.nil_append, List.length_nil, Nat.sub_zero, zipWith_xor_zeros]
    cases a <;> rfl
  | cons y d ih =>
    cases a with
    | nil => exact absurd hl (Nat.not_succ_le_zero _)
    | cons x a =>
      rw [xorFront, ih (Nat.le_of_succ_le_succ hl), List.length_cons, List.length_cons, Nat.add_sub_add_right,
        List.cons_append, List.zipWith_cons_cons]

/-- One pass of R109 adds a multiple c·x^k of the divisor. -/
theorem reduceOnce_eq {a b : List Byte} (hl : b.length ≤ a.length) :
    ∃ c, reduceOnce a b =
      norm (List.zipWith (· ^^^ ·) a (b.map (gmul c) ++ List.replicate (a.length - b.length) 0)) := by
  refine ⟨gexp ((logAt (a.headD 0) : Int) - (logAt (b.headD 0) : Int)), ?_⟩
  simp only [reduceOnce, gmul_comm _ (gexp _)]
  rw [xorFront_eq_zipWith (by rwa [List.length_map]), List.length_map]

/-- What one pass of R109 adds to the dividend has its length. -/
theorem length_multiple {a b : List Byte} (hl : b.length ≤ a.length) (c : Byte) :
    a.length = (b.map (gmul c) ++ List.replicate (a.length - b.length) 0).length := by
  rw [List.length_append, List.length_map, List.length_replicate, Nat.add_sub_cancel' hl]

theorem valueFrom_reduceOnce {y : Byte} {a b : List Byte} (hl : b.length ≤ a.length) (hb : valueFrom y 0 b = 0) :
    valueFrom y 0 (reduceOnce a b) = valueFrom y 0 a := by
  obtain ⟨c, hc⟩ := reduceOnce_eq hl
  rw [hc, valueFrom_norm, valueFrom_zero_zipWith_xor y (length_multiple hl c), valueFrom_append, valueFrom_zero_map_gmul, hb,
    gmul_zero, valueFrom_zeros]
  exact byte_xor_zero _

theorem coefficient_reduceOnce {a b : List Byte} (hl : b.length ≤ a.length) :
    ∃ m, ∀ d, coefficient (reduceOnce a b) d = coefficient a d ^^^ productCoefficient m b.reverse d := by
  obtain ⟨c, hc⟩ := reduceOnce_eq hl
  refine ⟨List.replicate (a.length - b.length) 0 ++ [c], fun d => ?_⟩
  rw [hc, coefficient_norm, coefficient_zipWith_xor (length_multiple hl c), productCoefficient_monomial, coefficient_append,
    coefficient_zeros, List.length_replicate, coefficient_map_gmul, coefficient]
  rfl

/-- At a root of the divisor the remainder has the dividend's value. -/
theorem valueFrom_reduceLoop {y : Byte} {b : List Byte} (hb : valueFrom y 0 b = 0) (fuel : Nat) (a : List Byte) :
    valueFrom y 0 (reduceLoop b fuel a) = valueFrom y 0 a := by
  induction fuel generalizing a with
  | zero => rfl
  | succ fuel ih =>
    rw [reduceLoop]
    split
    case isTrue hl => rw [ih, valueFrom_reduceOnce hl hb]
    case isFalse => rfl

theorem coefficient_reduceLoop (b : List Byte) (fuel : Nat) (a : List Byte) :
    ∃ q, ∀ d, coefficient a d = productCoefficient q b.reverse d ^^^ coefficient (reduceLoop b fuel a) d := by
  have hnone (r : List Byte) : ∃ q, ∀ d, coefficient r d = productCoefficient q b.reverse d ^^^ coefficient r d :=
    ⟨[], fun d => by rw [productCoefficient_nil, byte_zero_xor]⟩
  induction fuel generalizing a with
  | zero => exact hnone a
  | succ fuel ih =>
    rw [reduceLoop]
    split
    case isTrue hl =>
      obtain ⟨m, hm⟩ := coefficient_reduceOnce hl
      obtain ⟨q, hq⟩ := ih (reduceOnce a b)
      refine ⟨addLists m q, fun d => ?_⟩
      have hcancel : coefficient a d = productCoefficient m b.reverse d ^^^ coefficient (reduceOnce a b) d := by
        rw [hm, BitVec.xor_comm, BitVec.xor_assoc, BitVec.xor_self, BitVec.xor_zero]
      rw [hcancel, hq, productCoefficient_addLists, BitVec.xor_assoc]
    case isFalse => exact hnone a

/-! ## The generator polynomial and the error-correction codewords (R110, R111) -/

/-- α^0..α^(n-1) are roots of g_n (R110). -/
theorem valueFrom_genPoly {i n : Nat} (hi : i < n) : valueFrom (alphaPow i) 0 (genPoly n) = 0 := by
  induction n with
  | zero => exact absurd hi (Nat.not_lt_zero i)
  | succ n ih =>
    have hfactor : valueFrom (alphaPow i) 0 [0x01, gexp n] = alphaPow i ^^^ alphaPow n := by
      rw [valueFrom_cons, zero_gmul, byte_zero_xor, valueFrom_cons, gmul_comm, gmul_one, gexp_natCast, valueFrom_nil]
    rw [genPoly_succ, valueFrom_pmul, hfactor]
    obtain hlt | rfl := Nat.lt_or_eq_of_le (Nat.le_of_lt_succ hi)
    · rw [ih hlt, zero_gmul]
    · rw [BitVec.xor_self]
      exact gmul_zero _

/-! ## Lengths and normal forms (R109..R111) -/

theorem genPoly_head (n : Nat) : (genPoly n).head? = some 0x01 := by
  obtain ⟨q, hq, -⟩ := genPoly_monic n
  rw [hq, List.head?_cons]

theorem norm_genPoly_ne_nil (n : Nat) : norm (genPoly n) ≠ [] := by
  obtain ⟨q, hq, -⟩ := genPoly_monic n
  rw [norm_genPoly, hq]
  exact List.cons_ne_nil _ q

theorem length_pmod_lt (a : List Byte) {b : List Byte} (hb : norm b ≠ []) : (pmod a b).length < (norm b).length :=
  (reduceLoop_spec (norm_norm b) hb _ (norm a) (norm_norm a) (Nat.le_refl _)).2.1

theorem norm_pmod (a : List Byte) {b : List Byte} (hb : norm b ≠ []) : norm (pmod a b) = pmod a b :=
  (reduceLoop_spec (norm_norm b) hb _ (norm a) (norm_norm a) (Nat.le_refl _)).1

theorem reduceLoop_of_lt {a b : List Byte} (h : a.length < b.length) (fuel : Nat) : reduceLoop b fuel a = a := by
  cases fuel with
  | zero => rfl
  | succ fuel => exact if_neg (Nat.not_le.2 h)

theorem pmod_of_lt {a b : List Byte} (h : (norm a).length < (norm b).length) : pmod a b = norm a := reduceLoop_of_lt h _

/-- rs_ecc has n coefficients (R111). -/
theorem length_rsEcc (data : List Byte) (n : Nat) : (rsEcc data n).length = n := by
  refine length_padLeft n _ (Nat.le_of_lt_succ ?_)
  have hlt := length_pmod_lt (data ++ List.replicate n 0) (norm_genPoly_ne_nil n)
  rwa [norm_genPoly, length_genPoly_le] at hlt

theorem pmod_zeros_append (k : Nat) (a b : List Byte) : pmod (List.replicate k 0 ++ a) b = pmod a b := by
  rw [pmod, norm_replicate_zero, ← pmod]

theorem rsEcc_nil (n : Nat) : rsEcc [] n = List.replicate n 0 := by
  have hmod : pmod (List.replicate n 0) (genPoly n) = [] := by
    rw [← List.append_nil (List.replicate n 0), pmod_zeros_append]
    exact pmod_of_lt (List.length_pos_iff.2 (norm_genPoly_ne_nil n))
  rw [rsEcc, List.nil_append, hmod, padLeft, List.length_nil, Nat.sub_zero, List.append_nil]

/-- Leading zeros of the data do not change rs_ecc (R111). -/
theorem rsEcc_zeros_append (k : Nat) (data : List Byte) (n : Nat) :
    rsEcc (List.replicate k 0 ++ data) n = rsEcc data n := by
  rw [rsEcc, List.append_assoc, pmod_zeros_append, ← rsEcc]

/-- a = q·b ⊕ pmod(a, b), coefficient by coefficient (R109). -/
theorem exists_divisionCoefficient (a b : List Byte) :
    ∃ q, ∀ d, coefficient a d = divisionCoefficient q b (pmod a b) d := by
  obtain ⟨q, hq⟩ := coefficient_reduceLoop (norm b) (norm a).length (norm a)
  refine ⟨q.reverse, fun d => ?_⟩
  rw [divisionCoefficient, List.reverse_reverse, ← coefficient_norm a, hq, productCoefficient_norm, pmod]

/-- Settles O24: the loop of R109 leaves a short normalized remainder, and each pass adds a multiple of the divisor. -/
theorem remainderIsShorterThanTheDivisor : Obligations.RemainderIsShorterThanTheDivisor := by
  unfold Obligations.RemainderIsShorterThanTheDivisor
  intro a b hb
  exact ⟨length_pmod_lt a hb, norm_pmod a hb, pmod_of_lt, exists_divisionCoefficient a b⟩

theorem valueAt_append_rsEcc (data : List Byte) {i n : Nat} (hi : i < n) :
    valueAt (data ++ rsEcc data n) (alphaPow i) = 0 := by
  have hroot : valueFrom (alphaPow i) 0 (norm (genPoly n)) = 0 := by rw [valueFrom_norm, valueFrom_genPoly hi]
  have hecc : valueFrom (alphaPow i) 0 (rsEcc data n) = valueFrom (alphaPow i) 0 (data ++ List.replicate n 0) := by
    rw [rsEcc, padLeft, valueFrom_append, valueFrom_zeros, pmod, valueFrom_reduceLoop hroot, valueFrom_norm]
  rw [valueAt_eq_valueFrom, valueFrom_append, valueFrom_eq_xor, length_rsEcc, hecc, valueFrom_append, BitVec.xor_self]
  rfl

/-- The block is its shifted data with the remainder in the last n places, so what is left of it is the multiple (R111). -/
theorem exists_multiple_of_genPoly (data : List Byte) (n : Nat) :
    ∃ q, ∀ d, coefficient (data ++ rsEcc data n) d = divisionCoefficient q (genPoly n) [] d := by
  obtain ⟨q, hq⟩ := exists_divisionCoefficient (data ++ List.replicate n 0) (genPoly n)
  refine ⟨q, fun d => ?_⟩
  have hecc : coefficient (pmod (data ++ List.replicate n 0) (genPoly n)) d = coefficient (rsEcc data n) d := by
    rw [rsEcc, padLeft, coefficient_zeros_append]
  have hblock : coefficient (data ++ rsEcc data n) d =
      coefficient (data ++ List.replicate n 0) d ^^^ coefficient (rsEcc data n) d := by
    rw [coefficient_append, coefficient_append, length_rsEcc, List.length_replicate]
    split
    case isTrue => rw [coefficient_zeros, byte_zero_xor]
    case isFalse hd =>
      have hpast : (rsEcc data n).length ≤ d := by rwa [length_rsEcc, ← Nat.not_lt]
      rw [coefficient_of_length_le hpast, byte_xor_zero]
  rw [hblock, hq, divisionCoefficient, divisionCoefficient, hecc, BitVec.xor_assoc, BitVec.xor_self]
  rfl

/-- Settles O27: the codewords are the remainder of the shifted data, so the block is a multiple of g_n. -/
theorem blockWithItsEcIsDivisibleByTheGenerator : Obligations.BlockWithItsEcIsDivisibleByTheGenerator := by
  unfold Obligations.BlockWithItsEcIsDivisibleByTheGenerator
  intro data n
  refine ⟨length_rsEcc data n, List.length_eq_zero_iff.1 (length_rsEcc data 0), fun k => ⟨rsEcc_zeros_append k data n, ?_⟩,
    fun i hi => valueAt_append_rsEcc data hi, exists_multiple_of_genPoly data n⟩
  calc rsEcc (List.replicate k 0) n = rsEcc (List.replicate k 0 ++ []) n := by rw [List.append_nil]
    _ = rsEcc [] n := rsEcc_zeros_append k [] n
    _ = List.replicate n 0 := rsEcc_nil n

/-! ## The polynomial commands (R116..R119) -/

/-- A completed command that stored at most POLY_DEPTH coefficients (R31, R44). -/
theorem leavesInPr_setPr (s : State) {r : List Byte} (hr : r.length ≤ 256) : LeavesInPr s (s.setPr r).complete r := by
  refine ⟨rfl, ?_, fun j hj => ?_⟩
  · simp only [State.complete_regs, State.setPr_regs, BitVec.toNat_ofNat]
    omega
  · have hread := Mem.read_renewed Config.freeByte Config.polyDepth s.draws r j
    rw [if_pos (Nat.lt_of_lt_of_le hj hr), ← List.getElem_eq_getD (h := hj)] at hread
    rw [← List.getElem_eq_getD (h := hj)]
    exact hread

/-- A polynomial command that ends with a store into PR (R116..R119). -/
theorem exists_leavesInPr {i : Instr} {s : State} {r : List Byte} (hi : i ≠ .encode) (hres : resultOf i s = .ok (s.setPr r))
    (hr : r.length ≤ 256) : ∃ t, exec i s = .next t ∧ LeavesInPr s t r :=
  ⟨_, by rw [exec_eq_finish s i hi, hres, finish_ok], leavesInPr_setPr s hr⟩

/-- A polynomial command whose operands are refused (R303). -/
theorem exec_badOperand {i : Instr} {s : State} (hi : i ≠ .encode) (hres : resultOf i s = .raise .badOperand s) :
    exec i s = .next (failed s 0x05 i.opcode i.opcode) := by
  rw [exec_eq_finish s i hi, hres]
  rfl

section
variable {s : State}

theorem paOperand_eq_pa (h : s.regs.paLen.toNat ≤ 256) : s.paOperand = some (pa s) := paOperand_of_le h

theorem pbOperand_eq_pb (h : s.regs.pbLen.toNat ≤ 256) : s.pbOperand = some (pb s) := pbOperand_of_le h

theorem length_pa : (pa s).length = s.regs.paLen.toNat := by rw [pa, List.length_map, List.length_range]

theorem polyMul_of_le (ha : s.regs.paLen.toNat ≤ 256) (hb : s.regs.pbLen.toNat ≤ 256) :
    polyMul s =
      if norm (pa s) ≠ [] ∧ norm (pb s) ≠ [] ∧ 256 < (norm (pa s)).length + (norm (pb s)).length - 1 then
        .raise .badOperand s
      else .ok (s.setPr (pmul (pa s) (pb s))) := by
  rw [polyMul, paOperand_eq_pa ha, pbOperand_eq_pb hb]

theorem polyMod_of_le (ha : s.regs.paLen.toNat ≤ 256) (hb : s.regs.pbLen.toNat ≤ 256) :
    polyMod s = if norm (pb s) = [] then .raise .badOperand s else .ok (s.setPr (pmod (pa s) (pb s))) := by
  rw [polyMod, paOperand_eq_pa ha, pbOperand_eq_pb hb]

/-- A length above POLY_DEPTH fails the first check of R116 and R117. -/
theorem polyMul_polyMod_of_gt (h : 256 < s.regs.paLen.toNat ∨ 256 < s.regs.pbLen.toNat) :
    polyMul s = .raise .badOperand s ∧ polyMod s = .raise .badOperand s := by
  rw [polyMul, polyMod]
  obtain ha | hb := h
  · rw [paOperand_of_gt ha]
    exact ⟨rfl, rfl⟩
  · rw [pbOperand_of_gt hb]
    cases s.paOperand <;> exact ⟨rfl, rfl⟩

theorem rsEccCmd_of_gt (h : 256 < s.regs.paLen.toNat ∨ 255 < s.regs.opa.toNat) : rsEccCmd s = .raise .badOperand s := by
  rw [rsEccCmd]
  obtain ha | hn := h
  · rw [paOperand_of_gt ha]
  · cases s.paOperand with
    | none => rfl
    | some p => exact if_pos hn

theorem rsEccCmd_of_le (ha : s.regs.paLen.toNat ≤ 256) (hn : s.regs.opa.toNat ≤ 255) :
    rsEccCmd s = .ok (s.setPr (rsEcc (pa s) s.regs.opa.toNat)) := by
  rw [rsEccCmd, paOperand_eq_pa ha]
  exact if_neg (Nat.not_lt.2 hn)

end

/-- Settles O22: the convolution's coefficients are the sums of products; the length rules are R116's checks. -/
theorem polyMulIsTheProduct : Obligations.PolyMulIsTheProduct := by
  unfold Obligations.PolyMulIsTheProduct
  intro s
  refine ⟨fun h => exec_badOperand nofun (polyMul_polyMod_of_gt h).1, fun ha hb hna hnb hlong => exec_badOperand nofun ?_,
    fun ha hb hz => exists_leavesInPr nofun ?_ (Nat.zero_le _), fun ha hb hna hnb hfit => ?_⟩
  · exact (polyMul_of_le ha hb).trans (if_pos ⟨hna, hnb, hlong⟩)
  · have hfits : ¬ (norm (pa s) ≠ [] ∧ norm (pb s) ≠ [] ∧ 256 < (norm (pa s)).length + (norm (pb s)).length - 1) :=
      fun ⟨hna, hnb, _⟩ => hz.elim hna hnb
    rw [← pmul_of_zero _ _ hz]
    exact (polyMul_of_le ha hb).trans (if_neg hfits)
  · have hlen := length_pmul (pa s) (pb s) hna hnb
    rw [← pmul_eq_productCoefficients hna hnb]
    refine exists_leavesInPr nofun ?_ (by omega)
    exact (polyMul_of_le ha hb).trans (if_neg fun ⟨_, _, hlong⟩ => Nat.not_lt.2 hfit hlong)

/-- Settles O23: past R117's two checks the command stores R109's remainder, which is no longer than PA. -/
theorem polyModLeavesTheRemainder : Obligations.PolyModLeavesTheRemainder := by
  unfold Obligations.PolyModLeavesTheRemainder
  intro s
  refine ⟨fun h => exec_badOperand nofun (polyMul_polyMod_of_gt h).2, fun ha hb hz => exec_badOperand nofun ?_, fun ha hb hnb => ?_⟩
  · exact (polyMod_of_le ha hb).trans (if_pos hz)
  · refine exists_leavesInPr nofun ((polyMod_of_le ha hb).trans (if_neg hnb)) ?_
    calc (pmod (pa s) (pb s)).length ≤ (pa s).length := length_pmod_le _ _ hnb
      _ ≤ 256 := by rwa [length_pa]

/-- Settles O25: g_n is built from its n linear factors, and n ≤ 255 keeps it within PR. -/
theorem rsGenpolyLeavesTheGenerator : Obligations.RsGenpolyLeavesTheGenerator := by
  unfold Obligations.RsGenpolyLeavesTheGenerator
  intro s
  refine ⟨fun h => exec_badOperand nofun (if_pos h), fun h => ?_⟩
  have hlen := length_genPoly_le s.regs.opa.toNat
  exact ⟨hlen, genPoly_head _, fun i hi => (valueAt_eq_valueFrom _ _).trans (valueFrom_genPoly hi),
    exists_leavesInPr nofun (if_neg (Nat.not_lt.2 h)) (by omega)⟩

/-- Settles O26: within its limits the command stores the n coefficients of rs_ecc. -/
theorem rsEccLeavesTheEcCodewords : Obligations.RsEccLeavesTheEcCodewords := by
  unfold Obligations.RsEccLeavesTheEcCodewords
  intro s
  refine ⟨fun h => exec_badOperand nofun (rsEccCmd_of_gt h), fun ha hn => ?_⟩
  have hlen := length_rsEcc (pa s) s.regs.opa.toNat
  exact ⟨hlen, exists_leavesInPr nofun (rsEccCmd_of_le ha hn) (by omega)⟩

end Sys2Proof.Proofs

/-! PROOFS. The family of spec/42_bitbuf_segment.md: the bit buffer's commands and their round trip (O28..O31), the UTF-8
payload (O33) and SEG_LOAD (O32). -/

namespace Sys2Proof.Proofs

open Sys2Proof.Machine Sys2Proof.Claims

/-! ## How a command ends (R302, R303) -/

/-- A command whose pseudocode raises; not ENCODE, whose step is not its opcode. -/
theorem exec_failed (i : Instr) {s t : State} {e : ErrCode} (hi : i ≠ .encode) (hres : resultOf i s = .raise e t) :
    exec i s = .next (failed t e.code i.opcode i.opcode) := by
  rw [exec_eq_finish s i hi, hres, finish_raise]
  rfl

/-- A command whose pseudocode runs to its end. -/
theorem exec_completed (i : Instr) {s t : State} (hi : i ≠ .encode) (hres : resultOf i s = .ok t) :
    exec i s = .next t.complete := by
  rw [exec_eq_finish s i hi, hres, finish_ok]

/-! ## What each bit holds after a write to the buffer (R142, R143) -/

/-- The buffer after a store of the whole of it: the bits stored, then zeros. -/
theorem bbAt_setBitBuffer (s : State) (bits : List Bool) {i : Nat} (hi : i < 32768) :
    (s.setBitBuffer bits).bbAt i = bits.getD i false := by
  have hread := Mem.read_writeBlock Config.freeBit Config.bbBits s.mems.bb 0 i
    (bits ++ List.replicate (Config.bbBits - bits.length) false) hi
  rw [if_pos (Nat.zero_le i), Nat.sub_zero] at hread
  refine hread.trans ?_
  rw [List.getD_eq_getElem?_getD, List.getD_eq_getElem?_getD]
  by_cases hin : i < bits.length
  · rw [List.getElem?_append_left hin, List.getElem?_eq_getElem hin, Option.getD_some, Option.getD_some]
  · have hzeros : i - bits.length < Config.bbBits - bits.length := by
      rw [Config.bbBits]
      omega
    rw [List.getElem?_append_right (Nat.not_lt.1 hin), List.getElem?_replicate, if_pos hzeros, Option.getD_some,
      List.getElem?_eq_none (Nat.not_lt.1 hin), Option.getD_none]

section
variable (s : State) (value len : Nat) {i : Nat}

theorem bbAt_putField_outside (hi : i < 32768) (h : i < s.regs.bbLen.toNat ∨ s.regs.bbLen.toNat + len ≤ i) :
    (s.putField value len).bbAt i = s.bbAt i :=
  Mem.read_writeBlock_outside Config.freeBit Config.bbBits s.mems.bb s.regs.bbLen.toNat i (fieldBits value len) hi
    (by rwa [length_fieldBits])

theorem bbAt_putField_inside (hi : i < 32768) (h1 : s.regs.bbLen.toNat ≤ i) (h2 : i < s.regs.bbLen.toNat + len) :
    (s.putField value len).bbAt i = value.testBit (len - 1 - (i - s.regs.bbLen.toNat)) := by
  have hlt : i - s.regs.bbLen.toNat < (fieldBits value len).length := by rw [length_fieldBits]; omega
  have hread := Mem.read_writeBlock_inside Config.freeBit Config.bbBits s.mems.bb s.regs.bbLen.toNat i (fieldBits value len)
    hi h1 hlt
  exact hread.trans (getElem_fieldBits value len _ hlt)

theorem bbLen_putField (h : s.regs.bbLen.toNat + len ≤ 32768) :
    (s.putField value len).regs.bbLen.toNat = s.regs.bbLen.toNat + len := by
  rw [State.putField_regs, BitVec.toNat_ofNat]
  omega

end

/-! ## BB_CLEAR, BB_PUT, BB_GET (R143..R145) -/

theorem exec_bbClear (s : State) : exec .bbClear s = .next (s.setBitBuffer []).complete := rfl

theorem exec_bbPut_of_fits {s : State} (hn : s.regs.opb.toNat ≤ 32) (hfit : s.regs.bbLen.toNat + s.regs.opb.toNat ≤ 32768) :
    exec .bbPut s = .next (s.putField s.regs.opa.toNat s.regs.opb.toNat).complete :=
  exec_completed .bbPut nofun ((if_neg (Nat.not_lt.2 hn)).trans (if_neg (Nat.not_lt.2 hfit)))

theorem exec_bbGet_of_lt {s : State} (h : s.regs.opa.toNat < s.regs.bbLen.toNat) :
    exec .bbGet s = .next (s.setRes ((BitVec.ofBool (s.bbAt s.regs.opa.toNat)).setWidth 32)).complete :=
  exec_completed .bbGet nofun (if_neg (Nat.not_le.2 h))

/-- Settles O28: the block that BB_CLEAR stores covers the whole buffer. -/
theorem bbClearZeroesTheBuffer : Obligations.BbClearZeroesTheBuffer := by
  unfold Obligations.BbClearZeroesTheBuffer
  exact fun s => ⟨_, exec_bbClear s, rfl, fun _ hi => bbAt_setBitBuffer s [] hi⟩

/-- Settles O29: past its two checks BB_PUT stores the field's block and nothing else. -/
theorem bbPutAppendsTheField : Obligations.BbPutAppendsTheField := by
  unfold Obligations.BbPutAppendsTheField
  intro s
  refine ⟨fun hn => exec_failed .bbPut nofun (if_pos hn),
    fun hn hover => exec_failed .bbPut nofun ((if_neg (Nat.not_lt.2 hn)).trans (if_pos hover)),
    fun hn hfit => ⟨_, exec_bbPut_of_fits hn hfit, rfl, fun i hi => ?_⟩⟩
  change (s.putField _ _).bbAt i = _
  split
  · next hbefore => exact bbAt_putField_outside s _ _ hi (.inl hbefore)
  · next hfrom =>
    split
    · next hin => exact bbAt_putField_inside s _ _ hi (Nat.not_lt.1 hfrom) hin
    · next hafter => exact bbAt_putField_outside s _ _ hi (.inr (Nat.not_lt.1 hafter))

/-- Settles O30: the index is compared unsigned with BB_LEN. -/
theorem bbGetReadsTheBit : Obligations.BbGetReadsTheBit := by
  unfold Obligations.BbGetReadsTheBit
  exact fun s => ⟨fun h => exec_failed .bbGet nofun (if_pos h), exec_bbGet_of_lt⟩

/-! ## The round trip (R146) -/

/-- The bits below BB_LEN, in order (R140). -/
def heldBits (s : State) : List Bool := (List.range s.regs.bbLen.toNat).map s.bbAt

theorem length_heldBits (s : State) : (heldBits s).length = s.regs.bbLen.toNat := by
  rw [heldBits, List.length_map, List.length_range]

theorem bbAt_eq_heldBits_getD {s : State} {i : Nat} (h : i < s.regs.bbLen.toNat) :
    s.bbAt i = (heldBits s).getD i false := by
  rw [← List.getElem_eq_getD (h := (length_heldBits s).symm ▸ h)]
  simp [heldBits]

/-- put appends its field to the bits held. -/
theorem heldBits_putField (s : State) (value : Word) (len : Nat) (hfit : s.regs.bbLen.toNat + len ≤ 32768) :
    heldBits (s.putField value.toNat len) = heldBits s ++ (List.range len).map (fieldBit value len) := by
  rw [heldBits, bbLen_putField s _ _ hfit, List.range_add, List.map_append, List.map_map]
  congr 1
  · refine List.map_congr_left fun i hi => ?_
    have hlt := List.mem_range.1 hi
    exact bbAt_putField_outside s _ _ (by omega) (.inl hlt)
  · refine List.map_congr_left fun k hk => ?_
    have hlt := List.mem_range.1 hk
    have hbit := bbAt_putField_inside s value.toNat len (i := s.regs.bbLen.toNat + k) (by omega) (by omega) (by omega)
    rwa [Nat.add_sub_cancel_left] at hbit

/-- One put that fits completes, and appends its field to the bits held. -/
theorem exists_exec_bbPut (s : State) (value : Word) {len : Nat} (hlen : len ≤ 32)
    (hfit : s.regs.bbLen.toNat + len ≤ 32768) :
    ∃ t, exec .bbPut { s with regs := { s.regs with opa := value, opb := BitVec.ofNat 32 len } } = .next t ∧
      t.regs.bbLen.toNat = s.regs.bbLen.toNat + len ∧
      heldBits t = heldBits s ++ (List.range len).map (fieldBit value len) := by
  have hopb : (BitVec.ofNat 32 len).toNat = len := by
    rw [BitVec.toNat_ofNat]
    omega
  refine ⟨_, exec_bbPut_of_fits (Nat.le_trans (Nat.le_of_eq hopb) hlen) ?_, ?_, ?_⟩ <;> simp only [hopb]
  · exact hfit
  · exact bbLen_putField _ value.toNat len hfit
  · exact heldBits_putField _ value len hfit

/-- Puts that fit all complete, and leave the bits held before them followed by their fields. -/
theorem exists_putFields (fields : List (Word × Nat)) (s : State) (hn : ∀ f ∈ fields, f.2 ≤ 32)
    (hfit : s.regs.bbLen.toNat + (fields.map (·.2)).sum ≤ 32768) :
    ∃ t, putFields s fields = some t ∧ t.regs.bbLen.toNat = s.regs.bbLen.toNat + (fields.map (·.2)).sum ∧
      heldBits t = heldBits s ++ concatenation fields := by
  induction fields generalizing s with
  | nil => exact ⟨s, rfl, rfl, (List.append_nil _).symm⟩
  | cons f fields ih =>
    obtain ⟨value, len⟩ := f
    obtain ⟨hlen, hrest⟩ := List.forall_mem_cons.1 hn
    simp only [List.map_cons, List.sum_cons] at hlen hfit ⊢
    obtain ⟨u, hu, hulen, hubits⟩ := exists_exec_bbPut s value hlen (by omega)
    obtain ⟨t, ht, htlen, htbits⟩ := ih u hrest (by omega)
    refine ⟨t, ?_, by omega, ?_⟩
    · rw [putFields, hu]
      exact ht
    · rw [htbits, hubits, List.append_assoc]
      rfl

theorem setWidth_ofBool (b : Bool) : (BitVec.ofBool b).setWidth 32 = if b then 1 else 0 := by cases b <;> rfl

/-- Settles O31: every put appends its field to the bits held, of which BB_CLEAR leaves none. -/
theorem bitBufferReadsBackWhatWasPut : Obligations.BitBufferReadsBackWhatWasPut := by
  unfold Obligations.BitBufferReadsBackWhatWasPut
  intro s c fields hclear hn hfit
  obtain rfl : (s.setBitBuffer []).complete = c := Host.Outcome.next.inj ((exec_bbClear s).symm.trans hclear)
  have hzero : (s.setBitBuffer []).complete.regs.bbLen.toNat = 0 := rfl
  have hempty : heldBits (s.setBitBuffer []).complete = [] := List.eq_nil_of_length_eq_zero (length_heldBits _)
  obtain ⟨t, ht, htlen, htbits⟩ := exists_putFields fields (s.setBitBuffer []).complete hn (by omega)
  rw [hzero, Nat.zero_add] at htlen
  rw [hempty, List.nil_append] at htbits
  refine ⟨t, ht, htlen, fun i hi => ?_⟩
  have hopa : (BitVec.ofNat 32 i).toNat = i := by
    rw [BitVec.toNat_ofNat]
    omega
  refine ⟨_, exec_bbGet_of_lt ?_, ?_⟩
  · change (BitVec.ofNat 32 i).toNat < t.regs.bbLen.toNat
    omega
  · calc (BitVec.ofBool (t.bbAt (BitVec.ofNat 32 i).toNat)).setWidth 32
        = if t.bbAt i then 1 else 0 := by rw [hopa, setWidth_ofBool]
      _ = if (concatenation fields).getD i false then 1 else 0 := by
        rw [bbAt_eq_heldBits_getD (by omega), htbits]

/-! ## UTF-8 (R149) -/

/-- ⊕ of a byte's high bits, a multiple of 2^k, and a number below 2^k is their sum. -/
theorem toNat_ofNat_xor_ofNat {k a x : Nat} (hx : x < 2 ^ k) (hsum : 2 ^ k * a + x < 256) :
    (BitVec.ofNat 8 (2 ^ k * a) ^^^ BitVec.ofNat 8 x).toNat = 2 ^ k * a + x := by
  rw [BitVec.toNat_xor, BitVec.toNat_ofNat, BitVec.toNat_ofNat, Nat.mod_eq_of_lt (by omega), Nat.mod_eq_of_lt (by omega),
    Nat.two_pow_add_eq_or_of_lt hx]
  refine Nat.eq_of_testBit_eq fun j => ?_
  rw [Nat.testBit_xor, Nat.testBit_or, Nat.testBit_two_pow_mul]
  by_cases hj : k ≤ j
  · have hlow : x.testBit j = false := Nat.testBit_lt_two_pow (Nat.lt_of_lt_of_le hx (Nat.pow_le_pow_right (by decide) hj))
    rw [hlow, Bool.xor_false, Bool.or_false]
  · simp [hj]

theorem toNat_continuation (x : Nat) : (continuation x).toNat = 128 + x % 64 := by
  have hmask : x &&& 0x3F = x % 64 := Nat.and_two_pow_sub_one_eq_mod x 6
  rw [continuation, hmask]
  exact toNat_ofNat_xor_ofNat (k := 6) (a := 2) (by omega) (by omega)

/-- The lead bytes of 2, 3 and 4: 110xxxxx, 1110xxxx, 11110xxx. -/
theorem toNat_leadByte (x : Nat) :
    (x < 32 → ((0xC0 : Byte) ^^^ BitVec.ofNat 8 x).toNat = 192 + x) ∧
      (x < 16 → ((0xE0 : Byte) ^^^ BitVec.ofNat 8 x).toNat = 224 + x) ∧
      (x < 8 → ((0xF0 : Byte) ^^^ BitVec.ofNat 8 x).toNat = 240 + x) :=
  ⟨fun h => toNat_ofNat_xor_ofNat (k := 5) (a := 6) h (by omega),
    fun h => toNat_ofNat_xor_ofNat (k := 4) (a := 14) h (by omega),
    fun h => toNat_ofNat_xor_ofNat (k := 3) (a := 30) h (by omega)⟩

section
variable {c : Nat}

theorem utf8_one (h : c ≤ 0x7F) : utf8 c = [BitVec.ofNat 8 c] := if_pos h

theorem utf8_two (h1 : 0x80 ≤ c) (h2 : c ≤ 0x7FF) : utf8 c = [(0xC0 : Byte) ^^^ BitVec.ofNat 8 (c >>> 6), continuation c] :=
  (if_neg (by omega)).trans (if_pos h2)

theorem utf8_three (h1 : 0x800 ≤ c) (h2 : c ≤ 0xFFFF) :
    utf8 c = [(0xE0 : Byte) ^^^ BitVec.ofNat 8 (c >>> 12), continuation (c >>> 6), continuation c] :=
  (if_neg (by omega)).trans ((if_neg (by omega)).trans (if_pos h2))

theorem utf8_four (h : 0x10000 ≤ c) :
    utf8 c = [(0xF0 : Byte) ^^^ BitVec.ofNat 8 (c >>> 18), continuation (c >>> 12), continuation (c >>> 6), continuation c] :=
  (if_neg (by omega)).trans ((if_neg (by omega)).trans (if_neg (by omega)))

theorem utf8_toNat_one (h : c ≤ 0x7F) : (utf8 c).map BitVec.toNat = [c] := by
  rw [utf8_one h, List.map_singleton, BitVec.toNat_ofNat, Nat.mod_eq_of_lt (by omega)]

theorem utf8_toNat_two (h1 : 0x80 ≤ c) (h2 : c ≤ 0x7FF) :
    (utf8 c).map BitVec.toNat = [192 + c / 64, 128 + c % 64] := by
  rw [utf8_two h1 h2, Nat.shiftRight_eq_div_pow]
  simp only [List.map_cons, List.map_nil, toNat_continuation, (toNat_leadByte (c / 64)).1 (by omega), Nat.reducePow]

theorem utf8_toNat_three (h1 : 0x800 ≤ c) (h2 : c ≤ 0xFFFF) :
    (utf8 c).map BitVec.toNat = [224 + c / 4096, 128 + c / 64 % 64, 128 + c % 64] := by
  rw [utf8_three h1 h2, Nat.shiftRight_eq_div_pow, Nat.shiftRight_eq_div_pow]
  simp only [List.map_cons, List.map_nil, toNat_continuation, (toNat_leadByte (c / 4096)).2.1 (by omega), Nat.reducePow]

theorem utf8_toNat_four (h1 : 0x10000 ≤ c) (h2 : c ≤ 0x10FFFF) :
    (utf8 c).map BitVec.toNat = [240 + c / 262144, 128 + c / 4096 % 64, 128 + c / 64 % 64, 128 + c % 64] := by
  rw [utf8_four h1, Nat.shiftRight_eq_div_pow, Nat.shiftRight_eq_div_pow, Nat.shiftRight_eq_div_pow]
  simp only [List.map_cons, List.map_nil, toNat_continuation, (toNat_leadByte (c / 262144)).2.2 (by omega), Nat.reducePow]

end

/-! ## The payload and its mark (R150) -/

/-- A code point has at least one byte, and more than one from 0x80 on. -/
theorem one_le_length_utf8 (c : Nat) : 1 ≤ (utf8 c).length ∧ (0x80 ≤ c → 1 < (utf8 c).length) := by
  unfold utf8
  split
  · exact ⟨Nat.le_refl 1, fun h => by omega⟩
  · split
    · exact ⟨by simp, fun _ => by simp⟩
    · split <;> exact ⟨by simp, fun _ => by simp⟩

theorem length_le_length_flatMap_utf8 (t : List Word) : t.length ≤ (t.flatMap fun w => utf8 w.toNat).length := by
  induction t with
  | nil => exact Nat.le_refl 0
  | cons w t ih =>
    have hw := (one_le_length_utf8 w.toNat).1
    rw [List.flatMap_cons, List.length_append, List.length_cons]
    omega

theorem length_lt_length_flatMap_utf8 {t : List Word} {w : Word} (hw : w ∈ t) (h : 0x80 ≤ w.toNat) :
    t.length < (t.flatMap fun w => utf8 w.toNat).length := by
  obtain ⟨before, after, rfl⟩ := List.append_of_mem hw
  have hlong := (one_le_length_utf8 w.toNat).2 h
  have hbefore := length_le_length_flatMap_utf8 before
  have hafter := length_le_length_flatMap_utf8 after
  simp only [List.flatMap_append, List.flatMap_cons, List.length_append, List.length_cons]
  omega

theorem payload_of_nonAscii {t : List Word} (h : ∃ w ∈ t, 0x80 ≤ w.toNat) :
    payload t = [0xEF, 0xBB, 0xBF] ++ t.flatMap fun w => utf8 w.toNat := by
  obtain ⟨w, hw, hge⟩ := h
  exact if_pos (Nat.ne_of_gt (length_lt_length_flatMap_utf8 hw hge))

theorem flatMap_utf8_of_ascii {t : List Word} (h : ∀ w ∈ t, w.toNat < 0x80) :
    (t.flatMap fun w => utf8 w.toNat) = t.map fun w => w.setWidth 8 := by
  induction t with
  | nil => rfl
  | cons w t ih =>
    obtain ⟨hw, ht⟩ := List.forall_mem_cons.1 h
    rw [List.flatMap_cons, ih ht, utf8_one (Nat.le_of_lt_succ hw)]
    rfl

theorem payload_of_ascii {t : List Word} (h : ∀ w ∈ t, w.toNat < 0x80) : payload t = t.map fun w => w.setWidth 8 := by
  rw [payload, flatMap_utf8_of_ascii h]
  exact if_neg (not_not_intro (List.length_map _))

/-- Settles O33: the encoding adds bytes exactly where some code point is 0x80 or above. -/
theorem payloadIsUtf8WithTheMarkForNonAscii : Obligations.PayloadIsUtf8WithTheMarkForNonAscii := by
  unfold Obligations.PayloadIsUtf8WithTheMarkForNonAscii
  exact ⟨fun _ => ⟨utf8_toNat_one, utf8_toNat_two, utf8_toNat_three, utf8_toNat_four⟩,
    fun _ _ => ⟨payload_of_nonAscii, payload_of_ascii⟩⟩

/-! ## SEG_LOAD (R148, R153) -/

theorem validCodepoint_iff (w : Word) : validCodepoint w = true ↔ IsCodepoint w := by
  simp only [validCodepoint, IsCodepoint, Bool.and_eq_true, Bool.not_eq_true', Bool.and_eq_false_iff, decide_eq_true_eq,
    decide_eq_false_iff_not, Decidable.not_and_iff_not_or_not]

theorem firstInvalid_eq_findIdx? (k : Nat) (ws : List Word) :
    firstInvalid k ws = (ws.findIdx? fun w => !validCodepoint w).map (k + ·) := by
  induction ws generalizing k with
  | nil => rfl
  | cons w ws ih =>
    rw [firstInvalid, List.findIdx?_cons, ih]
    by_cases hw : validCodepoint w = true
    · simp [hw, Nat.add_assoc, Nat.add_comm 1, Function.comp_def]
    · simp [hw]

theorem firstInvalid_eq_none {ws : List Word} (h : ∀ w ∈ ws, IsCodepoint w) : firstInvalid 0 ws = none := by
  rw [firstInvalid_eq_findIdx?, Option.map_eq_none_iff, List.findIdx?_eq_none_iff]
  intro w hw
  rw [(validCodepoint_iff w).2 (h w hw), Bool.not_true]

theorem firstInvalid_eq_some {ws : List Word} {k : Nat} (hk : k < ws.length) (hbad : ¬ IsCodepoint ws[k])
    (hgood : ∀ j (hj : j < k), IsCodepoint ws[j]) : firstInvalid 0 ws = some k := by
  have hfind : (ws.findIdx? fun w => !validCodepoint w) = some k := by
    refine List.findIdx?_eq_some_iff_getElem.2 ⟨hk, ?_, fun j hj => ?_⟩
    · rw [Bool.not_eq_true', Bool.eq_false_iff]
      exact mt (validCodepoint_iff _).1 hbad
    · rw [(validCodepoint_iff _).2 (hgood j hj)]
      exact Bool.not_true ▸ Bool.false_ne_true
  rw [firstInvalid_eq_findIdx?, hfind, Option.map_some, Nat.zero_add]

section
variable {s : State}

theorem segLoad_of_gt (h : 4096 < s.regs.textLen.toNat) : segLoad s = .raise .badOperand s.loseSegment := by
  rw [segLoad, textOperand_of_gt h]

variable (hlen : s.regs.textLen.toNat ≤ 4096)
include hlen

theorem textOperand_eq_text : s.textOperand = some (text s) := textOperand_of_le hlen

theorem segLoad_of_invalid {k : Nat} (hk : k < s.regs.textLen.toNat) (hbad : ¬ IsCodepoint (s.textAt k))
    (hgood : ∀ j, j < k → IsCodepoint (s.textAt j)) :
    segLoad s = .raise .invalidCodepoint (s.loseSegment.setRes (BitVec.ofNat 32 k)) := by
  have hk' : k < (text s).length := by rwa [text, List.length_map, List.length_range]
  have hfirst : firstInvalid 0 (text s) = some k := by
    refine firstInvalid_eq_some hk' ?_ fun j hj => ?_
    · simpa [text] using hbad
    · simpa [text] using hgood j hj
  simp only [segLoad, textOperand_eq_text hlen, hfirst]

theorem segLoad_of_valid (hvalid : ∀ w ∈ text s, IsCodepoint w) :
    segLoad s = if 2953 < (payload (text s)).length then .raise .dataTooLong s.loseSegment
      else .ok (s.setSegment (payload (text s))) := by
  simp only [segLoad, textOperand_eq_text hlen, firstInvalid_eq_none hvalid, Config.segDepth]

end

/-- SEG[j] after the store of a segment. -/
theorem segAt_setSegment (s : State) (b : List Byte) {j : Nat} (hb : b.length ≤ 2953) (hj : j < b.length) :
    (s.setSegment b).segAt j = b.getD j 0 := by
  have hread := Mem.read_renewed Config.freeByte Config.segDepth s.draws b j
  rw [if_pos (Nat.lt_of_lt_of_le hj hb), ← List.getElem_eq_getD (h := hj)] at hread
  exact hread.trans (List.getElem_eq_getD 0)

theorem segLen_setSegment (s : State) {b : List Byte} (hb : b.length ≤ 2953) :
    (s.setSegment b).regs.segLen.toNat = b.length := by
  rw [State.setSegment_regs, BitVec.toNat_ofNat]
  omega

/-- Settles O32: R153's three checks in order, then the store of the payload. -/
theorem segLoadBuildsTheSegment : Obligations.SegLoadBuildsTheSegment := by
  unfold Obligations.SegLoadBuildsTheSegment
  intro s
  refine ⟨fun h => exec_failed .segLoad nofun (segLoad_of_gt h),
    fun k hlen hk hbad hgood => exec_failed .segLoad nofun (segLoad_of_invalid hlen hk hbad hgood),
    fun hlen hvalid hlong => exec_failed .segLoad nofun ((segLoad_of_valid hlen hvalid).trans (if_pos hlong)),
    fun hlen hvalid hfit => ?_⟩
  have hok : resultOf .segLoad s = .ok (s.setSegment (payload (text s))) :=
    (segLoad_of_valid hlen hvalid).trans (if_neg (Nat.not_lt.2 hfit))
  exact ⟨_, exec_completed .segLoad nofun hok, rfl, segLen_setSegment s hfit, fun _ hj => segAt_setSegment s _ hfit hj⟩

end Sys2Proof.Proofs

/-! PROOFS. The family of spec/43_codeword.md: SELECT_VERSION (O34), the data bits (O36), the interleaved stream (O37),
BUILD_CODEWORDS (O35) and the tables' identities (O38). -/

namespace Sys2Proof.Proofs

open Sys2Proof.Machine Sys2Proof.Claims

/-! ## SELECT_VERSION (R173) -/

/-- A version that fits, with none below it that does, is the one the search finds. -/
theorem smallestVersion_eq_some {ec : BitVec 2} {len v : Nat} (h1 : 1 ≤ v) (h40 : v ≤ 40) (hfit : len ≤ cap v ec)
    (hleast : ∀ u, 1 ≤ u → u < v → cap u ec < len) : smallestVersion ec len = some v := by
  cases hfound : smallestVersion ec len with
  | none =>
    have hlong := smallestVersion_none hfound
    have hle := (cap_le v ec h1 h40).1
    omega
  | some w =>
    obtain ⟨hw1, -, hwfit, hwleast⟩ := smallestVersion_some hfound
    obtain hlt | rfl | hgt := Nat.lt_trichotomy v w
    · have := hwleast v h1 hlt
      omega
    · rfl
    · have := hleast w hw1 hgt
      omega

section
variable {s : State}

theorem selectVersion_of_noSegment (hseg : s.status.segValid = false) :
    selectVersion s = .raise .sequence s.loseVersion := if_pos hseg

variable (hseg : s.status.segValid = true)
include hseg

theorem selectVersion_of_segment :
    selectVersion s =
      if 40 < s.regs.forceVersion.toNat then .raise .badOperand s.loseVersion
      else if s.regs.forceVersion.toNat ≠ 0 then
        if cap s.regs.forceVersion.toNat s.regs.ecLevel < s.regs.segLen.toNat then .raise .dataTooLong s.loseVersion
        else .ok (s.setVersion s.regs.forceVersion.toNat s.regs.ecLevel)
      else if cap 40 s.regs.ecLevel < s.regs.segLen.toNat then .raise .dataTooLong s.loseVersion
      else .ok (s.setVersion ((smallestVersion s.regs.ecLevel s.regs.segLen.toNat).getD 40) s.regs.ecLevel) :=
  if_neg (by simp [hseg])

/-- A forced version in range is taken where the segment fits it. -/
theorem selectVersion_of_forced (h1 : 1 ≤ s.regs.forceVersion.toNat) (h40 : s.regs.forceVersion.toNat ≤ 40) :
    selectVersion s =
      if cap s.regs.forceVersion.toNat s.regs.ecLevel < s.regs.segLen.toNat then .raise .dataTooLong s.loseVersion
      else .ok (s.setVersion s.regs.forceVersion.toNat s.regs.ecLevel) := by
  rw [selectVersion_of_segment hseg, if_neg (Nat.not_lt.2 h40), if_pos (Nat.ne_of_gt h1)]

variable (hauto : s.regs.forceVersion.toNat = 0)
include hauto

theorem selectVersion_of_auto :
    selectVersion s =
      if cap 40 s.regs.ecLevel < s.regs.segLen.toNat then .raise .dataTooLong s.loseVersion
      else .ok (s.setVersion ((smallestVersion s.regs.ecLevel s.regs.segLen.toNat).getD 40) s.regs.ecLevel) := by
  rw [selectVersion_of_segment hseg, hauto, if_neg (Nat.not_lt_zero 40), if_neg (not_not_intro rfl)]

theorem selectVersion_of_smallest {v : Nat} (h1 : 1 ≤ v) (h40 : v ≤ 40)
    (hfit : s.regs.segLen.toNat ≤ cap v s.regs.ecLevel)
    (hleast : ∀ u, 1 ≤ u → u < v → cap u s.regs.ecLevel < s.regs.segLen.toNat) :
    selectVersion s = .ok (s.setVersion v s.regs.ecLevel) := by
  have hfits40 : ¬ cap 40 s.regs.ecLevel < s.regs.segLen.toNat :=
    Nat.not_lt.2 (Nat.le_trans hfit (cap_le v _ h1 h40).1)
  rw [selectVersion_of_auto hseg hauto, if_neg hfits40, smallestVersion_eq_some h1 h40 hfit hleast, Option.getD_some]

end

/-- Settles O34: the cases are those of R173's pseudocode, and the search finds the smallest version that fits. -/
theorem selectVersionTakesTheSmallestThatFits : Obligations.SelectVersionTakesTheSmallestThatFits := by
  unfold Obligations.SelectVersionTakesTheSmallestThatFits
  intro s
  refine ⟨fun hseg => exec_failed .selectVersion nofun (selectVersion_of_noSegment hseg),
    fun hseg hfv => exec_failed .selectVersion nofun ((selectVersion_of_segment hseg).trans (if_pos hfv)),
    fun hseg h1 h40 hlong =>
      exec_failed .selectVersion nofun ((selectVersion_of_forced hseg h1 h40).trans (if_pos hlong)),
    fun hseg hauto hlong =>
      exec_failed .selectVersion nofun ((selectVersion_of_auto hseg hauto).trans (if_pos (hlong 40 (by omega) (by omega)))),
    fun hseg h1 h40 hfit =>
      exec_completed .selectVersion nofun ((selectVersion_of_forced hseg h1 h40).trans (if_neg (Nat.not_lt.2 hfit))),
    fun v hseg hauto h1 h40 hfit hleast =>
      exec_completed .selectVersion nofun (selectVersion_of_smallest hseg hauto h1 h40 hfit hleast)⟩

/-! ## The data bits (R177) -/

theorem length_flatMap_range {α : Type} {n : Nat} {f : Nat → List α} (hf : ∀ k, (f k).length = n) (m : Nat) :
    ((List.range m).flatMap f).length = n * m := by
  induction m with
  | zero => rfl
  | succ m ih =>
    rw [List.range_succ, List.flatMap_append, List.length_append, ih, List.flatMap_singleton, hf, Nat.mul_succ]

/-- Lists of n elements put one after the other, as many as there are numbers below m. -/
theorem take_drop_flatMap_range {α : Type} {n : Nat} {f : Nat → List α} (hf : ∀ k, (f k).length = n) {j m : Nat} (hj : j < m) :
    (((List.range m).flatMap f).drop (n * j)).take n = f j := by
  have hlen := length_flatMap_range hf
  obtain ⟨d, rfl⟩ : ∃ d, m = j + (d + 1) := ⟨m - j - 1, by omega⟩
  rw [List.range_add, List.flatMap_append, ← hlen j, List.drop_left, List.range_succ_eq_map, List.map_cons, List.flatMap_cons,
    Nat.add_zero, ← hf j, List.take_left]

/-- The pad bytes that `addPadBytes` puts after n bits. -/
def padBits (room n : Nat) : List Bool := (List.range ((room - n + 7) / 8)).flatMap fun k => byteBits (padByte k)

theorem length_padBits (room n : Nat) : (padBits room n).length = 8 * ((room - n + 7) / 8) :=
  length_flatMap_range (fun k => length_byteBits (padByte k)) _

theorem padBits_byte (room n j : Nat) (hj : 8 * j < (padBits room n).length) :
    ((padBits room n).drop (8 * j)).take 8 = byteBits (padByte j) := by
  rw [length_padBits] at hj
  exact take_drop_flatMap_range (fun k => length_byteBits (padByte k)) (by omega)

/-- The mode indicator and the length field leave room for the four bits that fill a byte. -/
theorem lenBits_mod (v : Nat) : lenBits v % 8 = 0 := by
  unfold lenBits
  split <;> rfl

section
variable {seg : List Byte} {v d : Nat} (hfit : 4 + lenBits v + 8 * seg.length ≤ 8 * d)
include hfit

/-- The data bits end in a half byte, so that the whole terminator fits after them, and no zero bit is needed after it. -/
theorem padToByte_addTerminator :
    padToByte (addTerminator (8 * d) (segmentBits seg v)) = segmentBits seg v ++ fieldBits 0 4 := by
  have hmod := lenBits_mod v
  have hlen := length_segmentBits seg v
  have hbyte : (8 - (segmentBits seg v ++ fieldBits 0 4).length % 8) % 8 = 0 := by
    rw [List.length_append, length_fieldBits]
    omega
  rw [addTerminator, if_pos (by omega), padToByte, hbyte, List.replicate_zero, List.append_nil]

theorem bitstream_of_fits :
    bitstream seg v d =
      some (segmentBits seg v ++ fieldBits 0 4 ++ padBits (8 * d) (segmentBits seg v ++ fieldBits 0 4).length) := by
  have hroom : ¬ 8 * d < (segmentBits seg v).length := by
    rw [length_segmentBits]
    omega
  simp only [bitstream, if_neg hroom, padToByte_addTerminator hfit, addPadBytes, padBits]

end

/-- CAP leaves room for the mode and length fields (R175). -/
theorem fits_of_le_cap {v : Nat} {ec : BitVec 2} {len : Nat} (h1 : 1 ≤ v) (h40 : v ≤ 40) (hcap : len ≤ cap v ec) :
    4 + lenBits v + 8 * len ≤ 8 * dataCodewords v ec := by
  obtain ⟨-, -, -, -, hroom⟩ := blocks_bounds v ec h1 h40
  omega

/-! ## Packing (R141, R177) -/

/-- A list's bits, read as a number from its end. -/
theorem testBit_foldr_bits (bits : List Bool) (i : Nat) :
    (bits.foldr (fun (b : Bool) n => 2 * n + b.toNat) 0).testBit i = bits.getD i false := by
  induction bits generalizing i with
  | nil => rw [List.foldr_nil, Nat.zero_testBit, List.getD_nil]
  | cons b bits ih =>
    have hb := b.toNat_lt
    rw [List.foldr_cons]
    generalize bits.foldr (fun (b : Bool) n => 2 * n + b.toNat) 0 = n at ih
    cases i with
    | zero =>
      have hmod : (2 * n + b.toNat) % 2 = b.toNat := by omega
      rw [Nat.testBit_zero, hmod, List.getD_cons_zero]
      cases b <;> rfl
    | succ i =>
      have hhalf : (2 * n + b.toNat) / 2 = n := by omega
      rw [Nat.testBit_succ, hhalf, ih, List.getD_cons_succ]

/-- A byte's bits, read as a number, are the list's from its end. -/
theorem testBit_foldl_bits (bits : List Bool) (i : Nat) :
    (bits.foldl (fun n (b : Bool) => 2 * n + b.toNat) 0).testBit i = bits.reverse.getD i false := by
  rw [← List.foldr_reverse, testBit_foldr_bits]

theorem getLsbD_bitsByte {bits : List Bool} (hlen : bits.length = 8) {k : Nat} (hk : k < 8) :
    (bitsByte bits).getLsbD (7 - k) = bits.getD k false := by
  have hlt : 7 - k < 8 := by omega
  rw [bitsByte, BitVec.getLsbD_ofNat, testBit_foldl_bits, List.getD_eq_getElem?_getD, List.getElem?_reverse (by omega), hlen,
    List.getD_eq_getElem?_getD]
  simp [hlt, show 8 - 1 - (7 - k) = k by omega]

theorem getD_packBytes (bits : List Bool) {d j : Nat} (hj : j < d) :
    (packBytes bits d).getD j 0 = bitsByte ((bits.drop (8 * j)).take 8) := by
  induction d generalizing bits j with
  | zero => omega
  | succ d ih =>
    cases j with
    | zero => rfl
    | succ j => rw [packBytes, List.getD_cons_succ, ih _ (by omega), List.drop_drop, Nat.mul_succ, Nat.add_comm 8]

/-- Codeword j is bits 8j..8j+7, most significant first (R177). -/
theorem getLsbD_packBytes {bits : List Bool} {d j k : Nat} (hlen : bits.length = 8 * d) (hj : j < d) (hk : k < 8) :
    ((packBytes bits d).getD j 0).getLsbD (7 - k) = bits.getD (8 * j + k) false := by
  have h8 : ((bits.drop (8 * j)).take 8).length = 8 := by
    rw [List.length_take, List.length_drop]
    omega
  rw [getD_packBytes bits hj, getLsbD_bitsByte h8 hk]
  simp [List.getD_eq_getElem?_getD, hk]

/-- Settles O36: where the payload fits CAP the bits are a whole number of bytes once the terminator stands. -/
theorem bitstreamFillsTheDataCodewords : Obligations.BitstreamFillsTheDataCodewords := by
  unfold Obligations.BitstreamFillsTheDataCodewords
  intro seg v ec h1 h40 hcap
  have hbits := bitstream_of_fits (fits_of_le_cap h1 h40 hcap)
  have hlen := length_bitstream hbits
  exact ⟨_, _, hbits, hlen, rfl, padBits_byte _ _, length_packBytes _ _, fun j k => getLsbD_packBytes hlen⟩

/-! ## The blocks and their columns (R178, R180) -/

/-- Block b has the data after those of the blocks before it, and the EC of that data (R178). -/
theorem getElem?_splitBlocks {bl : List (Nat × Nat)} {data : List Byte} {b total count : Nat}
    (hb : bl[b]? = some (total, count)) :
    let block := (data.drop ((bl.map (·.2)).take b).sum).take count
    (splitBlocks bl data)[b]? = some (block, rsEcc block (total - count)) := by
  induction bl generalizing data b with
  | nil => simp at hb
  | cons x bl ih =>
    obtain ⟨t, d⟩ := x
    cases b with
    | zero =>
      obtain ⟨rfl, rfl⟩ : t = total ∧ d = count := by simpa using hb
      rfl
    | succ b =>
      have hrest := ih (data := data.drop d) hb
      rwa [List.drop_drop] at hrest

theorem length_ec_splitBlocks (bl : List (Nat × Nat)) (data : List Byte) :
    (splitBlocks bl data).map (·.2.length) = bl.map fun b => b.1 - b.2 := by
  induction bl generalizing data with
  | nil => rfl
  | cons b bl ih =>
    obtain ⟨t, d⟩ := b
    rw [splitBlocks, List.map_cons, List.map_cons, ih, length_rsEcc]

section
variable {α : Type} {lists : List (List α)}

/-- Column i has one element for each list longer than i. -/
theorem length_column (i : Nat) (lists : List (List α)) :
    (column i lists).length = ((lists.map List.length).filter (i < ·)).length := by
  induction lists with
  | nil => rfl
  | cons l lists ih =>
    rw [column, List.filterMap_cons, List.map_cons, List.filter_cons]
    by_cases hi : i < l.length
    · rw [List.getElem?_eq_getElem hi, if_pos (decide_eq_true hi)]
      exact congrArg (· + 1) ih
    · rw [List.getElem?_eq_none (Nat.not_lt.1 hi), if_neg (by simpa using hi)]
      exact ih

/-- In column i the element of list b stands after those of the lists before it. -/
theorem getElem?_column {i b : Nat} {l : List α} (hb : lists[b]? = some l) (hi : i < l.length) :
    (column i lists)[(((lists.map List.length).take b).filter (i < ·)).length]? = l[i]? := by
  obtain ⟨hlt, rfl⟩ := List.getElem?_eq_some_iff.1 hb
  have hsplit : column i lists =
      column i (lists.take b) ++ (lists[b][i] :: column i (lists.drop (b + 1))) := by
    calc column i lists
        = column i (lists.take b ++ lists[b] :: lists.drop (b + 1)) := by
          rw [← List.drop_eq_getElem_cons hlt, List.take_append_drop]
      _ = _ := by
          rw [column, List.filterMap_append, List.filterMap_cons, List.getElem?_eq_getElem hi]
          rfl
  rw [hsplit, ← List.map_take, ← length_column, List.getElem?_append_right (Nat.le_refl _), Nat.sub_self,
    List.getElem?_cons_zero, List.getElem?_eq_getElem hi]

/-- Element i of list b stands, in the interleaved lists, where the columns put it (R180). -/
theorem getElem?_interleave {i b : Nat} {l : List α} (hb : lists[b]? = some l) (hi : i < l.length) :
    (interleave lists)[dataPosition (lists.map List.length) i b]? = l[i]? := by
  have hmax := (le_foldl_max (lists.map List.length) 0).2 _ (List.mem_map_of_mem (List.mem_of_getElem? hb))
  obtain ⟨m, hm⟩ : ∃ m, (lists.map List.length).foldl max 0 = i + (m + 1) :=
    Nat.exists_eq_add_of_lt (Nat.lt_of_lt_of_le hi hmax)
  have hbefore : ((List.range i).flatMap fun c => column c lists).length =
      ((List.range i).map fun c => ((lists.map List.length).filter (c < ·)).length).sum := by
    simp only [List.length_flatMap, length_column]
  have hcolumn := getElem?_column hb hi
  have hin := (List.getElem?_eq_some_iff.1 (hcolumn.trans (List.getElem?_eq_getElem hi))).1
  rw [interleave, hm, List.range_add, List.flatMap_append, dataPosition, ← hbefore,
    List.getElem?_append_right (Nat.le_add_right _ _), Nat.add_sub_cancel_left, List.range_succ_eq_map, List.map_cons,
    List.flatMap_cons, Nat.add_zero, List.getElem?_append_left hin, hcolumn]

end

/-- Among n lists of one length e the position is the row-major one. -/
theorem dataPosition_replicate {n e i b : Nat} (hi : i < e) (hb : b ≤ n) :
    dataPosition (List.replicate n e) i b = i * n + b := by
  have hcolumn : ∀ c ∈ List.range i, ((List.replicate n e).filter (c < ·)).length = n := by
    intro c hc
    have hlt := List.mem_range.1 hc
    simp [show c < e by omega]
  rw [dataPosition, List.map_congr_left hcolumn, List.map_const', List.length_range, List.sum_replicate_nat]
  simp [hi, hb]

/-! ## The stream (R180) -/

/-- The EC codewords of the table's first block. -/
def ecPerBlock (v : Nat) (ec : BitVec 2) : Nat := ((blocks v ec).headD (0, 0)).1 - ((blocks v ec).headD (0, 0)).2

set_option maxRecDepth 20000 in
/-- All blocks of a row have the same number of EC codewords (R174). -/
theorem ecPerBlock_table : ∀ (i : Fin 40) (e : Fin 4),
    (blocks (i.val + 1) (BitVec.ofFin e)).all
      (fun b => b.1 - b.2 == ecPerBlock (i.val + 1) (BitVec.ofFin e)) = true := by decide

theorem blocks_ec {v : Nat} (ec : BitVec 2) (h1 : 1 ≤ v) (h40 : v ≤ 40) {b : Nat × Nat} (hb : b ∈ blocks v ec) :
    b.1 - b.2 = ecPerBlock v ec := by
  have hall := forall_version (P := fun v => (blocks v ec).all (fun b => b.1 - b.2 == ecPerBlock v ec) = true)
    (fun i => ecPerBlock_table i ec.toFin) v h1 h40
  exact beq_iff_eq.1 (List.all_eq_true.1 hall b hb)

section
variable {data : List Byte} {v : Nat} {ec : BitVec 2}

/-- The data blocks have the lengths of the table. -/
theorem length_data_blocks (hdata : data.length = dataCodewords v ec) :
    ((splitBlocks (blocks v ec) data).map (·.1)).map List.length = (blocks v ec).map (·.2) :=
  (List.map_map ..).trans (sum_data_splitBlocks _ _ hdata)

/-- The EC blocks all have the same length. -/
theorem length_ec_blocks (data : List Byte) (h1 : 1 ≤ v) (h40 : v ≤ 40) :
    ((splitBlocks (blocks v ec) data).map (·.2)).map List.length =
      List.replicate (blocks v ec).length (ecPerBlock v ec) := by
  rw [List.map_map, ← List.map_const']
  exact (length_ec_splitBlocks _ _).trans (List.map_congr_left fun b hb => blocks_ec ec h1 h40 hb)

theorem length_interleaved_data (hdata : data.length = dataCodewords v ec) :
    (interleave ((splitBlocks (blocks v ec) data).map (·.1))).length = data.length := by
  rw [length_interleave, length_data_blocks hdata, hdata, dataCodewords]

/-- A row's blocks hold its data and its EC codewords, T in all (R174). -/
theorem sum_blocks {bl : List (Nat × Nat)} (hle : ∀ b ∈ bl, b.2 ≤ b.1) :
    (bl.map (·.2)).sum + (bl.map fun b => b.1 - b.2).sum = (bl.map (·.1)).sum := by
  induction bl with
  | nil => rfl
  | cons b bl ih =>
    obtain ⟨hb, hrest⟩ := List.forall_mem_cons.1 hle
    have hsum := ih hrest
    simp only [List.map_cons, List.sum_cons]
    omega

theorem length_codewordStream (h1 : 1 ≤ v) (h40 : v ≤ 40) (hdata : data.length = dataCodewords v ec) :
    (codewordStream data v ec).length = totalCodewords v ec := by
  obtain ⟨-, -, -, hle, -⟩ := blocks_bounds v ec h1 h40
  have hec : ((splitBlocks (blocks v ec) data).map (·.2)).map List.length = (blocks v ec).map fun b => b.1 - b.2 :=
    (List.map_map ..).trans (length_ec_splitBlocks _ _)
  rw [codewordStream, List.length_append, length_interleave, length_interleave, length_data_blocks hdata, hec,
    sum_blocks hle, totalCodewords]

variable (h1 : 1 ≤ v) (h40 : v ≤ 40) (hdata : data.length = dataCodewords v ec)
  {b total count i : Nat} (hb : (blocks v ec)[b]? = some (total, count))
include hdata hb

theorem getD_codewordStream_data (hi : i < count) :
    (codewordStream data v ec).getD (dataPosition ((blocks v ec).map (·.2)) i b) 0 =
      ((data.drop (((blocks v ec).map (·.2)).take b).sum).take count).getD i 0 := by
  have hblock := congrArg (Option.map (·.1)) (getElem?_splitBlocks (data := data) hb)
  rw [← List.getElem?_map, Option.map_some] at hblock
  have hlen : ((data.drop (((blocks v ec).map (·.2)).take b).sum).take count).length = count := by
    have hlens := congrArg (·[b]?) (length_data_blocks hdata)
    simpa only [List.getElem?_map, hblock, hb, Option.map_some, Option.some.injEq] using hlens
  have hi' := Nat.lt_of_lt_of_eq hi hlen.symm
  have hget := getElem?_interleave hblock hi'
  rw [length_data_blocks hdata] at hget
  have hin := (List.getElem?_eq_some_iff.1 (hget.trans (List.getElem?_eq_getElem hi'))).1
  rw [codewordStream, List.getD_eq_getElem?_getD, List.getElem?_append_left hin, hget, List.getD_eq_getElem?_getD]

include h1 h40

theorem getD_codewordStream_ec (hi : i < total - count) :
    (codewordStream data v ec).getD (data.length + i * (blocks v ec).length + b) 0 =
      (rsEcc ((data.drop (((blocks v ec).map (·.2)).take b).sum).take count) (total - count)).getD i 0 := by
  have hblock := congrArg (Option.map (·.2)) (getElem?_splitBlocks (data := data) hb)
  rw [← List.getElem?_map, Option.map_some] at hblock
  obtain ⟨hlt, heq⟩ := List.getElem?_eq_some_iff.1 hb
  have hec : total - count = ecPerBlock v ec := blocks_ec ec h1 h40 (List.mem_of_getElem? hb)
  have hget := getElem?_interleave hblock (Nat.lt_of_lt_of_eq hi (length_rsEcc _ _).symm)
  rw [length_ec_blocks data h1 h40, dataPosition_replicate (hec ▸ hi) (Nat.le_of_lt hlt)] at hget
  rw [codewordStream, List.getD_eq_getElem?_getD, Nat.add_assoc,
    List.getElem?_append_right (by rw [length_interleaved_data hdata]; omega), length_interleaved_data hdata,
    Nat.add_sub_cancel_left, hget, List.getD_eq_getElem?_getD]

end

/-- Settles O37: the stream is the interleaved data blocks, then the interleaved EC blocks, all of one length. -/
theorem streamInterleavesTheBlocks : Obligations.StreamInterleavesTheBlocks := by
  unfold Obligations.StreamInterleavesTheBlocks
  intro data v ec h1 h40 hdata
  exact ⟨length_codewordStream h1 h40 hdata, fun b total count hb =>
    ⟨fun i => getD_codewordStream_data hdata hb, fun i => getD_codewordStream_ec h1 h40 hdata hb⟩⟩

/-! ## BUILD_CODEWORDS (R176, R181) -/

/-- CW[j] after the store of a stream. -/
theorem cwAt_setCodewords (s : State) {stream : List Byte} (hlen : stream.length ≤ 3706) {j : Nat} (hj : j < stream.length) :
    (s.setCodewords stream).cwAt j = stream.getD j 0 := by
  have hread := Mem.read_renewed Config.freeByte Config.cwDepth s.draws stream j
  rw [if_pos (Nat.lt_of_lt_of_le hj hlen), ← List.getElem_eq_getD (h := hj)] at hread
  exact hread.trans (List.getElem_eq_getD 0)

theorem buildCodewords_of_noVersion {s : State} (hver : s.status.verValid = false) :
    buildCodewords s = .raise .sequence s.loseCodewords := if_pos hver

section
variable {s : State} (hlegal : s.VersionLegal) (hsel : s.SelectionFits) (hver : s.status.verValid = true)
include hlegal hsel hver

/-- A selected version is one of the table's. -/
theorem version_of_verValid : 1 ≤ s.regs.version.toNat ∧ s.regs.version.toNat ≤ 40 := by
  obtain ⟨hpos, -⟩ := hsel hver
  obtain ⟨hzero, -⟩ | ⟨h1, h40, -⟩ := hlegal
  · omega
  · exact ⟨h1, h40⟩

/-- A segment that fits the selection has its bit stream (R181). -/
theorem exists_bitstream :
    ∃ bits, bitstream s.segOperand s.regs.version.toNat s.regs.dataCw.toNat = some bits := by
  obtain ⟨h1, h40⟩ := version_of_verValid hlegal hsel hver
  obtain ⟨-, hdata, -, -, hfit⟩ := hsel hver
  have hseg : s.segOperand.length ≤ cap s.regs.version.toNat s.regs.selEc := by
    rwa [segOperand_eq, List.length_map, List.length_range]
  rw [hdata]
  exact ⟨_, bitstream_of_fits (fits_of_le_cap h1 h40 hseg)⟩

/-- The stream has the length of TOTAL_CW, which CW holds (R175). -/
theorem length_stream_eq_totalCw (bits : List Bool) :
    (codewordStream (packBytes bits s.regs.dataCw.toNat) s.regs.version.toNat s.regs.selEc).length = s.regs.totalCw.toNat ∧
      s.regs.totalCw.toNat ≤ 3706 := by
  obtain ⟨h1, h40⟩ := version_of_verValid hlegal hsel hver
  obtain ⟨-, hdata, htotal, -, -⟩ := hsel hver
  obtain ⟨-, hbound, -⟩ := blocks_bounds s.regs.version.toNat s.regs.selEc h1 h40
  rw [htotal]
  exact ⟨length_codewordStream h1 h40 ((length_packBytes _ _).trans hdata), hbound⟩

end

/-- Settles O35: a segment within CAP leaves room for its bits, whose codewords CW then holds. -/
theorem buildCodewordsNeverExceedsCapacity : Obligations.BuildCodewordsNeverExceedsCapacity := by
  unfold Obligations.BuildCodewordsNeverExceedsCapacity
  intro s hlegal hsel
  refine ⟨fun hver => exec_failed .buildCodewords nofun (buildCodewords_of_noVersion hver), fun hver => ?_⟩
  obtain ⟨bits, hbits⟩ := exists_bitstream hlegal hsel hver
  obtain ⟨hlen, hbound⟩ := length_stream_eq_totalCw hlegal hsel hver bits
  refine ⟨_, bits, exec_completed .buildCodewords nofun (buildCodewords_ok s hver hbits), ?_, ?_,
    fun i hi => bbAt_setBitBuffer s bits hi, fun j hj => ?_⟩
  · rwa [← segOperand_eq]
  · rw [← length_bitstream hbits]
    rfl
  · exact cwAt_setCodewords (s.setBitBuffer bits) (Nat.le_trans (Nat.le_of_eq hlen) hbound) (Nat.lt_of_lt_of_eq hj hlen.symm)

/-! ## Sums over a line -/

/-- f 0 + … + f (n - 1). -/
def total (n : Nat) (f : Nat → Nat) : Nat := ((List.range n).map f).sum

@[simp] theorem total_zero (f : Nat → Nat) : total 0 f = 0 := rfl

theorem total_succ (n : Nat) (f : Nat → Nat) : total (n + 1) f = total n f + f n := by
  rw [total, List.range_succ, List.map_append, List.sum_append_nat]
  rfl

theorem total_congr {n : Nat} {f g : Nat → Nat} (h : ∀ i, i < n → f i = g i) : total n f = total n g :=
  congrArg List.sum (List.map_congr_left fun i hi => h i (List.mem_range.1 hi))

theorem total_const (n k : Nat) : (total n fun _ => k) = n * k := by
  rw [total, List.map_const', List.length_range, List.sum_replicate_nat]

theorem total_add (n : Nat) (f g : Nat → Nat) : (total n fun i => f i + g i) = total n f + total n g := by
  induction n with
  | zero => rfl
  | succ n ih =>
    simp only [total_succ, ih]
    omega

theorem total_mul (n k : Nat) (f : Nat → Nat) : (total n fun i => k * f i) = k * total n f := by
  induction n with
  | zero => rfl
  | succ n ih => rw [total_succ, total_succ, ih, Nat.mul_add]

theorem total_append (m n : Nat) (f : Nat → Nat) : total (m + n) f = total m f + total n fun i => f (m + i) := by
  induction n with
  | zero => rfl
  | succ n ih => rw [← Nat.add_assoc, total_succ, ih, total_succ, Nat.add_assoc]

theorem total_reverse (n : Nat) (f : Nat → Nat) : (total n fun i => f (n - 1 - i)) = total n f := by
  induction n with
  | zero => rfl
  | succ n ih =>
    have hshift : ∀ i, i < n → f (n + 1 - 1 - (1 + i)) = f (n - 1 - i) := fun i _ => congrArg f (by omega)
    rw [Nat.add_comm n 1, total_append, Nat.add_comm 1 n, total_congr hshift, ih, total_succ, total_zero, Nat.zero_add,
      Nat.add_comm]
    exact (total_succ n f).symm

/-- The terms a to a + m - 1 all equal. -/
theorem total_add_const {f : Nat → Nat} {a m k : Nat} (h : ∀ i, a ≤ i → i < a + m → f i = k) :
    total (a + m) f = total a f + m * k := by
  have hconst : ∀ i, i < m → f (a + i) = k := fun i hi => h (a + i) (Nat.le_add_right a i) (Nat.add_lt_add_left hi a)
  rw [total_append, total_congr hconst, total_const]

/-- Two terms at a time. -/
theorem total_pairs (g : Nat → Nat) (m : Nat) : (total m fun j => g (2 * j + 1) + g (2 * j)) = total (2 * m) g := by
  induction m with
  | zero => rfl
  | succ m ih =>
    rw [total_succ, ih, Nat.mul_succ, total_succ, total_succ]
    omega

/-! ## Counting cells -/

/-- How many of the n cells of a line satisfy `p`. -/
def lineCount (n : Nat) (p : Nat → Bool) : Nat := total n fun i => (p i).toNat

/-- How many cells of an n × n matrix satisfy `p`, column by column. -/
def cellCount (n : Nat) (p : Nat → Nat → Bool) : Nat := total n fun c => lineCount n fun r => p r c

theorem lineCount_succ (n : Nat) (p : Nat → Bool) : lineCount (n + 1) p = lineCount n p + (p n).toNat := total_succ n _

theorem toNat_and (a b : Bool) : (a && b).toNat = a.toNat * b.toNat := by cases a <;> cases b <;> rfl

theorem toNat_or_of_exclusive {a b : Bool} (h : (a && b) = false) : (a || b).toNat = a.toNat + b.toNat := by
  revert a b
  decide

/-- Rows times columns. -/
theorem cellCount_and (n : Nat) (p q : Nat → Bool) :
    cellCount n (fun r c => p r && q c) = lineCount n p * lineCount n q := by
  have hcolumn (c : Nat) : lineCount n (fun r => p r && q c) = lineCount n p * (q c).toNat := by
    simp only [lineCount, toNat_and, Nat.mul_comm _ (q c).toNat, total_mul]
  simp only [cellCount, hcolumn, total_mul]
  rfl

/-- An interval of a line. -/
theorem lineCount_interval {p : Nat → Bool} {lo hi n : Nat} (hp : ∀ i, i < n → (p i = true ↔ lo ≤ i ∧ i < hi))
    (h : hi ≤ n) : lineCount n p = hi - lo := by
  have hbelow : ∀ m, m ≤ n → lineCount m p = min m hi - lo := by
    intro m hm
    induction m with
    | zero => rw [Nat.zero_min, Nat.zero_sub]; rfl
    | succ m ih =>
      have hlast := hp m (by omega)
      rw [lineCount_succ, ih (by omega)]
      cases hpm : p m with
      | false =>
        rw [hpm] at hlast
        have hout : ¬ (lo ≤ m ∧ m < hi) := fun hin => Bool.false_ne_true (hlast.2 hin)
        rw [Bool.toNat_false]
        omega
      | true =>
        obtain ⟨hlo, hhi⟩ := hlast.1 hpm
        rw [Bool.toNat_true]
        omega
  rw [hbelow n (Nat.le_refl n), Nat.min_eq_right h]

/-- A line without its timing cell. -/
theorem lineCount_off_timing {n : Nat} {p : Nat → Bool} (hp : p 6 = true) (hn : 6 < n) :
    lineCount n (fun i => i != 6 && p i) = lineCount n p - 1 := by
  have hsplit (i : Nat) : (p i).toNat = (i != 6 && p i).toNat + (i == 6).toNat := by
    by_cases hi : i = 6
    · rw [hi, hp]
      rfl
    · rw [bne_iff_ne.2 hi, Bool.true_and, beq_eq_false_iff_ne.2 hi]
      rfl
  have htiming : lineCount n (fun i => i == 6) = 7 - 6 :=
    lineCount_interval (fun i _ => by rw [beq_iff_eq]; omega) hn
  have hsum : lineCount n p = lineCount n (fun i => i != 6 && p i) + lineCount n (fun i => i == 6) :=
    (total_congr fun i _ => hsplit i).trans (total_add n _ _)
  omega

/-! ## The order of placement (R211, R212) -/

/-- The pairs of columns take in each column once, but for column 6 (R212). -/
theorem total_columnPairs (g : Nat → Nat) (v : Nat) (h6 : g 6 = 0) :
    (total (2 * v + 8) fun j => g (rightColumn (4 * v + 17) j) + g (rightColumn (4 * v + 17) j - 1)) =
      total (4 * v + 17) g := by
  have hright : (total (2 * v + 5) fun j => g (rightColumn (4 * v + 17) j) + g (rightColumn (4 * v + 17) j - 1)) =
      total (2 * (2 * v + 5)) fun c => g (7 + c) := by
    rw [← total_pairs fun c => g (7 + c), ← total_reverse]
    refine total_congr fun j hj => ?_
    have hcol : rightColumn (4 * v + 17) (2 * v + 5 - 1 - j) = 7 + (2 * j + 1) := by
      rw [rightColumn, if_pos (by omega)]
      omega
    rw [hcol]
    rfl
  have hleft : (total 3 fun j =>
      g (rightColumn (4 * v + 17) (2 * v + 5 + j)) + g (rightColumn (4 * v + 17) (2 * v + 5 + j) - 1)) = total 7 g := by
    have hcol : ∀ j, j < 3 → rightColumn (4 * v + 17) (2 * v + 5 + j) = 5 - 2 * j := by
      intro j hj
      rw [rightColumn, if_neg (by omega)]
      omega
    simp only [total_succ, total_zero, hcol 0 (by omega), hcol 1 (by omega), hcol 2 (by omega), h6, Nat.reduceMul,
      Nat.reduceSub]
    omega
  rw [total_append (2 * v + 5) 3, hright, hleft, show 4 * v + 17 = 7 + 2 * (2 * v + 5) by omega, total_append,
    Nat.add_comm]

/-- One pair of columns, upward or downward, holds the data cells of its two columns. -/
theorem countP_columnPair (p : Nat → Nat → Bool) (n c : Nat) (row : Nat → Nat)
    (hrow : ∀ f : Nat → Nat, (total n fun i => f (row i)) = total n f) :
    ((List.range n).flatMap fun i => [(row i, c), (row i, c - 1)]).countP (fun x => p x.1 x.2) =
      lineCount n (fun r => p r c) + lineCount n (fun r => p r (c - 1)) := by
  have hpair (i : Nat) : [(row i, c), (row i, c - 1)].countP (fun x => p x.1 x.2) =
      (p (row i) c).toNat + (p (row i) (c - 1)).toNat := by
    cases hr : p (row i) c <;> cases hl : p (row i) (c - 1) <;> simp only [List.countP_cons, List.countP_nil, hr, hl] <;> rfl
  rw [List.countP_flatMap]
  calc total n (fun i => [(row i, c), (row i, c - 1)].countP fun x => p x.1 x.2)
      = total n (fun i => (p (row i) c).toNat + (p (row i) (c - 1)).toNat) := total_congr fun i _ => hpair i
    _ = total n (fun r => (p r c).toNat + (p r (c - 1)).toNat) := hrow fun r => (p r c).toNat + (p r (c - 1)).toNat
    _ = lineCount n (fun r => p r c) + lineCount n (fun r => p r (c - 1)) := total_add n _ _

/-- The placement visits every cell outside the function patterns, once. -/
theorem length_dataCells (v : Nat) :
    (dataCells v).length = cellCount (4 * v + 17) fun r c => !isFunctionCell v r c := by
  have htiming (r : Nat) : (!isFunctionCell v r 6).toNat = 0 := by simp [isFunctionCell]
  have hcol6 : lineCount (4 * v + 17) (fun r => !isFunctionCell v r 6) = 0 := by
    rw [lineCount, total_congr fun r _ => htiming r, total_const, Nat.mul_zero]
  have hrow (j : Nat) (f : Nat → Nat) :
      (total (4 * v + 17) fun i => f (if j % 2 = 0 then 4 * v + 17 - 1 - i else i)) = total (4 * v + 17) f := by
    split
    · exact total_reverse _ f
    · rfl
  have hpair (j : Nat) := countP_columnPair (fun r c => !isFunctionCell v r c) (4 * v + 17) (rightColumn (4 * v + 17) j) _
    (hrow j)
  rw [dataCells, ← List.countP_eq_length_filter, List.countP_flatMap, show (4 * v + 17 - 1) / 2 = 2 * v + 8 by omega]
  exact (total_congr fun j _ => hpair j).trans
    (total_columnPairs (fun c => lineCount (4 * v + 17) fun r => !isFunctionCell v r c) v hcol6)

/-! ## The cells of the function patterns (R201..R210) -/

/-- The finder corners, the timing lines and the version blocks, but not the alignment squares. -/
def isFixedCell (v r c : Nat) : Bool :=
  let n := 4 * v + 17
  (decide (r < 9) && decide (c < 9)) || (decide (r < 9) && decide (n - 8 ≤ c)) || (decide (n - 8 ≤ r) && decide (c < 9)) ||
    r == 6 || c == 6 ||
    (decide (7 ≤ v) && ((decide (r < 6) && decide (n - 11 ≤ c)) || (decide (n - 11 ≤ r) && decide (c < 6))))

/-- Index i of a line is within two of the centre a. -/
def near (a i : Nat) : Bool := decide (a ≤ i + 2) && decide (i ≤ a + 2)

theorem near_iff (a i : Nat) : near a i = true ↔ a ≤ i + 2 ∧ i ≤ a + 2 := by simp [near]

/-- A pair of centres is none of the three finder corners (R204). -/
def hasSquare (v a b : Nat) : Bool :=
  (a, b) != (6, 6) && (a, b) != (6, 4 * v + 10) && (a, b) != (4 * v + 10, 6)

theorem isFunctionCell_iff (v r c : Nat) :
    isFunctionCell v r c = true ↔ isFixedCell v r c = true ∨
      ∃ a ∈ alignmentCentres v, ∃ b ∈ alignmentCentres v, hasSquare v a b = true ∧ near a r = true ∧ near b c = true := by
  have hn : 4 * v + 17 - 7 = 4 * v + 10 := by omega
  simp only [isFunctionCell, isFixedCell, hasSquare, near, Bool.or_eq_true, List.any_eq_true, Bool.and_eq_true, and_assoc, hn]

/-! ## The cells outside corners, timing and version blocks -/

/-- The width of a version block, from version 7 on (R210). -/
def versionWidth (v : Nat) : Nat := if 7 ≤ v then 3 else 0

/-- The number of cells outside corners, timing lines and version blocks: those of the columns left of the timing column,
between it and the corner's edge, between the corners, below the version block and below the right corner. -/
def freeCells (v : Nat) : Nat :=
  6 * (4 * v - versionWidth v) + 2 * (4 * v) + (4 * v - versionWidth v) * (4 * v + 16) + versionWidth v * (4 * v + 10) +
    8 * (4 * v + 8)

theorem isFixedCell_iff (v r c : Nat) :
    isFixedCell v r c = true ↔
      (r < 9 ∧ (c < 9 ∨ 4 * v + 9 ≤ c)) ∨ (4 * v + 9 ≤ r ∧ c < 9) ∨ r = 6 ∨ c = 6 ∨
        (7 ≤ v ∧ ((r < 6 ∧ 4 * v + 6 ≤ c) ∨ (4 * v + 6 ≤ r ∧ c < 6))) := by
  simp only [isFixedCell, Bool.or_eq_true, Bool.and_eq_true, decide_eq_true_eq, beq_iff_eq]
  omega

theorem versionWidth_eq (v : Nat) : 7 ≤ v ∧ versionWidth v = 3 ∨ v < 7 ∧ versionWidth v = 0 := by
  unfold versionWidth
  split <;> omega

/-- A column whose free rows are an interval. -/
theorem lineCount_free {v c lo hi : Nat} (h : hi ≤ 4 * v + 17)
    (hfree : ∀ r, r < 4 * v + 17 → (isFixedCell v r c = true ↔ r < lo ∨ hi ≤ r)) :
    lineCount (4 * v + 17) (fun r => !isFixedCell v r c) = hi - lo := by
  refine lineCount_interval (fun r hr => ?_) h
  rw [Bool.not_eq_true', ← Bool.not_eq_true, hfree r hr]
  omega

section
variable {v c : Nat} (hv : 1 ≤ v)
include hv

/-- Left of the timing column: between the corners, and above the version block. -/
theorem lineCount_free_left (hc : c < 6) :
    lineCount (4 * v + 17) (fun r => !isFixedCell v r c) = 4 * v - versionWidth v := by
  have hw := versionWidth_eq v
  rw [lineCount_free (lo := 9) (hi := 4 * v + 9 - versionWidth v) (by omega) fun r hr => by rw [isFixedCell_iff]; omega]
  omega

theorem lineCount_free_corner (hc : 7 ≤ c ∧ c < 9) :
    lineCount (4 * v + 17) (fun r => !isFixedCell v r c) = 4 * v := by
  rw [lineCount_free (lo := 9) (hi := 4 * v + 9) (by omega) fun r hr => by rw [isFixedCell_iff]; omega]
  omega

/-- Between the corners: all but the timing row. -/
theorem lineCount_free_middle (hc : 9 ≤ c ∧ c < 4 * v + 9 - versionWidth v) :
    lineCount (4 * v + 17) (fun r => !isFixedCell v r c) = 4 * v + 16 := by
  have hcolumn : (fun r => !isFixedCell v r c) = fun r => r != 6 && true := by
    funext r
    have hw := versionWidth_eq v
    rw [Bool.eq_iff_iff, Bool.not_eq_true', ← Bool.not_eq_true, isFixedCell_iff, Bool.and_true, bne_iff_ne]
    omega
  rw [hcolumn, lineCount_off_timing rfl (by omega), lineCount_interval (lo := 0) (hi := 4 * v + 17) (by simp) (by omega)]
  omega

/-- Below the version block, which reaches to the timing row. -/
theorem lineCount_free_version (hc : 4 * v + 9 - versionWidth v ≤ c ∧ c < 4 * v + 9) :
    lineCount (4 * v + 17) (fun r => !isFixedCell v r c) = 4 * v + 10 := by
  have hw := versionWidth_eq v
  rw [lineCount_free (lo := 7) (hi := 4 * v + 17) (by omega) fun r hr => by rw [isFixedCell_iff]; omega]
  omega

theorem lineCount_free_right (hc : 4 * v + 9 ≤ c ∧ c < 4 * v + 17) :
    lineCount (4 * v + 17) (fun r => !isFixedCell v r c) = 4 * v + 8 := by
  rw [lineCount_free (lo := 9) (hi := 4 * v + 17) (by omega) fun r hr => by rw [isFixedCell_iff]; omega]
  omega

theorem cellCount_free : cellCount (4 * v + 17) (fun r c => !isFixedCell v r c) = freeCells v := by
  have hw := versionWidth_eq v
  have htiming : ∀ c, 6 ≤ c → c < 6 + 1 → lineCount (4 * v + 17) (fun r => !isFixedCell v r c) = 0 := fun c h1 h2 =>
    lineCount_free (lo := 0) (hi := 0) (by omega) fun r hr => by rw [isFixedCell_iff]; omega
  have hn : total (4 * v + 17) = total (0 + 6 + 1 + 2 + (4 * v - versionWidth v) + versionWidth v + 8) :=
    congrArg total (by omega)
  rw [cellCount, hn, total_add_const fun c h1 h2 => lineCount_free_right hv (by omega),
    total_add_const fun c h1 h2 => lineCount_free_version hv (by omega),
    total_add_const fun c h1 h2 => lineCount_free_middle hv (by omega),
    total_add_const fun c h1 h2 => lineCount_free_corner hv (by omega),
    total_add_const fun c h1 h2 => htiming c (by omega) (by omega),
    total_add_const fun c h1 h2 => lineCount_free_left hv (by omega), total_zero, freeCells]
  omega

end

/-! ## The alignment squares (R203, R204) -/

set_option maxRecDepth 20000 in
/-- From version 2 on the centres are 6, the one at n - 7 and centres between, five apart or more. -/
theorem centres_table : ∀ i : Fin 39,
    6 ∈ alignmentCentres (i.val + 2) ∧ 4 * (i.val + 2) + 10 ∈ alignmentCentres (i.val + 2) ∧
      (∀ a ∈ alignmentCentres (i.val + 2), a = 6 ∨ a = 4 * (i.val + 2) + 10 ∨ (22 ≤ a ∧ a + 6 ≤ 4 * (i.val + 2))) ∧
      (alignmentCentres (i.val + 2)).Pairwise (fun a b => a + 5 ≤ b) := by decide

/-- Index i, off the timing line, is within two of a centre. -/
def inBand (v i : Nat) : Bool := i != 6 && (alignmentCentres v).any (near · i)

/-- Index i, off the timing line, is within two of the centre a. -/
def inArm (a i : Nat) : Bool := i != 6 && near a i

theorem inBand_iff (v i : Nat) : inBand v i = true ↔ i ≠ 6 ∧ ∃ a ∈ alignmentCentres v, near a i = true := by
  simp [inBand]

theorem inArm_iff (a i : Nat) : inArm a i = true ↔ i ≠ 6 ∧ near a i = true := by simp [inArm]

/-- A cell off the bands is a function cell only of the other patterns. -/
theorem isFunctionCell_of_not_inBand {v r c : Nat} (hrc : (inBand v r && inBand v c) = false) :
    isFunctionCell v r c = isFixedCell v r c := by
  rw [Bool.eq_iff_iff, isFunctionCell_iff, or_iff_left_iff_imp]
  rintro ⟨a, ha, b, hb, -, hr, hc⟩
  rw [isFixedCell_iff]
  refine Decidable.byContradiction fun hfixed => ?_
  have hband : (inBand v r && inBand v c) = true := by
    rw [Bool.and_eq_true, inBand_iff, inBand_iff]
    exact ⟨⟨by omega, a, ha, hr⟩, by omega, b, hb, hc⟩
  exact Bool.false_ne_true (hrc.symm.trans hband)

/-- The three finder corners, of which a pair of centres is at most one. -/
theorem toNat_not_hasSquare (v a b : Nat) :
    (!hasSquare v a b).toNat =
      ((a == 6) && (b == 6)).toNat + ((a == 6) && (b == 4 * v + 10)).toNat + ((a == 4 * v + 10) && (b == 6)).toNat := by
  have hexclusive : ∀ x x' y y' : Bool, (x && x') = false → (y && y') = false →
      (!(!(x && y) && !(x && y') && !(x' && y))).toNat = (x && y).toNat + (x && y').toNat + (x' && y).toNat := by decide
  have hne (i : Nat) : ((i == 6) && (i == 4 * v + 10)) = false := by
    rw [← Bool.not_eq_true, Bool.and_eq_true, beq_iff_eq, beq_iff_eq]
    omega
  exact hexclusive _ _ _ _ (hne a) (hne b)

section
variable {v : Nat} (h2 : 2 ≤ v) (h40 : v ≤ 40)
include h2 h40

theorem centres_spec :
    6 ∈ alignmentCentres v ∧ 4 * v + 10 ∈ alignmentCentres v ∧
      (∀ a ∈ alignmentCentres v, a = 6 ∨ a = 4 * v + 10 ∨ (22 ≤ a ∧ a + 6 ≤ 4 * v)) ∧
      (alignmentCentres v).Pairwise (fun a b => a + 5 ≤ b) := by
  have := centres_table ⟨v - 2, by omega⟩
  rwa [show v - 2 + 2 = v by omega] at this

/-- No index is near two centres. -/
theorem centre_unique {a b i : Nat} (ha : a ∈ alignmentCentres v) (hb : b ∈ alignmentCentres v)
    (hai : near a i = true) (hbi : near b i = true) : a = b := by
  obtain ⟨-, -, -, hapart⟩ := centres_spec h2 h40
  obtain ⟨j, hj, rfl⟩ := List.getElem_of_mem ha
  obtain ⟨k, hk, rfl⟩ := List.getElem_of_mem hb
  rw [near_iff] at hai hbi
  have hpair := List.pairwise_iff_getElem.1 hapart
  obtain hlt | rfl | hgt := Nat.lt_trichotomy j k
  · have := hpair j k hj hk hlt
    omega
  · rfl
  · have := hpair k j hk hj hgt
    omega

/-- Off the timing lines, a square's cells are free of the other patterns. -/
theorem not_isFixedCell_of_square {a b r c : Nat} (ha : a ∈ alignmentCentres v) (hb : b ∈ alignmentCentres v)
    (hsq : hasSquare v a b = true) (hr : inArm a r = true) (hc : inArm b c = true) : isFixedCell v r c = false := by
  obtain ⟨-, -, hrange, -⟩ := centres_spec h2 h40
  have hra := hrange a ha
  have hrb := hrange b hb
  rw [inArm_iff, near_iff] at hr hc
  simp only [hasSquare, Bool.and_eq_true, bne_iff_ne, ne_eq, Prod.mk.injEq] at hsq
  rw [← Bool.not_eq_true, isFixedCell_iff]
  omega

/-- Off the timing lines, near the centres a and b, only the square at (a, b) can be. -/
theorem isFunctionCell_of_arms {a b r c : Nat} (ha : a ∈ alignmentCentres v) (hb : b ∈ alignmentCentres v)
    (hr : inArm a r = true) (hc : inArm b c = true) :
    isFunctionCell v r c = (isFixedCell v r c || hasSquare v a b) := by
  obtain ⟨-, hra⟩ := (inArm_iff a r).1 hr
  obtain ⟨-, hcb⟩ := (inArm_iff b c).1 hc
  rw [Bool.eq_iff_iff, isFunctionCell_iff, Bool.or_eq_true]
  refine or_congr_right ⟨?_, fun hsq => ⟨a, ha, b, hb, hsq, hra, hcb⟩⟩
  rintro ⟨a', ha', b', hb', hsq, hra', hcb'⟩
  rwa [centre_unique h2 h40 ha ha' hra hra', centre_unique h2 h40 hb hb' hcb hcb']

/-- Of the arms of all centres, an index is in that of its own centre. -/
theorem inArm_eq_beq {a a' i : Nat} (ha : a ∈ alignmentCentres v) (ha' : a' ∈ alignmentCentres v)
    (hi : inArm a i = true) : inArm a' i = (a == a') := by
  obtain ⟨h6, hnear⟩ := (inArm_iff a i).1 hi
  rw [Bool.eq_iff_iff, inArm_iff, beq_iff_eq]
  constructor
  · rintro ⟨-, hnear'⟩
    exact centre_unique h2 h40 ha ha' hnear hnear'
  · rintro rfl
    exact ⟨h6, hnear⟩

/-- Where the bands cross there stands a square, free of the other patterns, or a finder corner. -/
theorem toNat_not_isFunctionCell (r c : Nat) :
    (!isFunctionCell v r c).toNat + (inBand v r && inBand v c).toNat =
      (!isFixedCell v r c).toNat + ((inArm 6 r && inArm 6 c).toNat + (inArm 6 r && inArm (4 * v + 10) c).toNat +
        (inArm (4 * v + 10) r && inArm 6 c).toNat) := by
  obtain ⟨h6, hlast, -, -⟩ := centres_spec h2 h40
  cases hrc : inBand v r && inBand v c with
  | false =>
    have harms {a b : Nat} (ha : a ∈ alignmentCentres v) (hb : b ∈ alignmentCentres v) : (inArm a r && inArm b c) = false := by
      rw [← Bool.not_eq_true, Bool.and_eq_true, inArm_iff, inArm_iff]
      rw [← Bool.not_eq_true, Bool.and_eq_true, inBand_iff, inBand_iff] at hrc
      exact fun ⟨⟨hr, hra⟩, hc, hcb⟩ => hrc ⟨⟨hr, a, ha, hra⟩, hc, b, hb, hcb⟩
    rw [isFunctionCell_of_not_inBand hrc, harms h6 h6, harms h6 hlast, harms hlast h6]
    rfl
  | true =>
    rw [Bool.and_eq_true, inBand_iff, inBand_iff] at hrc
    obtain ⟨⟨hr, a, ha, hra⟩, hc, b, hb, hcb⟩ := hrc
    have hra := (inArm_iff a r).2 ⟨hr, hra⟩
    have hcb := (inArm_iff b c).2 ⟨hc, hcb⟩
    rw [isFunctionCell_of_arms h2 h40 ha hb hra hcb, inArm_eq_beq h2 h40 ha h6 hra, inArm_eq_beq h2 h40 ha hlast hra,
      inArm_eq_beq h2 h40 hb h6 hcb, inArm_eq_beq h2 h40 hb hlast hcb, ← toNat_not_hasSquare]
    cases hsq : hasSquare v a b with
    | true =>
      rw [not_isFixedCell_of_square h2 h40 ha hb hsq hra hcb]
      rfl
    | false =>
      rw [Bool.or_false]
      rfl

end

/-! ## Counting the alignment squares -/

theorem lineCount_near {n a : Nat} (h : 2 ≤ a ∧ a + 2 < n) : lineCount n (near a) = 5 := by
  rw [lineCount_interval (lo := a - 2) (hi := a + 3) (fun i _ => by rw [near_iff]; omega) (by omega)]
  omega

/-- Centres five apart have five indices each near them. -/
theorem lineCount_any_near {n : Nat} {centres : List Nat} (hapart : centres.Pairwise fun a b => a + 5 ≤ b)
    (hin : ∀ a ∈ centres, 2 ≤ a ∧ a + 2 < n) :
    lineCount n (fun i => centres.any (near · i)) = 5 * centres.length := by
  induction centres with
  | nil => exact total_const n 0
  | cons a centres ih =>
    obtain ⟨hfirst, hrest⟩ := List.pairwise_cons.1 hapart
    obtain ⟨ha, hcentres⟩ := List.forall_mem_cons.1 hin
    have hexclusive (i : Nat) : (near a i && centres.any (near · i)) = false := by
      rw [← Bool.not_eq_true, Bool.and_eq_true, List.any_eq_true]
      rintro ⟨hai, b, hb, hbi⟩
      have := hfirst b hb
      rw [near_iff] at hai hbi
      omega
    calc lineCount n (fun i => (a :: centres).any (near · i))
        = total n (fun i => (near a i).toNat + (centres.any (near · i)).toNat) :=
          total_congr fun i _ => toNat_or_of_exclusive (hexclusive i)
      _ = lineCount n (near a) + lineCount n (fun i => centres.any (near · i)) := total_add n _ _
      _ = 5 * (a :: centres).length := by rw [lineCount_near ha, ih hrest hcentres, List.length_cons]; omega

theorem lineCount_inArm_first {n : Nat} (hn : 9 ≤ n) : lineCount n (inArm 6) = 4 := by
  have hnear : near 6 6 = true := rfl
  exact (lineCount_off_timing hnear (by omega)).trans (by rw [lineCount_near (by omega)])

section
variable {v : Nat} (h2 : 2 ≤ v)
include h2

theorem lineCount_inArm_last : lineCount (4 * v + 17) (inArm (4 * v + 10)) = 5 := by
  rw [lineCount_interval (lo := 4 * v + 8) (hi := 4 * v + 13) (fun i _ => by rw [inArm_iff, near_iff]; omega) (by omega)]
  omega

variable (h40 : v ≤ 40)
include h40

theorem lineCount_inBand : lineCount (4 * v + 17) (inBand v) = 5 * (alignmentCentres v).length - 1 := by
  obtain ⟨h6, -, hrange, hapart⟩ := centres_spec h2 h40
  have hnear : (alignmentCentres v).any (near · 6) = true := List.any_eq_true.2 ⟨6, h6, rfl⟩
  have hin : ∀ a ∈ alignmentCentres v, 2 ≤ a ∧ a + 2 < 4 * v + 17 := by
    intro a ha
    have := hrange a ha
    omega
  exact (lineCount_off_timing hnear (by omega)).trans (by rw [lineCount_any_near hapart hin])

/-- The bands cross in the free cells of the squares, and in those of the three finder corners. -/
theorem cellCount_crossings :
    cellCount (4 * v + 17) (fun r c => !isFunctionCell v r c) + (5 * (alignmentCentres v).length - 1) ^ 2 =
      freeCells v + 56 := by
  have hcells : cellCount (4 * v + 17) (fun r c => !isFunctionCell v r c) +
        cellCount (4 * v + 17) (fun r c => inBand v r && inBand v c) =
      cellCount (4 * v + 17) (fun r c => !isFixedCell v r c) +
        (cellCount (4 * v + 17) (fun r c => inArm 6 r && inArm 6 c) +
          cellCount (4 * v + 17) (fun r c => inArm 6 r && inArm (4 * v + 10) c) +
          cellCount (4 * v + 17) (fun r c => inArm (4 * v + 10) r && inArm 6 c)) := by
    simp only [cellCount, lineCount, ← total_add, toNat_not_isFunctionCell h2 h40]
  rwa [cellCount_and, cellCount_and, cellCount_and, cellCount_and, cellCount_free (by omega), lineCount_inBand h2 h40,
    lineCount_inArm_first (by omega), lineCount_inArm_last h2, ← Nat.pow_two] at hcells

/-- The bands of two centres or more cross in more cells than the corners take. -/
theorem crossings_ge : 56 ≤ (5 * (alignmentCentres v).length - 1) ^ 2 := by
  obtain ⟨h6, hlast, -, -⟩ := centres_spec h2 h40
  have htwo : 2 ≤ (alignmentCentres v).length := by
    have hsub : [6, 4 * v + 10] ⊆ alignmentCentres v := by simp [h6, hlast]
    have hnodup : [6, 4 * v + 10].Nodup := by simp
    exact hnodup.length_le_of_subset hsub
  calc 56 ≤ 9 ^ 2 := by decide
    _ ≤ (5 * (alignmentCentres v).length - 1) ^ 2 := Nat.pow_le_pow_left (by omega) 2

end

/-- Version 1 has no alignment square. -/
theorem isFunctionCell_one (r c : Nat) : isFunctionCell 1 r c = isFixedCell 1 r c := Bool.or_false _

/-- The number of free cells that the alignment squares take. -/
def squareCells (v : Nat) : Nat := if v = 1 then 0 else (5 * (alignmentCentres v).length - 1) ^ 2 - 56

/-- The size of the data region (R211). -/
theorem length_dataCells_eq {v : Nat} (h1 : 1 ≤ v) (h40 : v ≤ 40) : (dataCells v).length = freeCells v - squareCells v := by
  rw [length_dataCells]
  by_cases hv : v = 1
  · subst hv
    simp only [isFunctionCell_one]
    exact cellCount_free h1
  · have hcross := cellCount_crossings (v := v) (by omega) h40
    have hge := crossings_ge (v := v) (by omega) h40
    rw [squareCells, if_neg hv]
    omega

/-! ## The identities of R175 -/

/-- The bounds of R175(c) on the blocks of a row. -/
def blocksBounded (v : Nat) (ec : BitVec 2) : Bool :=
  (blocks v ec).all (fun b => decide (b.2 ≤ 123) && decide (b.1 - b.2 ≤ 30)) && decide ((blocks v ec).length ≤ 81)

set_option maxRecDepth 20000 in
/-- R175(a), (c) row by row. -/
theorem capacity_table : ∀ (i : Fin 40) (e : Fin 4),
    cap (i.val + 1) (BitVec.ofFin e) = (8 * dataCodewords (i.val + 1) (BitVec.ofFin e) - 4 - lenBits (i.val + 1)) / 8 ∧
      blocksBounded (i.val + 1) (BitVec.ofFin e) = true ∧
      totalCodewords (i.val + 1) (BitVec.ofFin e) = totalCodewords (i.val + 1) 0 := by decide

theorem capacity_spec {v : Nat} (ec : BitVec 2) (h1 : 1 ≤ v) (h40 : v ≤ 40) :
    cap v ec = (8 * dataCodewords v ec - 4 - lenBits v) / 8 ∧ blocksBounded v ec = true ∧
      totalCodewords v ec = totalCodewords v 0 :=
  forall_version
    (P := fun v => cap v ec = (8 * dataCodewords v ec - 4 - lenBits v) / 8 ∧ blocksBounded v ec = true ∧
      totalCodewords v ec = totalCodewords v 0)
    (fun i => capacity_table i ec.toFin) v h1 h40

set_option maxRecDepth 20000 in
/-- R175(b) row by row, of the region's size. -/
theorem region_table : ∀ i : Fin 40,
    8 * totalCodewords (i.val + 1) 0 ≤ freeCells (i.val + 1) - squareCells (i.val + 1) ∧
      freeCells (i.val + 1) - squareCells (i.val + 1) < 8 * totalCodewords (i.val + 1) 0 + 8 := by decide

/-- The data region has room for the codewords, and for less than one more (R175(b)). -/
theorem region_spec {v : Nat} (h1 : 1 ≤ v) (h40 : v ≤ 40) :
    8 * totalCodewords v 0 ≤ (dataCells v).length ∧ (dataCells v).length < 8 * totalCodewords v 0 + 8 := by
  rw [length_dataCells_eq h1 h40]
  exact forall_version
    (P := fun v => 8 * totalCodewords v 0 ≤ freeCells v - squareCells v ∧
      freeCells v - squareCells v < 8 * totalCodewords v 0 + 8) region_table v h1 h40

/-- Settles O38: (a) and (c) from the tables' rows, (b) from the size of the data region, counted for every version. -/
theorem capacityTableFollowsFromTheBlockTable : Obligations.CapacityTableFollowsFromTheBlockTable := by
  unfold Obligations.CapacityTableFollowsFromTheBlockTable
  intro v ec h1 h40
  obtain ⟨hcap, hbounded, htotal⟩ := capacity_spec ec h1 h40
  obtain ⟨-, hT, -⟩ := blocks_bounds v ec h1 h40
  simp only [blocksBounded, Bool.and_eq_true, List.all_eq_true, decide_eq_true_eq] at hbounded
  obtain ⟨hblocks, hlen⟩ := hbounded
  obtain ⟨hroom, hless⟩ := region_spec h1 h40
  exact ⟨hcap, hblocks, hlen, hT, htotal, htotal ▸ hroom, htotal ▸ hless⟩

end Sys2Proof.Proofs

/-! PROOFS. The family of spec/44_matrix.md: what each step of a build writes and leaves (O40, O41), the cells it leaves to
data placement and the order in which that visits them (O39, O42), and MATRIX_BUILD (O43). -/

namespace Sys2Proof.Proofs

open Sys2Proof.Machine Sys2Proof.Claims

/-! ## A run of writes -/

section
variable {n : Nat} {w : Matrix} (hw : w.Square n)
include hw

theorem cell_put_of_ne {r c i j : Nat} (x : Cell) (hne : (i, j) ≠ (r, c)) : (w.put r c x).cell i j = w.cell i j := by
  by_cases hin : r < n ∧ c < n
  · have hij : ¬ (i = r ∧ j = c) := fun h => hne (Prod.ext h.1 h.2)
    rw [Matrix.cell_put hw hin.1 hin.2, if_neg hij]
  · rw [Matrix.put_outside hw (by omega)]

theorem cell_put_self {r c : Nat} (x : Cell) (hr : r < n) (hc : c < n) : (w.put r c x).cell r c = x := by
  rw [Matrix.cell_put hw hr hc, if_pos ⟨rfl, rfl⟩]

theorem square_putAll (l : List ((Nat × Nat) × Cell)) : (w.putAll l).Square n := by
  induction l generalizing w with
  | nil => exact hw
  | cons q l ih => exact ih (Matrix.square_put hw q.1.1 q.1.2 q.2)

theorem square_putUnset (r c : Nat) (x : Cell) : (w.putUnset r c x).Square n := by
  rw [Matrix.putUnset]
  split
  · exact Matrix.square_put hw r c x
  · exact hw

theorem square_foldl_putUnset (l : List (Nat × Nat)) (x : Nat × Nat → Cell) :
    (l.foldl (fun w q => w.putUnset q.1 q.2 (x q)) w).Square n := by
  induction l generalizing w with
  | nil => exact hw
  | cons q l ih => exact ih (square_putUnset hw q.1 q.2 (x q))

variable {i j : Nat} (hi : i < n) (hj : j < n)
include hi hj

/-- After a run of writes a cell is as before, where none was its own, or what one of its own wrote. -/
theorem cell_putAll_cases (l : List ((Nat × Nat) × Cell)) :
    ((w.putAll l).cell i j = w.cell i j ∧ ∀ x, ((i, j), x) ∉ l) ∨ ((i, j), (w.putAll l).cell i j) ∈ l := by
  induction l generalizing w with
  | nil => exact .inl ⟨rfl, fun x => List.not_mem_nil⟩
  | cons q l ih =>
    obtain ⟨⟨r, c⟩, y⟩ := q
    have hfirst : w.putAll (((r, c), y) :: l) = (w.put r c y).putAll l := rfl
    rw [hfirst]
    obtain ⟨hkept, hnone⟩ | hmem := ih (Matrix.square_put hw r c y)
    · by_cases heq : (i, j) = (r, c)
      · obtain ⟨rfl, rfl⟩ := Prod.mk.inj heq
        rw [hkept, cell_put_self hw y hi hj]
        exact .inr List.mem_cons_self
      · refine .inl ⟨hkept.trans (cell_put_of_ne hw y heq), fun x hx => ?_⟩
        obtain hx | hx := List.mem_cons.1 hx
        · exact heq (congrArg Prod.fst hx)
        · exact hnone x hx
    · exact .inr (List.mem_cons_of_mem _ hmem)

theorem cell_putAll_of_notMem {l : List ((Nat × Nat) × Cell)} (hnone : ∀ x, ((i, j), x) ∉ l) :
    (w.putAll l).cell i j = w.cell i j :=
  (cell_putAll_cases hw hi hj l).elim And.left fun hmem => absurd hmem (hnone _)

theorem cell_putAll_of_mem {l : List ((Nat × Nat) × Cell)} {x : Cell} (hmem : ((i, j), x) ∈ l)
    (hone : ∀ y, ((i, j), y) ∈ l → y = x) : (w.putAll l).cell i j = x :=
  (cell_putAll_cases hw hi hj l).elim (fun ⟨_, hnone⟩ => absurd hmem (hnone x)) (hone _)

theorem cell_putUnset (r c : Nat) (x : Cell) :
    (w.putUnset r c x).cell i j = if w.cell i j = .unset ∧ (i, j) = (r, c) then x else w.cell i j := by
  rw [Matrix.putUnset]
  by_cases hu : w.cell r c = .unset
  · rw [if_pos hu]
    by_cases heq : (i, j) = (r, c)
    · obtain ⟨rfl, rfl⟩ := Prod.mk.inj heq
      rw [cell_put_self hw x hi hj, if_pos ⟨hu, rfl⟩]
    · rw [cell_put_of_ne hw x heq, if_neg fun h => heq h.2]
  · rw [if_neg hu, if_neg]
    rintro ⟨hij, heq⟩
    obtain ⟨rfl, rfl⟩ := Prod.mk.inj heq
    exact hu hij

/-- A run of writes to unset cells, the value written a function of the position. -/
theorem cell_foldl_putUnset (l : List (Nat × Nat)) (x : Nat × Nat → Cell) :
    (l.foldl (fun w q => w.putUnset q.1 q.2 (x q)) w).cell i j =
      if w.cell i j = .unset ∧ (i, j) ∈ l then x (i, j) else w.cell i j := by
  induction l generalizing w with
  | nil => rw [List.foldl_nil, if_neg fun h => List.not_mem_nil h.2]
  | cons q l ih =>
    rw [List.foldl_cons, ih (square_putUnset hw q.1 q.2 (x q)), cell_putUnset hw hi hj]
    by_cases heq : (i, j) = q
    · subst heq
      by_cases hu : w.cell i j = .unset <;> simp [hu]
    · simp [heq]

end

/-! ## Finder patterns (R201) -/

/-- The writes of one finder pattern and its separator. -/
def probeWrites (n r0 c0 : Nat) : List ((Nat × Nat) × Cell) :=
  probeOffsets.flatMap fun dr => probeOffsets.filterMap fun dc =>
    let r := (r0 : Int) + dr
    let c := (c0 : Int) + dc
    if 0 ≤ r ∧ r < n ∧ 0 ≤ c ∧ c < n then some ((r.toNat, c.toNat), probeCell dr dc) else none

theorem probe_eq (n r0 c0 : Nat) (w : Matrix) : probe n r0 c0 w = w.putAll (probeWrites n r0 c0) := rfl

theorem mem_probeOffsets (d : Int) : d ∈ probeOffsets ↔ -1 ≤ d ∧ d ≤ 7 := by
  simp only [probeOffsets, List.mem_cons, List.not_mem_nil, or_false]
  omega

theorem probeCell_table : ∀ i j : Fin 9, probeCell ((i.val : Int) - 1) ((j.val : Int) - 1) =
    finderRing ((i.val : Int) - 1) ((j.val : Int) - 1) := by decide

theorem probeCell_eq_finderRing {dr dc : Int} (hr : dr ∈ probeOffsets) (hc : dc ∈ probeOffsets) :
    probeCell dr dc = finderRing dr dc := by
  rw [mem_probeOffsets] at hr hc
  have := probeCell_table ⟨(dr + 1).toNat, by omega⟩ ⟨(dc + 1).toNat, by omega⟩
  rwa [Int.toNat_of_nonneg (by omega), Int.toNat_of_nonneg (by omega), Int.add_sub_cancel, Int.add_sub_cancel] at this

/-- Cell (r, c) lies in the 9 × 9 frame of the finder pattern at (r0, c0). -/
abbrev InFrame (r0 c0 r c : Nat) : Prop := r0 ≤ r + 1 ∧ r ≤ r0 + 7 ∧ c0 ≤ c + 1 ∧ c ≤ c0 + 7

theorem mem_probeWrites {n r c : Nat} (hr : r < n) (hc : c < n) (r0 c0 : Nat) (x : Cell) :
    ((r, c), x) ∈ probeWrites n r0 c0 ↔ InFrame r0 c0 r c ∧ x = finderRing ((r : Int) - r0) ((c : Int) - c0) := by
  simp only [probeWrites, List.mem_flatMap, List.mem_filterMap, Option.ite_none_right_eq_some, Option.some.injEq,
    Prod.mk.injEq]
  constructor
  · rintro ⟨dr, hdr, dc, hdc, hin, ⟨rfl, rfl⟩, rfl⟩
    rw [probeCell_eq_finderRing hdr hdc]
    rw [mem_probeOffsets] at hdr hdc
    exact ⟨by omega, congr (congrArg finderRing (by omega)) (by omega)⟩
  · rintro ⟨hin, rfl⟩
    have hdr : (r : Int) - r0 ∈ probeOffsets := by rw [mem_probeOffsets]; omega
    have hdc : (c : Int) - c0 ∈ probeOffsets := by rw [mem_probeOffsets]; omega
    exact ⟨_, hdr, _, hdc, by omega, by omega, probeCell_eq_finderRing hdr hdc⟩

section
variable {n : Nat} {w : Matrix} (hw : w.Square n) {r c : Nat} (hr : r < n) (hc : c < n)
include hw hr hc

theorem cell_probe_inside {r0 c0 : Nat} (hin : InFrame r0 c0 r c) :
    (probe n r0 c0 w).cell r c = finderRing ((r : Int) - r0) ((c : Int) - c0) := by
  have hmem := mem_probeWrites hr hc r0 c0
  rw [probe_eq]
  exact cell_putAll_of_mem hw hr hc ((hmem _).2 ⟨hin, rfl⟩) fun y hy => ((hmem y).1 hy).2

theorem cell_probe_outside {r0 c0 : Nat} (hout : ¬ InFrame r0 c0 r c) : (probe n r0 c0 w).cell r c = w.cell r c := by
  rw [probe_eq]
  exact cell_putAll_of_notMem hw hr hc fun x hx => hout ((mem_probeWrites hr hc r0 c0 x).1 hx).1

end

theorem square_probe {n : Nat} {w : Matrix} (hw : w.Square n) (r0 c0 : Nat) : (probe n r0 c0 w).Square n :=
  (grows_probe r0 c0 hw).1

theorem cell_blank (n r c : Nat) : (Matrix.blank n).cell r c = .unset := by
  by_cases hr : r < n <;> by_cases hc : c < n <;> simp [Matrix.cell, Matrix.blank, hr, hc]

/-- The matrix of version v after the finder patterns. -/
def finders (v : Nat) : Matrix := placeFinders (4 * v + 17) (Matrix.blank (4 * v + 17))

theorem square_finders (v : Nat) : (finders v).Square (4 * v + 17) := (grows_placeFinders (Matrix.square_blank _)).1

/-- The cells of the three finder patterns and their separators (R201). -/
abbrev InFinder (v r c : Nat) : Prop := (r < 8 ∧ c < 8) ∨ (4 * v + 9 ≤ r ∧ c < 8) ∨ (r < 8 ∧ 4 * v + 9 ≤ c)

section
variable {v r c : Nat} (h1 : 1 ≤ v) (hr : r < 4 * v + 17) (hc : c < 4 * v + 17)
include h1 hr hc

/-- The three frames lie apart. -/
theorem cell_finders :
    (r < 8 → c < 8 → (finders v).cell r c = finderRing r c) ∧
      (4 * v + 9 ≤ r → c < 8 → (finders v).cell r c = finderRing ((r : Int) - (4 * v + 10 : Nat)) c) ∧
      (r < 8 → 4 * v + 9 ≤ c → (finders v).cell r c = finderRing r ((c : Int) - (4 * v + 10 : Nat))) ∧
      (¬ InFinder v r c → (finders v).cell r c = .unset) := by
  have hblank := Matrix.square_blank (4 * v + 17)
  have hn : 4 * v + 17 - 7 = 4 * v + 10 := by omega
  have hfirst := square_probe hblank 0 0
  have hsecond := square_probe hfirst (4 * v + 10) 0
  unfold finders placeFinders
  rw [hn]
  refine ⟨fun _ _ => ?_, fun _ _ => ?_, fun _ _ => ?_, fun hout => ?_⟩
  · rw [cell_probe_outside hsecond hr hc (by omega), cell_probe_outside hfirst hr hc (by omega),
      cell_probe_inside hblank hr hc (by omega)]
    exact congr (congrArg finderRing (Int.sub_zero _)) (Int.sub_zero _)
  · rw [cell_probe_outside hsecond hr hc (by omega), cell_probe_inside hfirst hr hc (by omega)]
    exact congrArg (finderRing _) (Int.sub_zero _)
  · rw [cell_probe_inside hsecond hr hc (by omega)]
    exact congrArg (finderRing · _) (Int.sub_zero _)
  · rw [cell_probe_outside hsecond hr hc (by omega), cell_probe_outside hfirst hr hc (by omega),
      cell_probe_outside hblank hr hc (by omega), cell_blank]

theorem cell_finders_eq_unset_iff : (finders v).cell r c = .unset ↔ ¬ InFinder v r c := by
  obtain ⟨htop, hbottom, hright, hout⟩ := cell_finders h1 hr hc
  refine ⟨fun hu hin => ?_, hout⟩
  obtain ⟨h, h'⟩ | ⟨h, h'⟩ | ⟨h, h'⟩ := hin
  · exact Cell.ofBool_ne_unset _ ((htop h h').symm.trans hu)
  · exact Cell.ofBool_ne_unset _ ((hbottom h h').symm.trans hu)
  · exact Cell.ofBool_ne_unset _ ((hright h h').symm.trans hu)

end

/-! ## Alignment patterns (R204) -/

/-- The writes of the alignment pattern with centre (a, b). -/
def squareWrites (a b : Nat) : List ((Nat × Nat) × Cell) :=
  (List.range 5).flatMap fun i => (List.range 5).map fun j => ((a + i - 2, b + j - 2), alignmentCell i j)

theorem alignmentCell_table : ∀ i j : Fin 5, alignmentCell i.val j.val = alignmentRing i.val j.val := by decide

theorem alignmentCell_eq_ring {i j : Nat} (hi : i < 5) (hj : j < 5) : alignmentCell i j = alignmentRing i j :=
  alignmentCell_table ⟨i, hi⟩ ⟨j, hj⟩

/-- Cell (r, c) lies in the alignment pattern with centre (a, b). -/
def InSquare (v a b r c : Nat) : Prop := hasSquare v a b = true ∧ near a r = true ∧ near b c = true

theorem mem_squareWrites {a b : Nat} (ha : 2 ≤ a) (hb : 2 ≤ b) (r c : Nat) (x : Cell) :
    ((r, c), x) ∈ squareWrites a b ↔
      near a r = true ∧ near b c = true ∧ x = alignmentRing (r + 2 - a) (c + 2 - b) := by
  simp only [squareWrites, List.mem_flatMap, List.mem_map, List.mem_range, Prod.mk.injEq, near_iff]
  constructor
  · rintro ⟨i, hi, j, hj, ⟨rfl, rfl⟩, rfl⟩
    rw [alignmentCell_eq_ring hi hj]
    exact ⟨by omega, by omega, congr (congrArg alignmentRing (by omega)) (by omega)⟩
  · rintro ⟨hr, hc, rfl⟩
    exact ⟨r + 2 - a, by omega, c + 2 - b, by omega, by omega, alignmentCell_eq_ring (by omega) (by omega)⟩

/-- A list of parts, none twice, whose members tell the part. -/
theorem nodup_flatMap_of_unique {α β : Type} {l : List α} {f : α → List β} (hl : l.Nodup) (hf : ∀ x ∈ l, (f x).Nodup)
    (hunique : ∀ x ∈ l, ∀ y ∈ l, ∀ b, b ∈ f x → b ∈ f y → x = y) : (l.flatMap f).Nodup :=
  List.pairwise_flatMap.2
    ⟨hf, List.Pairwise.imp_of_mem (fun hx hy hne b hbx _ hby heq => hne (hunique _ hx _ hy b hbx (heq ▸ hby))) hl⟩

/-- The pairs of centres, in the order of placement. -/
def centrePairs (v : Nat) : List (Nat × Nat) := (alignmentCentres v).flatMap fun a => (alignmentCentres v).map fun b => (a, b)

theorem mem_centrePairs (v : Nat) (q : Nat × Nat) :
    q ∈ centrePairs v ↔ q.1 ∈ alignmentCentres v ∧ q.2 ∈ alignmentCentres v := by
  simp only [centrePairs, List.mem_flatMap, List.mem_map]
  constructor
  · rintro ⟨a, ha, b, hb, rfl⟩
    exact ⟨ha, hb⟩
  · exact fun ⟨ha, hb⟩ => ⟨q.1, ha, q.2, hb, rfl⟩

theorem placeAlignments_eq (v : Nat) (w : Matrix) :
    placeAlignments v w = (centrePairs v).foldl (fun w q => placeAlignment w q.1 q.2) w := by
  simp only [placeAlignments, centrePairs, List.foldl_flatMap, List.foldl_map]

section
variable {v : Nat} (h1 : 1 ≤ v) (h40 : v ≤ 40)
include h1 h40

/-- Version 1 has no centres. -/
theorem two_le_of_mem_centres {a : Nat} (ha : a ∈ alignmentCentres v) : 2 ≤ v := by
  obtain rfl | h2 : v = 1 ∨ 2 ≤ v := by omega
  · exact absurd ha List.not_mem_nil
  · exact h2

theorem centre_range {a : Nat} (ha : a ∈ alignmentCentres v) : a = 6 ∨ a = 4 * v + 10 ∨ (22 ≤ a ∧ a + 6 ≤ 4 * v) := by
  obtain ⟨-, -, hrange, -⟩ := centres_spec (two_le_of_mem_centres h1 h40 ha) h40
  exact hrange a ha

theorem centrePairs_nodup : (centrePairs v).Nodup := by
  have hcentres : (alignmentCentres v).Nodup := by
    by_cases hv : v = 1
    · exact hv ▸ List.nodup_nil
    · obtain ⟨-, -, -, hapart⟩ := centres_spec (v := v) (by omega) h40
      exact hapart.imp fun h => by omega
  refine nodup_flatMap_of_unique hcentres (fun a _ => ?_) fun a _ a' _ q hqa hqa' => ?_
  · exact List.Pairwise.map _ (fun b b' hne heq => hne (Prod.mk.inj heq).2) hcentres
  · obtain ⟨b, -, rfl⟩ := List.mem_map.1 hqa
    obtain ⟨b', -, heq⟩ := List.mem_map.1 hqa'
    exact (Prod.mk.inj heq).1.symm

/-- The squares lie along the timing row, along the timing column, or off both, and clear of the other patterns. -/
theorem inSquare_zone {a b r c : Nat} (ha : a ∈ alignmentCentres v) (hb : b ∈ alignmentCentres v)
    (hin : InSquare v a b r c) :
    (4 ≤ r ∧ r ≤ 8 ∧ 20 ≤ c ∧ c + 4 ≤ 4 * v) ∨ (20 ≤ r ∧ r + 4 ≤ 4 * v ∧ 4 ≤ c ∧ c ≤ 8) ∨ (16 ≤ r ∧ 16 ≤ c) := by
  have hra := centre_range h1 h40 ha
  have hrb := centre_range h1 h40 hb
  have h2 := two_le_of_mem_centres h1 h40 ha
  obtain ⟨hsq, hr, hc⟩ := hin
  simp only [hasSquare, Bool.and_eq_true, bne_iff_ne, ne_eq, Prod.mk.injEq] at hsq
  rw [near_iff] at hr hc
  obtain rfl | hra := hra
  · exact .inl (by omega)
  · obtain rfl | hrb := hrb
    · exact .inr (.inl (by omega))
    · exact .inr (.inr (by omega))

theorem not_inFinder_of_inSquare {a b r c : Nat} (ha : a ∈ alignmentCentres v) (hb : b ∈ alignmentCentres v)
    (hin : InSquare v a b r c) : ¬ InFinder v r c := by
  have hzone := inSquare_zone h1 h40 ha hb hin
  omega

theorem cell_finders_centre {a b : Nat} (ha : a ∈ alignmentCentres v) (hb : b ∈ alignmentCentres v) :
    (finders v).cell a b = .unset ↔ hasSquare v a b = true := by
  have hra := centre_range h1 h40 ha
  have hrb := centre_range h1 h40 hb
  have h2 := two_le_of_mem_centres h1 h40 ha
  rw [cell_finders_eq_unset_iff h1 (by omega) (by omega)]
  simp only [hasSquare, Bool.and_eq_true, bne_iff_ne, ne_eq, Prod.mk.injEq]
  omega

/-- The square around a centre is that of no other pair of centres. -/
theorem centre_of_inSquare {a b a' b' : Nat} (ha : a ∈ alignmentCentres v) (hb : b ∈ alignmentCentres v)
    (ha' : a' ∈ alignmentCentres v) (hb' : b' ∈ alignmentCentres v) (hin : InSquare v a b a' b') : (a, b) = (a', b') := by
  have h2 := two_le_of_mem_centres h1 h40 ha
  have hself (i : Nat) : near i i = true := (near_iff i i).2 ⟨by omega, by omega⟩
  obtain ⟨-, hr, hc⟩ := hin
  exact Prod.ext (centre_unique h2 h40 ha ha' hr (hself a')) (centre_unique h2 h40 hb hb' hc (hself b'))

variable {r c : Nat} (hr : r < 4 * v + 17) (hc : c < 4 * v + 17)
include hr hc

/-- One pattern, where its centre is unset exactly when it is to stand there. -/
theorem cell_placeAlignment {a b : Nat} (ha : a ∈ alignmentCentres v) (hb : b ∈ alignmentCentres v) {w : Matrix}
    (hw : w.Square (4 * v + 17)) (hopen : w.cell a b = .unset ↔ hasSquare v a b = true) :
    ((placeAlignment w a b).cell r c = w.cell r c ∧ ¬ InSquare v a b r c) ∨
      (InSquare v a b r c ∧ (placeAlignment w a b).cell r c = alignmentRing (r + 2 - a) (c + 2 - b)) := by
  have hra := centre_range h1 h40 ha
  have hrb := centre_range h1 h40 hb
  have hmem := mem_squareWrites (a := a) (b := b) (by omega) (by omega) r c
  by_cases hsq : hasSquare v a b = true
  · have hplace : placeAlignment w a b = w.putAll (squareWrites a b) := if_neg (not_not_intro (hopen.2 hsq))
    rw [hplace]
    obtain ⟨hkept, hnone⟩ | hx := cell_putAll_cases hw hr hc (squareWrites a b)
    · exact .inl ⟨hkept, fun ⟨_, hnr, hnc⟩ => hnone _ ((hmem _).2 ⟨hnr, hnc, rfl⟩)⟩
    · obtain ⟨hnr, hnc, hval⟩ := (hmem _).1 hx
      exact .inr ⟨⟨hsq, hnr, hnc⟩, hval⟩
  · have hplace : placeAlignment w a b = w := if_pos fun hu => hsq (hopen.1 hu)
    exact .inl ⟨congrArg (Matrix.cell · r c) hplace, fun hin => hsq hin.1⟩

/-- A run of patterns at pairs of centres, none twice: no pattern covers the centre of another. -/
theorem cell_foldl_placeAlignment (ps : List (Nat × Nat)) (hnodup : ps.Nodup)
    (hps : ∀ q ∈ ps, q.1 ∈ alignmentCentres v ∧ q.2 ∈ alignmentCentres v) {w : Matrix} (hw : w.Square (4 * v + 17))
    (hopen : ∀ q ∈ ps, w.cell q.1 q.2 = .unset ↔ hasSquare v q.1 q.2 = true) :
    ((ps.foldl (fun w q => placeAlignment w q.1 q.2) w).cell r c = w.cell r c ∧ ∀ q ∈ ps, ¬ InSquare v q.1 q.2 r c) ∨
      ∃ q ∈ ps, InSquare v q.1 q.2 r c ∧
        (ps.foldl (fun w q => placeAlignment w q.1 q.2) w).cell r c = alignmentRing (r + 2 - q.1) (c + 2 - q.2) := by
  induction ps generalizing w with
  | nil => exact .inl ⟨rfl, fun q hq => absurd hq List.not_mem_nil⟩
  | cons p ps ih =>
    obtain ⟨hp, hps⟩ := List.forall_mem_cons.1 hps
    obtain ⟨hopenp, hopen⟩ := List.forall_mem_cons.1 hopen
    obtain ⟨hfresh, hnodup⟩ := List.nodup_cons.1 hnodup
    obtain ⟨ha, hb⟩ := hp
    have hw' := (grows_placeAlignment hw p.1 p.2).1
    have hopen' : ∀ q ∈ ps, (placeAlignment w p.1 p.2).cell q.1 q.2 = .unset ↔ hasSquare v q.1 q.2 = true := by
      intro q hq
      obtain ⟨hqa, hqb⟩ := hps q hq
      have hra := centre_range h1 h40 hqa
      have hrb := centre_range h1 h40 hqb
      obtain ⟨hkept, -⟩ | ⟨hin, -⟩ :=
        cell_placeAlignment h1 h40 (r := q.1) (c := q.2) (by omega) (by omega) ha hb hw hopenp
      · rw [hkept]
        exact hopen q hq
      · have hpq : p = q := centre_of_inSquare h1 h40 ha hb hqa hqb hin
        exact absurd (hpq ▸ hq) hfresh
    rw [List.foldl_cons]
    obtain ⟨hkept, hnone⟩ | ⟨q, hq, hin, hval⟩ := ih hnodup hps hw' hopen'
    · obtain ⟨hkeptp, houtp⟩ | ⟨hin, hval⟩ := cell_placeAlignment h1 h40 hr hc ha hb hw hopenp
      · exact .inl ⟨hkept.trans hkeptp, List.forall_mem_cons.2 ⟨houtp, hnone⟩⟩
      · exact .inr ⟨p, List.mem_cons_self, hin, hkept.trans hval⟩
    · exact .inr ⟨q, List.mem_cons_of_mem p hq, hin, hval⟩

end

/-- The matrix of version v after the alignment patterns. -/
def alignments (v : Nat) : Matrix := placeAlignments v (finders v)

theorem square_alignments (v : Nat) : (alignments v).Square (4 * v + 17) := (grows_placeAlignments v (square_finders v)).1

/-- Cell (r, c) lies in an alignment pattern of version v. -/
def InSomeSquare (v r c : Nat) : Prop := ∃ a ∈ alignmentCentres v, ∃ b ∈ alignmentCentres v, InSquare v a b r c

section
variable {v : Nat} (h1 : 1 ≤ v) (h40 : v ≤ 40) {r c : Nat} (hr : r < 4 * v + 17) (hc : c < 4 * v + 17)
include h1 h40 hr hc

theorem cell_alignments_cases :
    ((alignments v).cell r c = (finders v).cell r c ∧ ¬ InSomeSquare v r c) ∨
      ∃ a ∈ alignmentCentres v, ∃ b ∈ alignmentCentres v, InSquare v a b r c ∧
        (alignments v).cell r c = alignmentRing (r + 2 - a) (c + 2 - b) := by
  have hps : ∀ q ∈ centrePairs v, q.1 ∈ alignmentCentres v ∧ q.2 ∈ alignmentCentres v := fun q => (mem_centrePairs v q).1
  rw [alignments, placeAlignments_eq]
  obtain ⟨hkept, hnone⟩ | ⟨q, hq, hin, hval⟩ := cell_foldl_placeAlignment h1 h40 hr hc (centrePairs v)
    (centrePairs_nodup h1 h40) hps (square_finders v) fun q hq => cell_finders_centre h1 h40 (hps q hq).1 (hps q hq).2
  · exact .inl ⟨hkept, fun ⟨a, ha, b, hb, hin⟩ => hnone (a, b) ((mem_centrePairs v _).2 ⟨ha, hb⟩) hin⟩
  · exact .inr ⟨q.1, (hps q hq).1, q.2, (hps q hq).2, hin, hval⟩

theorem cell_alignments_of_inSquare {a b : Nat} (ha : a ∈ alignmentCentres v) (hb : b ∈ alignmentCentres v)
    (hin : InSquare v a b r c) : (alignments v).cell r c = alignmentRing (r + 2 - a) (c + 2 - b) := by
  obtain ⟨-, hout⟩ | ⟨a', ha', b', hb', ⟨-, hr', hc'⟩, hval⟩ := cell_alignments_cases h1 h40 hr hc
  · exact absurd ⟨a, ha, b, hb, hin⟩ hout
  · have h2 := two_le_of_mem_centres h1 h40 ha
    obtain ⟨-, hra, hcb⟩ := hin
    rwa [centre_unique h2 h40 ha' ha hr' hra, centre_unique h2 h40 hb' hb hc' hcb] at hval

theorem cell_alignments_of_inFinder (hin : InFinder v r c) : (alignments v).cell r c = (finders v).cell r c := by
  obtain ⟨hkept, -⟩ | ⟨a, ha, b, hb, hsquare, -⟩ := cell_alignments_cases h1 h40 hr hc
  · exact hkept
  · exact absurd hin (not_inFinder_of_inSquare h1 h40 ha hb hsquare)

theorem cell_alignments_eq_unset_iff :
    (alignments v).cell r c = .unset ↔ ¬ InFinder v r c ∧ ¬ InSomeSquare v r c := by
  obtain ⟨hkept, hout⟩ | ⟨a, ha, b, hb, hin, hval⟩ := cell_alignments_cases h1 h40 hr hc
  · rw [hkept, cell_finders_eq_unset_iff h1 hr hc, and_iff_left hout]
  · exact iff_of_false (hval ▸ Cell.ofBool_ne_unset _) fun ⟨_, hout⟩ => hout ⟨a, ha, b, hb, hin⟩

end

/-! ## Timing patterns (R205) -/

theorem mem_timingIndices (v k : Nat) : k ∈ timingIndices (4 * v + 17) ↔ 8 ≤ k ∧ k < 4 * v + 9 := by
  simp only [timingIndices, List.mem_map, List.mem_range]
  constructor
  · rintro ⟨i, hi, rfl⟩
    omega
  · exact fun h => ⟨k - 8, by omega, by omega⟩

theorem placeTiming_eq (n : Nat) (w : Matrix) :
    placeTiming n w =
      ((timingIndices n).map fun c => (6, c)).foldl (fun w q => w.putUnset q.1 q.2 (shade (q.2 % 2 == 0)))
        (((timingIndices n).map fun r => (r, 6)).foldl (fun w q => w.putUnset q.1 q.2 (shade (q.1 % 2 == 0))) w) := by
  simp only [List.foldl_map]
  rfl

/-- The fixed patterns of version v: finder, alignment and timing patterns (R201, R204, R205). -/
def fixedPatterns (v : Nat) : Matrix := placeTiming (4 * v + 17) (alignments v)

theorem square_fixedPatterns (v : Nat) : (fixedPatterns v).Square (4 * v + 17) := (grows_placeTiming (square_alignments v)).1

/-- The timing cells outside the finder patterns. -/
abbrev OnTimingLine (v r c : Nat) : Prop := (c = 6 ∧ 8 ≤ r ∧ r < 4 * v + 9) ∨ (r = 6 ∧ 8 ≤ c ∧ c < 4 * v + 9)

theorem alignmentRing_axis_table : ∀ i : Fin 5,
    alignmentRing i.val 2 = shade (i.val % 2 == 0) ∧ alignmentRing 2 i.val = shade (i.val % 2 == 0) := by decide

set_option maxRecDepth 20000 in
theorem centres_even_table : ∀ i : Fin 40, ∀ a ∈ alignmentCentres (i.val + 1), a % 2 = 0 := by decide

theorem centre_even {v : Nat} (h1 : 1 ≤ v) (h40 : v ≤ 40) {a : Nat} (ha : a ∈ alignmentCentres v) : a % 2 = 0 :=
  forall_version (P := fun v => ∀ a ∈ alignmentCentres v, a % 2 = 0) centres_even_table v h1 h40 a ha

section
variable {v r c : Nat} (hr : r < 4 * v + 17) (hc : c < 4 * v + 17)
include hr hc

/-- Timing leaves a set cell, and writes an unset cell of its two lines by parity. -/
theorem cell_fixedPatterns :
    (fixedPatterns v).cell r c =
      if (alignments v).cell r c = .unset ∧ OnTimingLine v r c then shade ((if c = 6 then r else c) % 2 == 0)
      else (alignments v).cell r c := by
  have hcolumn : (r, c) ∈ (timingIndices (4 * v + 17)).map (fun r => (r, 6)) ↔ c = 6 ∧ 8 ≤ r ∧ r < 4 * v + 9 := by
    simp only [List.mem_map, mem_timingIndices, Prod.mk.injEq]
    exact ⟨fun ⟨k, hk, hkr, hkc⟩ => by omega, fun ⟨h6, hr8⟩ => ⟨r, hr8, rfl, h6.symm⟩⟩
  have hrow : (r, c) ∈ (timingIndices (4 * v + 17)).map (fun c => (6, c)) ↔ r = 6 ∧ 8 ≤ c ∧ c < 4 * v + 9 := by
    simp only [List.mem_map, mem_timingIndices, Prod.mk.injEq]
    exact ⟨fun ⟨k, hk, hkr, hkc⟩ => by omega, fun ⟨h6, hc8⟩ => ⟨c, hc8, h6.symm, rfl⟩⟩
  rw [fixedPatterns, placeTiming_eq, cell_foldl_putUnset (square_foldl_putUnset (square_alignments v) _ _) hr hc,
    cell_foldl_putUnset (square_alignments v) hr hc]
  simp only [hcolumn, hrow]
  by_cases hc6 : c = 6
  · simp [hc6, OnTimingLine]
  · by_cases hu : (alignments v).cell r c = .unset <;> simp [hc6, hu, OnTimingLine]

variable (h1 : 1 ≤ v) (h40 : v ≤ 40)
include h1 h40

theorem cell_fixedPatterns_of_inFinder (hin : InFinder v r c) : (fixedPatterns v).cell r c = (finders v).cell r c := by
  have hset : (alignments v).cell r c ≠ .unset := fun hu => ((cell_alignments_eq_unset_iff h1 h40 hr hc).1 hu).1 hin
  rw [cell_fixedPatterns hr hc, if_neg fun h => hset h.1, cell_alignments_of_inFinder h1 h40 hr hc hin]

theorem cell_fixedPatterns_of_inSquare {a b : Nat} (ha : a ∈ alignmentCentres v) (hb : b ∈ alignmentCentres v)
    (hin : InSquare v a b r c) : (fixedPatterns v).cell r c = alignmentRing (r + 2 - a) (c + 2 - b) := by
  have hset : (alignments v).cell r c ≠ .unset := fun hu =>
    ((cell_alignments_eq_unset_iff h1 h40 hr hc).1 hu).2 ⟨a, ha, b, hb, hin⟩
  rw [cell_fixedPatterns hr hc, if_neg fun h => hset h.1, cell_alignments_of_inSquare h1 h40 hr hc ha hb hin]

/-- An alignment pattern on a timing line has that line's parity (R204). -/
theorem cell_fixedPatterns_of_onTimingLine (hin : OnTimingLine v r c) :
    (fixedPatterns v).cell r c = shade ((if c = 6 then r else c) % 2 == 0) := by
  by_cases hu : (alignments v).cell r c = .unset
  · rw [cell_fixedPatterns hr hc, if_pos ⟨hu, hin⟩]
  have hsome : InSomeSquare v r c := Classical.byContradiction fun hout =>
    hu ((cell_alignments_eq_unset_iff h1 h40 hr hc).2 ⟨by omega, hout⟩)
  obtain ⟨a, ha, b, hb, hsquare⟩ := hsome
  rw [cell_fixedPatterns_of_inSquare hr hc h1 h40 ha hb hsquare]
  have hra := centre_range h1 h40 ha
  have hrb := centre_range h1 h40 hb
  have hea := centre_even h1 h40 ha
  have heb := centre_even h1 h40 hb
  obtain ⟨-, hnr, hnc⟩ := hsquare
  rw [near_iff] at hnr hnc
  obtain ⟨rfl, hlo, hhi⟩ | ⟨rfl, hlo, hhi⟩ := hin
  · obtain rfl : b = 6 := by omega
    obtain ⟨hcolumn, -⟩ := alignmentRing_axis_table ⟨r + 2 - a, by omega⟩
    rw [if_pos rfl, hcolumn, show (r + 2 - a) % 2 = r % 2 by omega]
  · obtain rfl : a = 6 := by omega
    obtain ⟨-, hrow⟩ := alignmentRing_axis_table ⟨c + 2 - b, by omega⟩
    rw [if_neg (by omega), hrow, show (c + 2 - b) % 2 = c % 2 by omega]

theorem cell_fixedPatterns_eq_unset_iff :
    (fixedPatterns v).cell r c = .unset ↔ ¬ InFinder v r c ∧ ¬ InSomeSquare v r c ∧ ¬ OnTimingLine v r c := by
  rw [← and_assoc, ← cell_alignments_eq_unset_iff h1 h40 hr hc, cell_fixedPatterns hr hc]
  by_cases hwritten : (alignments v).cell r c = .unset ∧ OnTimingLine v r c
  · rw [if_pos hwritten]
    exact iff_of_false (Cell.ofBool_ne_unset _) fun h => h.2 hwritten.2
  · rw [if_neg hwritten]
    exact ⟨fun hu => ⟨hu, fun hline => hwritten ⟨hu, hline⟩⟩, And.left⟩

end

/-! ## Format and version information, the dark module (R208, R209, R210) -/

/-- The writes of the k bits of an information word, bit i to the cells A i and B i. -/
def copiesWrites (k : Nat) (A B : Nat → Nat × Nat) (test : Bool) (word : Nat) : List ((Nat × Nat) × Cell) :=
  (List.range k).flatMap fun i => [(A i, infoCell test word i), (B i, infoCell test word i)]

/-- Cell q carries bit i, in copy A or in copy B. -/
abbrev Carries (A B : Nat → Nat × Nat) (i : Nat) (q : Nat × Nat) : Prop := q = A i ∨ q = B i

theorem mem_copiesWrites (k : Nat) (A B : Nat → Nat × Nat) (test : Bool) (word : Nat) (q : Nat × Nat) (x : Cell) :
    (q, x) ∈ copiesWrites k A B test word ↔ ∃ i < k, Carries A B i q ∧ x = infoCell test word i := by
  simp [copiesWrites, or_and_right]

section
variable {n : Nat} {w : Matrix} (hw : w.Square n) {r c : Nat} (hr : r < n) (hc : c < n) {k : Nat} {A B : Nat → Nat × Nat}
  (test : Bool) (word : Nat)
include hw hr hc

theorem cell_putAll_copies_of_carries (hunique : ∀ i < k, ∀ j < k, Carries A B i (r, c) → Carries A B j (r, c) → i = j)
    {i : Nat} (hi : i < k) (hcarries : Carries A B i (r, c)) :
    (w.putAll (copiesWrites k A B test word)).cell r c = infoCell test word i := by
  have hmem := mem_copiesWrites k A B test word (r, c)
  refine cell_putAll_of_mem hw hr hc ((hmem _).2 ⟨i, hi, hcarries, rfl⟩) fun y hy => ?_
  obtain ⟨j, hj, hcarries', rfl⟩ := (hmem y).1 hy
  rw [hunique i hi j hj hcarries hcarries']

theorem cell_putAll_copies_of_not_carries (hout : ¬ ∃ i < k, Carries A B i (r, c)) :
    (w.putAll (copiesWrites k A B test word)).cell r c = w.cell r c := by
  refine cell_putAll_of_notMem hw hr hc fun x hx => hout ?_
  obtain ⟨i, hi, hcarries, -⟩ := (mem_copiesWrites k A B test word (r, c) x).1 hx
  exact ⟨i, hi, hcarries⟩

end

/-- Cell q carries format bit i (R208). -/
abbrev CarriesFormat (n : Nat) : Nat → Nat × Nat → Prop := Carries (formatCellA n) (formatCellB n)

/-- The cells of the format information (R208). -/
abbrev InFormat (v r c : Nat) : Prop :=
  (c = 8 ∧ r ≠ 6 ∧ (r < 9 ∨ 4 * v + 10 ≤ r)) ∨ (r = 8 ∧ c ≠ 6 ∧ (c < 9 ∨ 4 * v + 9 ≤ c))

theorem eq_formatCellA_iff (v i r c : Nat) :
    (r, c) = formatCellA (4 * v + 17) i ↔
      c = 8 ∧ (i < 6 ∧ r = i ∨ 6 ≤ i ∧ i < 8 ∧ r = i + 1 ∨ 8 ≤ i ∧ r = 4 * v + 2 + i) := by
  unfold formatCellA
  (repeat' split) <;> rw [Prod.mk.injEq] <;> omega

theorem eq_formatCellB_iff (v i r c : Nat) :
    (r, c) = formatCellB (4 * v + 17) i ↔
      r = 8 ∧ (i < 8 ∧ c = 4 * v + 16 - i ∨ i = 8 ∧ c = 7 ∨ 9 ≤ i ∧ c = 14 - i) := by
  unfold formatCellB
  (repeat' split) <;> rw [Prod.mk.injEq] <;> omega

theorem carriesFormat_iff (v i r c : Nat) :
    CarriesFormat (4 * v + 17) i (r, c) ↔
      (c = 8 ∧ (i < 6 ∧ r = i ∨ 6 ≤ i ∧ i < 8 ∧ r = i + 1 ∨ 8 ≤ i ∧ r = 4 * v + 2 + i)) ∨
        (r = 8 ∧ (i < 8 ∧ c = 4 * v + 16 - i ∨ i = 8 ∧ c = 7 ∨ 9 ≤ i ∧ c = 14 - i)) :=
  or_congr (eq_formatCellA_iff v i r c) (eq_formatCellB_iff v i r c)

theorem carriesFormat_unique {v r c : Nat} (i : Nat) (hi : i < 15) (j : Nat) (hj : j < 15)
    (hqi : CarriesFormat (4 * v + 17) i (r, c)) (hqj : CarriesFormat (4 * v + 17) j (r, c)) : i = j := by
  rw [carriesFormat_iff] at hqi hqj
  omega

theorem carriesFormat_inside {v i r c : Nat} (hi : i < 15) (h : CarriesFormat (4 * v + 17) i (r, c)) :
    r < 4 * v + 17 ∧ c < 4 * v + 17 := by
  rw [carriesFormat_iff] at h
  omega

theorem inFormat_iff {v r c : Nat} (hr : r < 4 * v + 17) (hc : c < 4 * v + 17) :
    InFormat v r c ↔ ∃ i < 15, CarriesFormat (4 * v + 17) i (r, c) := by
  simp only [carriesFormat_iff]
  constructor
  · rintro (⟨rfl, h6, h⟩ | ⟨rfl, h6, h⟩)
    · obtain h | h | h : r < 6 ∨ r = 7 ∨ r = 8 ∨ 4 * v + 10 ≤ r := by omega
      · exact ⟨r, by omega, by omega⟩
      · exact ⟨6, by omega, by omega⟩
      · obtain h | h := h
        · exact ⟨7, by omega, by omega⟩
        · exact ⟨r - (4 * v + 2), by omega, by omega⟩
    · obtain h | h | h : c < 6 ∨ c = 7 ∨ c = 8 ∨ 4 * v + 9 ≤ c := by omega
      · exact ⟨14 - c, by omega, by omega⟩
      · exact ⟨8, by omega, by omega⟩
      · obtain h | h := h
        · exact ⟨7, by omega, by omega⟩
        · exact ⟨4 * v + 16 - c, by omega, by omega⟩
  · rintro ⟨i, hi, h⟩
    omega

/-- Copy A's cell and copy B's cell for format bit i, as R208's table gives them. -/
theorem carriesFormat_copies (v i : Nat) :
    CarriesFormat (4 * v + 17) i (if i < 6 then i else if i < 8 then i + 1 else 4 * v + 17 - 15 + i, 8) ∧
      CarriesFormat (4 * v + 17) i (8, if i < 8 then 4 * v + 17 - 1 - i else if i = 8 then 7 else 14 - i) := by
  constructor
  · refine .inl ((eq_formatCellA_iff v i _ _).2 ⟨rfl, ?_⟩)
    (repeat' split) <;> omega
  · refine .inr ((eq_formatCellB_iff v i _ _).2 ⟨rfl, ?_⟩)
    (repeat' split) <;> omega

theorem placeFormat_eq (n ec m : Nat) (test : Bool) (w : Matrix) :
    placeFormat n ec m test w = w.putAll (copiesWrites 15 (formatCellA n) (formatCellB n) test (formatWord ec m)) := rfl

/-- The cell for version bit i in the block above the top-right finder (R210). -/
def versionCellA (n i : Nat) : Nat × Nat := (i / 3, n - 11 + i % 3)

/-- The cell for version bit i in the block left of the bottom-left finder (R210). -/
def versionCellB (n i : Nat) : Nat × Nat := (n - 11 + i % 3, i / 3)

theorem placeVersion_of_ge {v : Nat} (h7 : 7 ≤ v) (n : Nat) (test : Bool) (w : Matrix) :
    placeVersion n v test w = w.putAll (copiesWrites 18 (versionCellA n) (versionCellB n) test (versionWord v)) :=
  if_neg (Nat.not_lt.2 h7)

/-- Cell q carries version bit i (R210). -/
abbrev CarriesVersion (n : Nat) : Nat → Nat × Nat → Prop := Carries (versionCellA n) (versionCellB n)

theorem carriesVersion_iff (v i r c : Nat) :
    CarriesVersion (4 * v + 17) i (r, c) ↔
      (r = i / 3 ∧ c = 4 * v + 6 + i % 3) ∨ (r = 4 * v + 6 + i % 3 ∧ c = i / 3) := by
  unfold CarriesVersion Carries versionCellA versionCellB
  rw [Prod.mk.injEq, Prod.mk.injEq]
  omega

theorem carriesVersion_unique {v r c : Nat} (i : Nat) (hi : i < 18) (j : Nat) (hj : j < 18)
    (hqi : CarriesVersion (4 * v + 17) i (r, c)) (hqj : CarriesVersion (4 * v + 17) j (r, c)) : i = j := by
  rw [carriesVersion_iff] at hqi hqj
  omega

theorem carriesVersion_inside {v i r c : Nat} (hi : i < 18) (h : CarriesVersion (4 * v + 17) i (r, c)) :
    r < 4 * v + 17 ∧ c < 4 * v + 17 := by
  rw [carriesVersion_iff] at h
  omega

/-- The cells of the version information (R210). -/
abbrev InVersion (v r c : Nat) : Prop :=
  (r < 6 ∧ 4 * v + 6 ≤ c ∧ c < 4 * v + 9) ∨ (c < 6 ∧ 4 * v + 6 ≤ r ∧ r < 4 * v + 9)

theorem inVersion_iff (v r c : Nat) : InVersion v r c ↔ ∃ i < 18, CarriesVersion (4 * v + 17) i (r, c) := by
  simp only [carriesVersion_iff]
  constructor
  · rintro (h | h)
    · exact ⟨3 * r + (c - (4 * v + 6)), by omega, .inl (by omega)⟩
    · exact ⟨3 * c + (r - (4 * v + 6)), by omega, .inr (by omega)⟩
  · rintro ⟨i, hi, h⟩
    omega

/-- Cell (r, c) is the dark module (R209). -/
abbrev IsDarkModule (v r c : Nat) : Prop := r = 4 * v + 9 ∧ c = 8

/-- The cells of the format and version information, and the dark module. -/
abbrev InInformation (v r c : Nat) : Prop := InFormat v r c ∨ IsDarkModule v r c ∨ (7 ≤ v ∧ InVersion v r c)

section
variable (p : Params) {v : Nat} (ec m : Nat) (test : Bool)

/-- The matrix after format information. -/
def formatted (v ec m : Nat) (test : Bool) : Matrix := placeFormat (4 * v + 17) ec m test (fixedPatterns v)

theorem square_formatted : (formatted v ec m test).Square (4 * v + 17) :=
  (grows_placeFormat ec m test (square_fixedPatterns v)).1

/-- The matrix after the dark module. -/
def darkened (p : Params) (v ec m : Nat) (test : Bool) : Matrix :=
  (formatted v ec m test).put (4 * v + 9) 8 (shade (!test || p.darkModuleInTest))

theorem square_darkened : (darkened p v ec m test).Square (4 * v + 17) :=
  Matrix.square_put (square_formatted ec m test) _ _ _

theorem functionPatterns_eq :
    functionPatterns p v ec test m = placeVersion (4 * v + 17) v test (darkened p v ec m test) := by
  rw [darkened, show 4 * v + 9 = 4 * v + 17 - 8 by omega]
  rfl

theorem cell_darkened_of_ne {r c : Nat} (hne : ¬ IsDarkModule v r c) :
    (darkened p v ec m test).cell r c = (formatted v ec m test).cell r c :=
  cell_put_of_ne (square_formatted ec m test) _ fun h => hne (Prod.mk.inj h)

theorem cell_functionPatterns_of_carriesVersion (h7 : 7 ≤ v) {r c i : Nat} (hi : i < 18)
    (hcarries : CarriesVersion (4 * v + 17) i (r, c)) :
    (functionPatterns p v ec test m).cell r c = infoCell test (versionWord v) i := by
  obtain ⟨hr, hc⟩ := carriesVersion_inside hi hcarries
  rw [functionPatterns_eq, placeVersion_of_ge h7]
  exact cell_putAll_copies_of_carries (square_darkened p ec m test) hr hc test _ carriesVersion_unique hi hcarries

section
variable {r c : Nat} (hr : r < 4 * v + 17) (hc : c < 4 * v + 17)
include hr hc

theorem cell_functionPatterns_of_not_inVersion (hout : ¬ (7 ≤ v ∧ InVersion v r c)) :
    (functionPatterns p v ec test m).cell r c = (darkened p v ec m test).cell r c := by
  rw [functionPatterns_eq]
  by_cases h7 : 7 ≤ v
  · rw [placeVersion_of_ge h7]
    exact cell_putAll_copies_of_not_carries (square_darkened p ec m test) hr hc test _ fun hcarries =>
      hout ⟨h7, (inVersion_iff v r c).2 hcarries⟩
  · rw [placeVersion, if_pos (Nat.not_le.1 h7)]

theorem cell_functionPatterns_of_not_inInformation (hout : ¬ InInformation v r c) :
    (functionPatterns p v ec test m).cell r c = (fixedPatterns v).cell r c := by
  obtain ⟨hformat, hrest⟩ := not_or.1 hout
  obtain ⟨hdark, hversion⟩ := not_or.1 hrest
  rw [cell_functionPatterns_of_not_inVersion p ec m test hr hc hversion, cell_darkened_of_ne p ec m test hdark, formatted,
    placeFormat_eq]
  exact cell_putAll_copies_of_not_carries (square_fixedPatterns v) hr hc test _ fun hcarries =>
    hformat ((inFormat_iff hr hc).2 hcarries)

end

theorem cell_functionPatterns_darkModule :
    (functionPatterns p v ec test m).cell (4 * v + 9) 8 = shade (!test || p.darkModuleInTest) := by
  rw [cell_functionPatterns_of_not_inVersion p ec m test (by omega) (by omega) (by omega)]
  exact cell_put_self (square_formatted ec m test) _ (by omega) (by omega)

theorem cell_functionPatterns_of_carriesFormat {r c i : Nat} (hi : i < 15)
    (hcarries : CarriesFormat (4 * v + 17) i (r, c)) :
    (functionPatterns p v ec test m).cell r c = infoCell test (formatWord ec m) i := by
  obtain ⟨hr, hc⟩ := carriesFormat_inside hi hcarries
  have hin := (inFormat_iff hr hc).2 ⟨i, hi, hcarries⟩
  rw [cell_functionPatterns_of_not_inVersion p ec m test hr hc (by omega), cell_darkened_of_ne p ec m test (by omega),
    formatted, placeFormat_eq]
  exact cell_putAll_copies_of_carries (square_fixedPatterns v) hr hc test _ carriesFormat_unique hi hcarries

theorem cell_functionPatterns_of_inInformation {r c : Nat} (hr : r < 4 * v + 17) (hc : c < 4 * v + 17)
    (hin : InInformation v r c) : (functionPatterns p v ec test m).cell r c ≠ .unset := by
  obtain hformat | ⟨rfl, rfl⟩ | ⟨h7, hversion⟩ := hin
  · obtain ⟨i, hi, hcarries⟩ := (inFormat_iff hr hc).1 hformat
    exact cell_functionPatterns_of_carriesFormat p ec m test hi hcarries ▸ Cell.ofBool_ne_unset _
  · exact cell_functionPatterns_darkModule p ec m test ▸ Cell.ofBool_ne_unset _
  · obtain ⟨i, hi, hcarries⟩ := (inVersion_iff v r c).1 hversion
    exact cell_functionPatterns_of_carriesVersion p ec m test h7 hi hcarries ▸ Cell.ofBool_ne_unset _

end

/-- The words of R207. -/
theorem formatWord_table : ∀ (e : Fin 4) (m : Fin 8), formatWord e.val m.val = formatWords.getD (8 * e.val + m.val) 0 := by
  decide

/-- The words of R210. -/
theorem versionWord_table : ∀ i : Fin 34, versionWord (i.val + 7) = versionWords.getD i.val 0 := by decide

theorem formatWord_eq {ec m : Nat} (hec : ec < 4) (hm : m < 8) : formatWord ec m = formatWords.getD (8 * ec + m) 0 :=
  formatWord_table ⟨ec, hec⟩ ⟨m, hm⟩

theorem versionWord_eq {v : Nat} (h7 : 7 ≤ v) (h40 : v ≤ 40) : versionWord v = versionWords.getD (v - 7) 0 := by
  have := versionWord_table ⟨v - 7, by omega⟩
  rwa [Nat.sub_add_cancel h7] at this

/-- Data placement leaves a cell of the function patterns as it is. -/
theorem cell_build_of_shade {p : Params} {v ec m : Nat} {test : Bool} {r c : Nat} {b : Bool} (cw : List Byte)
    (hcell : (functionPatterns p v ec test m).cell r c = shade b) : (build p v ec cw test m).cell r c = shade b := by
  obtain ⟨-, hkept, -⟩ := build_spec p v ec cw test m
  exact (hkept r c (hcell ▸ Cell.ofBool_ne_unset b)).trans hcell

/-- Settles O40: no later step of a build writes a cell of the format or version word or the dark module. -/
theorem informationCellsCarryTheirWords : Obligations.InformationCellsCarryTheirWords := by
  unfold Obligations.InformationCellsCarryTheirWords
  intro p v ec m cw test h1 h40 hec hm
  have hdark : 4 * v + 17 - 8 = 4 * v + 9 := by omega
  refine ⟨hdark ▸ cell_build_of_shade cw (cell_functionPatterns_darkModule p ec m test), fun i hi => ?_,
    fun h7 i hi => ?_⟩
  · rw [← formatWord_eq hec hm]
    obtain ⟨hA, hB⟩ := carriesFormat_copies v i
    exact ⟨cell_build_of_shade cw (cell_functionPatterns_of_carriesFormat p ec m test hi hA),
      cell_build_of_shade cw (cell_functionPatterns_of_carriesFormat p ec m test hi hB)⟩
  · rw [← versionWord_eq h7 h40]
    exact ⟨cell_build_of_shade cw (cell_functionPatterns_of_carriesVersion p ec m test h7 hi (.inl rfl)),
      cell_build_of_shade cw (cell_functionPatterns_of_carriesVersion p ec m test h7 hi (.inr rfl))⟩

/-! ## The fixed patterns in a build (R202) -/

section
variable {v r c : Nat} (h1 : 1 ≤ v) (h40 : v ≤ 40)

theorem not_inInformation_of_inFinder (hin : InFinder v r c) : ¬ InInformation v r c := by omega

theorem not_inInformation_of_onTimingLine (hin : OnTimingLine v r c) : ¬ InInformation v r c := by omega

include h1 h40

theorem not_inInformation_of_inSquare {a b : Nat} (ha : a ∈ alignmentCentres v) (hb : b ∈ alignmentCentres v)
    (hin : InSquare v a b r c) : ¬ InInformation v r c := by
  have hzone := inSquare_zone h1 h40 ha hb hin
  omega

end

section
variable {v r c : Nat} (hr : r < 4 * v + 17) (hc : c < 4 * v + 17) (p : Params) (ec m : Nat) (cw : List Byte) (test : Bool)
include hr hc

/-- The fixed patterns are in every build, outside the information cells. -/
theorem cell_build_of_fixedPatterns {b : Bool} (hout : ¬ InInformation v r c)
    (hcell : (fixedPatterns v).cell r c = shade b) : (build p v ec cw test m).cell r c = shade b :=
  cell_build_of_shade cw ((cell_functionPatterns_of_not_inInformation p ec m test hr hc hout).trans hcell)

variable (h1 : 1 ≤ v) (h40 : v ≤ 40)
include h1 h40

theorem cell_build_of_inFinder {b : Bool} (hin : InFinder v r c) (hcell : (finders v).cell r c = shade b) :
    (build p v ec cw test m).cell r c = shade b :=
  cell_build_of_fixedPatterns hr hc p ec m cw test (not_inInformation_of_inFinder hin)
    ((cell_fixedPatterns_of_inFinder hr hc h1 h40 hin).trans hcell)

theorem cell_build_of_inSquare {a b : Nat} (ha : a ∈ alignmentCentres v) (hb : b ∈ alignmentCentres v)
    (hin : InSquare v a b r c) : (build p v ec cw test m).cell r c = alignmentRing (r + 2 - a) (c + 2 - b) :=
  cell_build_of_fixedPatterns hr hc p ec m cw test (not_inInformation_of_inSquare h1 h40 ha hb hin)
    (cell_fixedPatterns_of_inSquare hr hc h1 h40 ha hb hin)

theorem cell_build_of_onTimingLine (hin : OnTimingLine v r c) :
    (build p v ec cw test m).cell r c = shade ((if c = 6 then r else c) % 2 == 0) :=
  cell_build_of_fixedPatterns hr hc p ec m cw test (not_inInformation_of_onTimingLine hin)
    (cell_fixedPatterns_of_onTimingLine hr hc h1 h40 hin)

end

/-- Settles O41: a build keeps each step's cells, since the patterns and the information lie apart. -/
theorem fixedPatternsAreMaskInvariant : Obligations.FixedPatternsAreMaskInvariant := by
  unfold Obligations.FixedPatternsAreMaskInvariant
  intro p v ec m cw test h1 h40
  refine ⟨fun i j hi hj => ⟨?_, ?_, ?_⟩, fun a b i j hcentre hi hj => ?_, fun k hlo hhi => ⟨?_, ?_⟩⟩
  · obtain ⟨htop, -, -, -⟩ := cell_finders (v := v) (r := i) (c := j) h1 (by omega) (by omega)
    exact cell_build_of_inFinder (by omega) (by omega) p ec m cw test h1 h40 (by omega) (htop hi hj)
  · obtain ⟨-, hbottom, -, -⟩ := cell_finders (v := v) (r := 4 * v + 17 - 8 + i) (c := j) h1 (by omega) (by omega)
    have hoffset : ((4 * v + 17 - 8 + i : Nat) : Int) - (4 * v + 10 : Nat) = i - 1 := by omega
    rw [hoffset] at hbottom
    exact cell_build_of_inFinder (by omega) (by omega) p ec m cw test h1 h40 (by omega) (hbottom (by omega) hj)
  · obtain ⟨-, -, hright, -⟩ := cell_finders (v := v) (r := i) (c := 4 * v + 17 - 8 + j) h1 (by omega) (by omega)
    have hoffset : ((4 * v + 17 - 8 + j : Nat) : Int) - (4 * v + 10 : Nat) = j - 1 := by omega
    rw [hoffset] at hright
    exact cell_build_of_inFinder (by omega) (by omega) p ec m cw test h1 h40 (by omega) (hright hi (by omega))
  · obtain ⟨ha, hb, hcorners⟩ := hcentre
    have hra := centre_range h1 h40 ha
    have hrb := centre_range h1 h40 hb
    have hin : InSquare v a b (a + i - 2) (b + j - 2) := by
      refine ⟨by simpa [hasSquare, and_assoc] using hcorners, ?_, ?_⟩ <;> rw [near_iff] <;> omega
    rw [cell_build_of_inSquare (by omega) (by omega) p ec m cw test h1 h40 ha hb hin, show a + i - 2 + 2 - a = i by omega,
      show b + j - 2 + 2 - b = j by omega]
  · rw [cell_build_of_onTimingLine (by omega) (by omega) p ec m cw test h1 h40 (.inl ⟨rfl, hlo, by omega⟩), if_pos rfl]
  · rw [cell_build_of_onTimingLine (by omega) (by omega) p ec m cw test h1 h40 (.inr ⟨rfl, hlo, by omega⟩), if_neg (by omega)]

/-! ## The data region (R211) -/

section
variable {v r c : Nat} (h1 : 1 ≤ v) (hr : r < 4 * v + 17) (hc : c < 4 * v + 17)
include h1 hr hc

theorem isFixedCell_iff_patterns :
    isFixedCell v r c = true ↔ InFinder v r c ∨ OnTimingLine v r c ∨ InInformation v r c := by
  rw [isFixedCell_iff]
  constructor
  · rintro (⟨hr9, hc9 | hc9⟩ | ⟨hr9, hc9⟩ | rfl | rfl | hversion)
    · obtain h | h | h : (r < 8 ∧ c < 8) ∨ (r = 8 ∧ c = 6 ∨ r = 6 ∧ c = 8) ∨ (c = 8 ∧ r ≠ 6 ∨ r = 8 ∧ c ≠ 6) := by omega
      · exact .inl (.inl h)
      · exact .inr (.inl (by omega))
      · exact .inr (.inr (.inl (by omega)))
    · obtain h | h : r < 8 ∨ r = 8 := by omega
      · exact .inl (.inr (.inr ⟨h, hc9⟩))
      · exact .inr (.inr (.inl (.inr ⟨h, by omega⟩)))
    · obtain h | h | h : c < 8 ∨ (c = 8 ∧ r = 4 * v + 9) ∨ (c = 8 ∧ 4 * v + 10 ≤ r) := by omega
      · exact .inl (.inr (.inl ⟨hr9, h⟩))
      · exact .inr (.inr (.inr (.inl ⟨h.2, h.1⟩)))
      · exact .inr (.inr (.inl (.inl ⟨h.1, by omega⟩)))
    · obtain h | h : (c < 8 ∨ 4 * v + 9 ≤ c) ∨ (8 ≤ c ∧ c < 4 * v + 9) := by omega
      · exact .inl (by omega)
      · exact .inr (.inl (.inr ⟨rfl, h⟩))
    · obtain h | h : (r < 8 ∨ 4 * v + 9 ≤ r) ∨ (8 ≤ r ∧ r < 4 * v + 9) := by omega
      · exact .inl (by omega)
      · exact .inr (.inl (.inl ⟨rfl, h⟩))
    · obtain h | h : (r < 6 ∧ 4 * v + 9 ≤ c ∨ c < 6 ∧ 4 * v + 9 ≤ r) ∨
          (r < 6 ∧ 4 * v + 6 ≤ c ∧ c < 4 * v + 9 ∨ c < 6 ∧ 4 * v + 6 ≤ r ∧ r < 4 * v + 9) := by omega
      · exact .inl (by omega)
      · exact .inr (.inr (.inr (.inr ⟨hversion.1, h⟩)))
  · rintro (h | h | h | h | h) <;> omega

/-- The function patterns leave unset exactly the cells of the data region. -/
theorem cell_functionPatterns_eq_unset_iff (h40 : v ≤ 40) (p : Params) (ec m : Nat) (test : Bool) :
    (functionPatterns p v ec test m).cell r c = .unset ↔ isFunctionCell v r c = false := by
  rw [← Bool.not_eq_true, isFunctionCell_iff, isFixedCell_iff_patterns h1 hr hc]
  by_cases hinfo : InInformation v r c
  · exact iff_of_false (cell_functionPatterns_of_inInformation p ec m test hr hc hinfo) fun h => h (.inl (.inr (.inr hinfo)))
  · rw [cell_functionPatterns_of_not_inInformation p ec m test hr hc hinfo, cell_fixedPatterns_eq_unset_iff hr hc h1 h40]
    simp only [hinfo, or_false, not_or]
    exact ⟨fun ⟨hfinder, hsquare, htiming⟩ => ⟨⟨hfinder, htiming⟩, hsquare⟩,
      fun ⟨⟨hfinder, htiming⟩, hsquare⟩ => ⟨hfinder, hsquare, htiming⟩⟩

end

/-! ## The order of placement, as the model walks it (R212) -/

/-- The column at which the model's walk begins pair j. -/
def walkColumn (v j : Nat) : Nat := if j < 2 * v + 6 then 4 * v + 16 - 2 * j else 4 * v + 15 - 2 * j

theorem pairColumns_eq (v k fuel j : Nat) (hk : j + k = 2 * v + 8) (hfuel : k ≤ fuel) :
    pairColumns fuel (walkColumn v j) = (List.range' j k).map (rightColumn (4 * v + 17)) := by
  induction k generalizing fuel j with
  | zero =>
    have hend : walkColumn v j = 0 := by
      rw [walkColumn, if_neg (by omega)]
      omega
    cases fuel with
    | zero => rfl
    | succ fuel => exact if_pos hend
  | succ k ih =>
    obtain ⟨fuel, rfl⟩ : ∃ f, fuel = f + 1 := ⟨fuel - 1, by omega⟩
    have hpos : walkColumn v j ≠ 0 := by
      unfold walkColumn
      split <;> omega
    have hcol : (if walkColumn v j = 6 then 5 else walkColumn v j) = rightColumn (4 * v + 17) j := by
      unfold walkColumn rightColumn
      (repeat' split) <;> omega
    have hnext : rightColumn (4 * v + 17) j - 2 = walkColumn v (j + 1) := by
      unfold walkColumn rightColumn
      (repeat' split) <;> omega
    rw [List.range'_succ, List.map_cons, ← ih fuel (j + 1) (by omega) (by omega), ← hnext, ← hcol]
    exact if_neg hpos

/-- Row i of pair j: pairs run upward and downward in turn. -/
def walkRow (v j i : Nat) : Nat := if j % 2 = 0 then 4 * v + 17 - 1 - i else i

theorem pairCells_eq (v col j : Nat) :
    pairCells (4 * v + 17) col (j % 2 == 0) =
      (List.range (4 * v + 17)).flatMap fun i => [(walkRow v j i, col), (walkRow v j i, col - 1)] := by
  unfold pairCells walkRow
  by_cases hj : j % 2 = 0
  · have hreverse : (List.range (4 * v + 17)).reverse = (List.range (4 * v + 17)).map fun i => 4 * v + 17 - 1 - i := by
      rw [List.range_eq_range', List.reverse_range', ← List.range_eq_range']
      simp
    simp only [hj, beq_self_eq_true, if_true, hreverse, List.flatMap_map]
  · simp only [hj, beq_eq_false_iff_ne.2 hj, if_false, Bool.false_eq_true]

theorem snake_eq (v : Nat) (col : Nat → Nat) (k j : Nat) :
    snake (4 * v + 17) ((List.range' j k).map col) (j % 2 == 0) =
      (List.range' j k).flatMap fun j => pairCells (4 * v + 17) (col j) (j % 2 == 0) := by
  induction k generalizing j with
  | zero => rfl
  | succ k ih =>
    have hturn : (!(j % 2 == 0)) = ((j + 1) % 2 == 0) := by
      rw [Bool.eq_iff_iff, Bool.not_eq_true', beq_eq_false_iff_ne, beq_iff_eq]
      omega
    rw [List.range'_succ, List.map_cons, List.flatMap_cons, snake, hturn, ih]

theorem zigzag_eq (v : Nat) :
    zigzag (4 * v + 17) = (List.range (2 * v + 8)).flatMap fun j => (List.range (4 * v + 17)).flatMap fun i =>
      [(walkRow v j i, rightColumn (4 * v + 17) j), (walkRow v j i, rightColumn (4 * v + 17) j - 1)] := by
  have hcolumns := pairColumns_eq v (2 * v + 8) (4 * v + 17) 0 (by omega) (by omega)
  rw [show walkColumn v 0 = 4 * v + 17 - 1 from if_pos (by omega)] at hcolumns
  have hsnake := snake_eq v (rightColumn (4 * v + 17)) (2 * v + 8) 0
  rw [zigzag, hcolumns, List.range_eq_range' (n := 2 * v + 8)]
  simp only [← pairCells_eq]
  exact hsnake

theorem mem_zigzag_iff (v r c : Nat) :
    (r, c) ∈ zigzag (4 * v + 17) ↔ ∃ j < 2 * v + 8, ∃ i < 4 * v + 17,
      r = walkRow v j i ∧ (c = rightColumn (4 * v + 17) j ∨ c = rightColumn (4 * v + 17) j - 1) := by
  simp [zigzag_eq, and_or_left]

theorem dataCells_eq (v : Nat) : dataCells v = (zigzag (4 * v + 17)).filter fun q => !isFunctionCell v q.1 q.2 := by
  rw [zigzag_eq, dataCells, show (4 * v + 17 - 1) / 2 = 2 * v + 8 by omega]
  rfl

theorem walkRow_lt {v i : Nat} (hi : i < 4 * v + 17) (j : Nat) : walkRow v j i < 4 * v + 17 := by
  unfold walkRow
  split <;> omega

theorem walkRow_walkRow {v i : Nat} (hi : i < 4 * v + 17) (j : Nat) : walkRow v j (walkRow v j i) = i := by
  unfold walkRow
  split <;> omega

/-- Columns other than the timing column stand in one pair each. -/
theorem exists_pair_of_column {v c : Nat} (hc : c < 4 * v + 17) (h6 : c ≠ 6) :
    ∃ j < 2 * v + 8, c = rightColumn (4 * v + 17) j ∨ c = rightColumn (4 * v + 17) j - 1 := by
  obtain h | h := Nat.lt_or_gt_of_ne h6
  · refine ⟨(4 * v + 15 - c) / 2, by omega, ?_⟩
    rw [rightColumn, if_neg (by omega)]
    omega
  · refine ⟨(4 * v + 16 - c) / 2, by omega, ?_⟩
    rw [rightColumn, if_pos (by omega)]
    omega

theorem rightColumn_pos {v j : Nat} (hj : j < 2 * v + 8) : 1 ≤ rightColumn (4 * v + 17) j := by
  unfold rightColumn
  split <;> omega

theorem pair_of_column_unique {v c j k : Nat} (hj : j < 2 * v + 8) (hk : k < 2 * v + 8)
    (hcj : c = rightColumn (4 * v + 17) j ∨ c = rightColumn (4 * v + 17) j - 1)
    (hck : c = rightColumn (4 * v + 17) k ∨ c = rightColumn (4 * v + 17) k - 1) : j = k := by
  unfold rightColumn at hcj hck
  split at hcj <;> split at hck <;> omega

/-- The walk visits every cell outside the timing column. -/
theorem mem_zigzag_of_ne_six {v r c : Nat} (hr : r < 4 * v + 17) (hc : c < 4 * v + 17) (h6 : c ≠ 6) :
    (r, c) ∈ zigzag (4 * v + 17) := by
  obtain ⟨j, hj, hcol⟩ := exists_pair_of_column hc h6
  exact (mem_zigzag_iff v r c).2 ⟨j, hj, walkRow v j r, walkRow_lt hr j, (walkRow_walkRow hr j).symm, hcol⟩

/-- The walk visits no cell twice. -/
theorem zigzag_nodup (v : Nat) : (zigzag (4 * v + 17)).Nodup := by
  rw [zigzag_eq]
  refine nodup_flatMap_of_unique List.nodup_range (fun j hj => ?_) fun j hj k hk q hqj hqk => ?_
  · refine nodup_flatMap_of_unique List.nodup_range (fun i _ => ?_) fun i hi k hk q hqi hqk => ?_
    · have := rightColumn_pos (List.mem_range.1 hj)
      refine List.nodup_cons.2 ⟨fun h => ?_, List.pairwise_singleton _ _⟩
      rw [List.mem_singleton, Prod.mk.injEq] at h
      omega
    · simp only [List.mem_cons, List.not_mem_nil, or_false, Prod.ext_iff] at hqi hqk
      have hrow : walkRow v j i = walkRow v j k := (hqi.elim And.left And.left).symm.trans (hqk.elim And.left And.left)
      rw [← walkRow_walkRow (List.mem_range.1 hi) j, hrow, walkRow_walkRow (List.mem_range.1 hk) j]
  · obtain ⟨r, c⟩ := q
    simp only [List.mem_flatMap, List.mem_range, List.mem_cons, List.not_mem_nil, or_false, Prod.mk.injEq] at hj hk hqj hqk
    obtain ⟨i, -, hqj⟩ := hqj
    obtain ⟨i', -, hqk⟩ := hqk
    exact pair_of_column_unique hj hk (hqj.imp And.right And.right) (hqk.imp And.right And.right)

/-! ## No cell unset (R215) -/

/-- Settles O39: a cell of the timing column is a function cell, and the walk visits every other cell. -/
theorem buildLeavesNoCellUnset : Obligations.BuildLeavesNoCellUnset := by
  unfold Obligations.BuildLeavesNoCellUnset
  intro p v ec m cw test h1 h40 r c hr hc
  obtain ⟨-, hkept, hvisited⟩ := build_spec p v ec cw test m
  by_cases h6 : c = 6
  · have hset : (functionPatterns p v ec test m).cell r c ≠ .unset := by
      rw [ne_eq, cell_functionPatterns_eq_unset_iff h1 hr hc h40, Bool.not_eq_false, isFunctionCell_iff, isFixedCell_iff]
      exact .inl (by omega)
    rw [hkept r c hset]
    exact hset
  · exact hvisited (r, c) (mem_zigzag_of_ne_six hr hc h6)

/-! ## The bits in the data region (R212, R213) -/

/-- The cell that data placement writes: a bit, inverted where the mask says, or a remainder cell (R212). -/
def placedCell (p : Params) (m : Nat) (bit : Option Bool) (r c : Nat) : Cell :=
  match bit with
  | some d => shade (d ^^ maskbit m r c)
  | none => shade (p.maskRemainderBits && maskbit m r c)

theorem placeBits_of_unset {p : Params} {m r c : Nat} {w : Matrix} (hu : w.cell r c = .unset) (cells : List (Nat × Nat))
    (bits : List Bool) :
    placeBits p m ((r, c) :: cells) bits w =
      placeBits p m cells bits.tail (w.put r c (placedCell p m bits.head? r c)) := by
  cases bits <;> exact if_pos hu

theorem placeBits_of_set {p : Params} {m r c : Nat} {w : Matrix} (hset : w.cell r c ≠ .unset) (cells : List (Nat × Nat))
    (bits : List Bool) : placeBits p m ((r, c) :: cells) bits w = placeBits p m cells bits w := if_neg hset

theorem placedCell_ne_unset (p : Params) (m : Nat) (bit : Option Bool) (r c : Nat) : placedCell p m bit r c ≠ .unset := by
  cases bit <;> exact Cell.ofBool_ne_unset _

/-- Whether a cell is still unset. -/
def isUnset (w : Matrix) (q : Nat × Nat) : Bool := w.cell q.1 q.2 == .unset

/-- Of the cells of a walk that were unset, the k-th gets bit k. -/
theorem cell_placeBits (p : Params) (m : Nat) {n : Nat} (cells : List (Nat × Nat)) (hnodup : cells.Nodup)
    (hin : ∀ q ∈ cells, q.1 < n ∧ q.2 < n) (bits : List Bool) {w : Matrix} (hw : w.Square n) {k r c : Nat}
    (hk : (cells.filter (isUnset w))[k]? = some (r, c)) :
    (placeBits p m cells bits w).cell r c = placedCell p m bits[k]? r c := by
  induction cells generalizing bits w k with
  | nil => cases hk
  | cons q cells ih =>
    obtain ⟨i, j⟩ := q
    obtain ⟨hfresh, hnodup⟩ := List.nodup_cons.1 hnodup
    obtain ⟨⟨hi, hj⟩, hin⟩ := List.forall_mem_cons.1 hin
    by_cases hu : w.cell i j = .unset
    · have hw' := Matrix.square_put hw i j (placedCell p m bits.head? i j)
      have hothers : cells.filter (isUnset (w.put i j (placedCell p m bits.head? i j))) = cells.filter (isUnset w) := by
        refine List.filter_congr fun q hq => ?_
        have hne : (q.1, q.2) ≠ (i, j) := fun h => hfresh (h ▸ hq)
        rw [isUnset, isUnset, cell_put_of_ne hw _ hne]
      have hhead : isUnset w (i, j) = true := beq_iff_eq.2 hu
      rw [List.filter_cons_of_pos hhead] at hk
      rw [placeBits_of_unset hu]
      cases k with
      | zero =>
        obtain ⟨rfl, rfl⟩ := Prod.mk.inj (Option.some.inj hk)
        have hself := cell_put_self hw (placedCell p m bits.head? i j) hi hj
        obtain ⟨-, hkept, -⟩ := placeBits_spec p m cells bits.tail _ hw' hin
        have hset := placedCell_ne_unset p m bits.head? i j
        rw [hkept i j (by rwa [hself]), hself, List.head?_eq_getElem?]
      | succ k =>
        rw [List.getElem?_cons_succ, ← hothers] at hk
        rw [ih hnodup hin bits.tail hw' hk, List.getElem?_tail]
    · have hhead : ¬ isUnset w (i, j) = true := fun h => hu (beq_iff_eq.1 h)
      rw [List.filter_cons_of_neg hhead] at hk
      rw [placeBits_of_set hu]
      exact ih hnodup hin bits hw hk

theorem getElem?_byteBits (b : Byte) {k : Nat} (hk : k < 8) : (byteBits b)[k]? = some (b.getLsbD (7 - k)) := by
  rw [List.getElem?_eq_getElem ((length_byteBits b).symm ▸ hk)]
  exact congrArg some (getElem_fieldBits b.toNat 8 k _)

/-- Bit k of a codeword stream is bit 7 - k % 8 of codeword k / 8. -/
theorem getElem?_flatMap_byteBits {cw : List Byte} {k : Nat} (hk : k < 8 * cw.length) :
    (cw.flatMap byteBits)[k]? = some ((cw.getD (k / 8) 0).getLsbD (7 - k % 8)) := by
  induction cw generalizing k with
  | nil => exact absurd hk (Nat.not_lt_zero k)
  | cons b cw ih =>
    rw [List.flatMap_cons]
    by_cases h8 : k < 8
    · rw [List.getElem?_append_left ((length_byteBits b).symm ▸ h8), getElem?_byteBits b h8, Nat.div_eq_of_lt h8,
        Nat.mod_eq_of_lt h8]
      rfl
    · obtain ⟨k, rfl⟩ := Nat.exists_eq_add_of_le' (Nat.not_lt.1 h8)
      rw [List.length_cons] at hk
      rw [List.getElem?_append_right (by rw [length_byteBits]; omega), length_byteBits, Nat.add_sub_cancel, ih (by omega),
        Nat.add_mod_right, Nat.add_div_right k (by decide)]
      rfl

theorem maskInverts_iff (m i j : Nat) : MaskInverts m i j ↔ maskbit m i j = true := by
  unfold MaskInverts maskbit
  split <;> simp

theorem dataCells_eq_filter_isUnset {v : Nat} (h1 : 1 ≤ v) (h40 : v ≤ 40) (p : Params) (ec m : Nat) (test : Bool) :
    dataCells v = (zigzag (4 * v + 17)).filter (isUnset (functionPatterns p v ec test m)) := by
  rw [dataCells_eq]
  refine List.filter_congr fun q hq => ?_
  obtain ⟨hr, hc⟩ := zigzag_inside (by omega) q hq
  rw [Bool.eq_iff_iff, Bool.not_eq_true', isUnset, beq_iff_eq, cell_functionPatterns_eq_unset_iff h1 hr hc h40]

theorem cell_build_of_dataCells {v : Nat} (h1 : 1 ≤ v) (h40 : v ≤ 40) (p : Params) (ec m : Nat) (cw : List Byte) (test : Bool)
    {k r c : Nat} (hk : (dataCells v)[k]? = some (r, c)) :
    (build p v ec cw test m).cell r c = placedCell p m (cw.flatMap byteBits)[k]? r c := by
  rw [dataCells_eq_filter_isUnset h1 h40 p ec m test] at hk
  exact cell_placeBits p m (zigzag (4 * v + 17)) (zigzag_nodup v) (zigzag_inside (by omega)) (cw.flatMap byteBits)
    (square_functionPatterns p v ec test m) hk

/-- Settles O42: the k-th cell of the data region is the k-th that the walk finds unset, and gets bit k. -/
theorem dataCellsCarryTheMaskedCodewords : Obligations.DataCellsCarryTheMaskedCodewords := by
  unfold Obligations.DataCellsCarryTheMaskedCodewords
  intro p v ec m cw test k r c h1 h40 _ hk
  have hcell := cell_build_of_dataCells h1 h40 p ec m cw test hk
  rw [maskInverts_iff, Bool.not_eq_true]
  refine ⟨fun hdata => ?_, fun hrest => ?_⟩
  · rw [getElem?_flatMap_byteBits hdata, placedCell] at hcell
    refine ⟨fun hmask => ?_, fun hmask => ?_⟩
    · rw [hcell, hmask, Bool.xor_true]
    · rw [hcell, hmask, Bool.xor_false]
  · rw [List.getElem?_eq_none (by rw [length_flatMap_byteBits]; exact hrest), placedCell] at hcell
    refine ⟨fun hmask => ?_, fun hmask => ?_⟩
    · rw [hcell, hmask, Bool.and_true]
    · rw [hcell, hmask, Bool.and_false]
      rfl

/-! ## MATRIX_BUILD (R214) -/

/-- The stored codes of a matrix of n rows: a cell inside it, and what stands outside it. -/
theorem getD_map_code {n : Nat} {w : Matrix} (hw : w.Square n) (r c : Nat) (x : Code) :
    ((w.map (·.map Cell.code)).getD r []).getD c x = if r < n ∧ c < n then (w.cell r c).code else x := by
  have hlen : w.length = n := hw.1
  by_cases hr : r < n
  · have hrow := Matrix.length_row hw hr
    have hin : r < w.length := hlen.symm ▸ hr
    rw [List.getD_eq_getElem?_getD, List.getElem?_eq_getElem hin, Option.getD_some] at hrow
    by_cases hc : c < n
    · simp [Matrix.cell, hin, hrow, hr, hc]
    · simp [hin, hrow, hc]
  · simp [hlen, hr]

/-- WORK after a store of an n × n matrix at its corner (R45, R214). -/
theorem read_writeRows_code {n : Nat} {w : Matrix} (hw : w.Square n) (hn : n ≤ 177) (s : State) {r c : Nat} (hr : r < 177)
    (hc : c < 177) :
    (s.mems.work.writeRows 0 (w.map (·.map Cell.code))).read Config.freeCode (cellIndex r c) =
      if r < n ∧ c < n then (w.cell r c).code else s.workAt r c := by
  have hrows : ∀ row ∈ w.map (·.map Cell.code), row.length ≤ Config.maxN := by
    intro row hrow
    obtain ⟨cells, hcells, rfl⟩ := List.mem_map.1 hrow
    rw [List.length_map, hw.2 cells hcells]
    exact hn
  rw [Mem.read_writeRows Config.freeCode _ s.mems.work 0 r c hrows hr hc, if_pos (Nat.zero_le r), Nat.sub_zero,
    getD_map_code hw]
  rfl

theorem buildMatrix_eq_built (s : State) (test : Bool) (mask : BitVec 3) :
    s.buildMatrix test mask = built s test mask.toNat := by
  rw [State.buildMatrix, cwOperand_eq]
  rfl

theorem square_built (s : State) (test : Bool) (m : Nat) : (built s test m).Square (size s) := (build_spec _ _ _ _ _ _).1

/-- Settles O43: the rows stored are the build's, which is n × n with n at most 177. -/
theorem matrixBuildFillsWork : Obligations.MatrixBuildFillsWork := by
  unfold Obligations.MatrixBuildFillsWork
  intro mask test s
  refine ⟨fun hcw => exec_failed (.matrixBuild mask test) nofun (matrixBuild_raise s mask test hcw), fun hcw _ h40 =>
    ⟨_, exec_completed (.matrixBuild mask test) nofun (matrixBuild_ok s mask test hcw), rfl, fun r c hr hc => ?_⟩⟩
  have hsize : size s ≤ 177 := by
    rw [size]
    omega
  rw [buildMatrix_eq_built]
  exact read_writeRows_code (square_built s test mask.toNat) hsize s hr hc

end Sys2Proof.Proofs

/-! PROOFS. The family of spec/45_mask_penalty.md: the penalty rules (O46) and their bounds (O45), PENALTY (O44), selection
(O47) and MASK_SEARCH (O48). -/

namespace Sys2Proof.Proofs

open Sys2Proof.Machine Sys2Proof.Claims

/-! ## Sums over lists and lines -/

theorem total_succ_front (n : Nat) (f : Nat → Nat) : total (n + 1) f = f 0 + total n fun i => f (i + 1) := by
  rw [Nat.add_comm n 1, total_append]
  exact congrArg (f 0 + ·) (total_congr fun i _ => congrArg f (Nat.add_comm 1 i))

theorem lineCount_succ_front (n : Nat) (p : Nat → Bool) :
    lineCount (n + 1) p = (p 0).toNat + lineCount n fun i => p (i + 1) := total_succ_front n _

/-- A sum with one term that is not 0. -/
theorem total_eq_of_unique {n a : Nat} {f : Nat → Nat} (ha : a < n) (h : ∀ i, i ≠ a → f i = 0) : total n f = f a := by
  obtain ⟨m, rfl⟩ : ∃ m, n = a + 1 + m := ⟨n - (a + 1), by omega⟩
  rw [total_add_const fun i hi _ => h i (by omega), total_succ, total_congr fun i hi => h i (by omega), total_const]
  omega

theorem sum_map_le {α : Type} {l : List α} {f : α → Nat} {k : Nat} (h : ∀ x ∈ l, f x ≤ k) :
    (l.map f).sum ≤ l.length * k := by
  induction l with
  | nil => exact Nat.zero_le _
  | cons x l ih =>
    obtain ⟨hx, hl⟩ := List.forall_mem_cons.1 h
    rw [List.map_cons, List.sum_cons, List.length_cons, Nat.succ_mul, Nat.add_comm]
    exact Nat.add_le_add (ih hl) hx

theorem total_le {n k : Nat} {f : Nat → Nat} (h : ∀ i, i < n → f i ≤ k) : total n f ≤ n * k := by
  have hsum := sum_map_le fun i hi => h i (List.mem_range.1 hi)
  rwa [List.length_range] at hsum

theorem lineCount_le (n : Nat) (p : Nat → Bool) : lineCount n p ≤ n := by
  have hsum : total n (fun i => (p i).toNat) ≤ n * 1 := total_le fun i _ => Bool.toNat_le (p i)
  rwa [Nat.mul_one] at hsum

theorem length_filter_range (n : Nat) (p : Nat → Bool) : ((List.range n).filter p).length = lineCount n p := by
  induction n with
  | zero => rfl
  | succ n ih =>
    have hlast : ([n].filter p).length = (p n).toNat := by cases hp : p n <;> simp [hp]
    rw [List.range_succ, List.filter_append, List.length_append, ih, lineCount_succ, hlast]

/-- A list through its entries. -/
theorem map_eq_map_range_getD {α β : Type} (f : α → β) (l : List α) (d : α) :
    l.map f = (List.range l.length).map fun i => f (l.getD i d) := by
  apply List.ext_getElem
  · simp
  · intro i hi _
    rw [List.length_map] at hi
    simp [hi]

theorem sum_map_eq_total {α : Type} (f : α → Nat) (l : List α) (d : α) :
    (l.map f).sum = total l.length fun i => f (l.getD i d) := congrArg List.sum (map_eq_map_range_getD f l d)

/-! ## The lines of a matrix (R240) -/

/-- The first n cells of a line. -/
def lineCells (n : Nat) (line : Nat → Bool) : List Bool := (List.range n).map line

theorem lineCells_getD {n : Nat} {row : List Bool} (hlen : row.length = n) :
    lineCells n (fun c => row.getD c false) = row := by
  have hrow := map_eq_map_range_getD id row false
  rw [List.map_id, hlen] at hrow
  exact hrow.symm

theorem count_lineCells (n : Nat) (line : Nat → Bool) : (lineCells n line).count true = lineCount n line := by
  rw [← length_filter_range, ← List.countP_eq_length_filter, lineCells, List.count, List.countP_map]
  exact List.countP_congr fun c _ => by simp

theorem length_getD_row {n : Nat} {m : List (List Bool)} (hm : m.length = n) (hrow : ∀ row ∈ m, row.length = n) {r : Nat}
    (hr : r < n) : (m.getD r []).length = n := by
  rw [← List.getElem_eq_getD (h := hm.symm ▸ hr)]
  exact hrow _ (List.getElem_mem _)

/-- The lines that the model scores are those of the rules. -/
theorem linesOf_eq {n : Nat} {m : List (List Bool)} (hm : m.length = n) (hrow : ∀ row ∈ m, row.length = n) :
    linesOf n m = (lines n m).map (lineCells n) := by
  have hrows : m = (List.range n).map fun r => lineCells n fun c => (m.getD r []).getD c false := by
    have hself := map_eq_map_range_getD id m []
    rw [List.map_id, hm] at hself
    exact hself.trans (List.map_congr_left fun r hr => (lineCells_getD (length_getD_row hm hrow (List.mem_range.1 hr))).symm)
  have hcolumns : columnsOf n m = (List.range n).map fun c => lineCells n fun r => (m.getD r []).getD c false :=
    List.map_congr_left fun c _ => by rw [lineCells, ← hm, map_eq_map_range_getD (fun row => row.getD c false) m []]
  rw [linesOf, hcolumns, lines, List.map_append, List.map_map, List.map_map]
  exact congrArg (· ++ _) hrows

/-! ## N1: maximal runs (R241) -/

theorem isRun_iff (n : Nat) (line : Nat → Bool) (k len : Nat) :
    isRun n line k len = true ↔ 1 ≤ len ∧ k + len ≤ n ∧ (∀ j, j < len → line (k + j) = line k) ∧
      (k = 0 ∨ line (k - 1) ≠ line k) ∧ (k + len = n ∨ line (k + len) ≠ line k) := by
  simp [isRun, and_assoc]

/-- Of two maximal runs that begin at one cell, neither is the shorter. -/
theorem length_le_of_isRun {n k a b : Nat} {line : Nat → Bool} (ha : isRun n line k a = true)
    (hb : isRun n line k b = true) : a ≤ b := by
  obtain ⟨-, hin, hequal, -, -⟩ := (isRun_iff n line k a).1 ha
  obtain ⟨-, -, -, -, hend⟩ := (isRun_iff n line k b).1 hb
  refine Nat.not_lt.1 fun hlt => ?_
  obtain hend | hend := hend
  · omega
  · exact hend (hequal b (by omega))

/-- What the maximal run that begins at cell k adds, if one does. -/
def addedAt (n : Nat) (line : Nat → Bool) (add : Nat → Nat) (k : Nat) : Nat :=
  total (n + 1) fun len => if isRun n line k len = true then add len else 0

section
variable {n a len : Nat} {line : Nat → Bool} (add : Nat → Nat) (hrun : isRun n line a len = true)
include hrun

theorem addedAt_start : addedAt n line add a = add len := by
  have hlen : len < n + 1 := by
    obtain ⟨-, hin, -⟩ := (isRun_iff n line a len).1 hrun
    omega
  rw [addedAt, total_eq_of_unique hlen, if_pos hrun]
  intro k hne
  exact if_neg fun hk => hne (Nat.le_antisymm (length_le_of_isRun hk hrun) (length_le_of_isRun hrun hk))

theorem addedAt_inside {k : Nat} (hlo : a < k) (hhi : k < a + len) : addedAt n line add k = 0 := by
  obtain ⟨-, -, hequal, -, -⟩ := (isRun_iff n line a len).1 hrun
  have hbefore := hequal (k - 1 - a) (by omega)
  have hself := hequal (k - a) (by omega)
  rw [show a + (k - 1 - a) = k - 1 by omega] at hbefore
  rw [show a + (k - a) = k by omega] at hself
  have hnone : ∀ j, ¬ isRun n line k j = true := fun j hj => by
    obtain ⟨-, -, -, hstart, -⟩ := (isRun_iff n line k j).1 hj
    exact hstart.elim (by omega) fun hne => hne (hbefore.trans hself.symm)
  rw [addedAt, total_congr fun j _ => if_neg (hnone j), total_const, Nat.mul_zero]

/-- A maximal run adds once. -/
theorem total_addedAt_add : total (a + len) (addedAt n line add) = total a (addedAt n line add) + add len := by
  obtain ⟨hpos, -⟩ := (isRun_iff n line a len).1 hrun
  obtain ⟨m, rfl⟩ : ∃ m, len = 1 + m := ⟨len - 1, by omega⟩
  rw [← Nat.add_assoc, total_add_const fun k hlo hhi => addedAt_inside add hrun (by omega) (by omega), total_succ,
    addedAt_start add hrun, Nat.mul_zero, Nat.add_zero]

end

/-- The runs of a line from cell a on, where `len` cells of the run at a are known. -/
theorem total_addedAt_eq {n : Nat} {line : Nat → Bool} (add : Nat → Nat) (k : Nat) {a len : Nat} (hn : a + len + k = n)
    (hpos : 1 ≤ len) (hequal : ∀ j, j < len → line (a + j) = line a) (hstart : a = 0 ∨ line (a - 1) ≠ line a) :
    total n (addedAt n line add) = total a (addedAt n line add) +
      ((runsFrom (line a) len ((List.range' (a + len) k).map line)).map add).sum := by
  induction k generalizing a len with
  | zero =>
    have hrun : isRun n line a len = true := (isRun_iff n line a len).2 ⟨hpos, by omega, hequal, hstart, .inl hn⟩
    rw [← hn] at hrun ⊢
    exact total_addedAt_add add hrun
  | succ k ih =>
    rw [List.range'_succ, List.map_cons, runsFrom]
    split
    · next hsame =>
      rw [Nat.add_assoc a len 1]
      refine ih (by omega) (by omega) (fun j hj => ?_) hstart
      obtain hj | rfl := Nat.lt_succ_iff_lt_or_eq.1 hj
      · exact hequal j hj
      · exact hsame
    · next hother =>
      have hrun : isRun n line a len = true := (isRun_iff n line a len).2 ⟨hpos, by omega, hequal, hstart, .inr hother⟩
      have hlast : line (a + len - 1) ≠ line (a + len) := by
        rw [show a + len - 1 = a + (len - 1) by omega, hequal (len - 1) (by omega)]
        exact fun h => hother h.symm
      rw [ih (a := a + len) (len := 1) (by omega) (Nat.le_refl 1) (fun j hj => by rw [Nat.lt_one_iff.1 hj, Nat.add_zero])
        (.inr hlast), total_addedAt_add add hrun, List.map_cons, List.sum_cons, Nat.add_assoc]

/-- The runs of a line are its maximal runs. -/
theorem sum_runLengths (n : Nat) (line : Nat → Bool) (add : Nat → Nat) :
    ((runLengths (lineCells n line)).map add).sum = total n (addedAt n line add) := by
  cases n with
  | zero => rfl
  | succ n =>
    have hruns := total_addedAt_eq (n := n + 1) (line := line) add n (a := 0) (len := 1) (by omega) (Nat.le_refl 1)
      (fun j hj => by rw [Nat.lt_one_iff.1 hj]) (.inl rfl)
    rw [total_zero, Nat.zero_add] at hruns
    rw [lineCells, List.range_eq_range', List.range'_succ, List.map_cons, runLengths, hruns]

/-! ## N2: blocks (R242) -/

/-- Whether the 2 × 2 block at row r, column c is of one colour. -/
def isBlock (m : List (List Bool)) (r c : Nat) : Bool :=
  decide ((m.getD r []).getD c false = (m.getD (r + 1) []).getD c false) &&
    decide ((m.getD r []).getD c false = (m.getD r []).getD (c + 1) false) &&
    decide ((m.getD r []).getD c false = (m.getD (r + 1) []).getD (c + 1) false)

theorem blocksInRows_eq : ∀ {upper lower : List Bool}, lower.length = upper.length →
    blocksInRows upper lower = lineCount (upper.length - 1) (isBlock [upper, lower] 0)
  | [], _, _ => rfl
  | [_], [_], _ => rfl
  | a :: b :: upper, x :: y :: lower, hlen => by
    have hfirst : (if a == x && a == b && a == y then 1 else 0) = (isBlock [a :: b :: upper, x :: y :: lower] 0 0).toNat :=
      (Bool.cond_eq_ite _ _ _).symm
    rw [blocksInRows, hfirst, blocksInRows_eq (Nat.succ.inj hlen)]
    exact (lineCount_succ_front upper.length (isBlock [a :: b :: upper, x :: y :: lower] 0)).symm

theorem blockCount_eq {n : Nat} : ∀ {m : List (List Bool)}, (∀ row ∈ m, row.length = n) →
    blockCount m = total (m.length - 1) fun r => lineCount (n - 1) (isBlock m r)
  | [], _ => rfl
  | [_], _ => rfl
  | upper :: lower :: m, hrow => by
    obtain ⟨hupper, hrest⟩ := List.forall_mem_cons.1 hrow
    have hlower : lower.length = upper.length := (hrest lower List.mem_cons_self).trans hupper.symm
    rw [blockCount, blocksInRows_eq hlower, hupper, blockCount_eq hrest]
    exact (total_succ_front m.length fun r => lineCount (n - 1) (isBlock (upper :: lower :: m) r)).symm

/-! ## N3: finder-like patterns (R243) -/

theorem lightAt_lineCells (p : Params) (n : Nat) (line : Nat → Bool) (i : Int) :
    lightAt p.finderEdgeLight (lineCells n line) i = isLight p n line i := by
  rw [lightAt, isLight, lineCells, List.length_map, List.length_range]
  split
  · next h =>
    have hi : i.toNat < n := by omega
    simp [hi]
  · rfl

theorem coreAt_lineCells {n k : Nat} (hk : k + 6 < n) (line : Nat → Bool) :
    coreAt (lineCells n line) k = (line k && !line (k + 1) && line (k + 2) && line (k + 3) && line (k + 4) &&
      !line (k + 5) && line (k + 6)) := by
  have hcells : ((lineCells n line).drop k).take 7 = (List.range' k 7).map line := by
    apply List.ext_getElem
    · simp [lineCells]
      omega
    · intro i _ _
      simp [lineCells]
  rw [coreAt, hcells]
  simp [List.range'_succ, Bool.and_assoc]

theorem finderLikeAt_lineCells (p : Params) {n k : Nat} (hk : k + 6 < n) (line : Nat → Bool) :
    finderLikeAt p.finderEdgeLight (lineCells n line) k = isFinderLike p n line k := by
  rw [finderLikeAt, coreAt_lineCells hk]
  simp [lightAt_lineCells, isFinderLike, Int.sub_eq_add_neg, Bool.and_assoc]

/-! ## N4: balance (R244) -/

/-- The number of dark cells of an n × n matrix. -/
def darkCells (n : Nat) (m : List (List Bool)) : Nat := total n fun r => lineCount n fun c => (m.getD r []).getD c false

theorem sum_count_true {n : Nat} {m : List (List Bool)} (hm : m.length = n) (hrow : ∀ row ∈ m, row.length = n) :
    (m.map fun row => row.count true).sum = darkCells n m := by
  rw [sum_map_eq_total _ m [], hm]
  refine total_congr fun r hr => ?_
  rw [← count_lineCells, lineCells_getD (length_getD_row hm hrow hr)]

theorem balancePenalty_eq (d n : Nat) :
    balancePenalty d n =
      10 * min (((20 * d / (n * n) : Nat) : Int) - 10).natAbs (((20 * d / (n * n) : Nat) : Int) - 9).natAbs := by
  have hdistance (k a : Nat) : distance k a = ((k : Int) - a).natAbs := by
    rw [distance]
    omega
  rw [balancePenalty, hdistance, hdistance]
  rfl

/-! ## The four components (R241..R245) -/

section
variable {n : Nat} {m : List (List Bool)} (hm : m.length = n) (hrow : ∀ row ∈ m, row.length = n) (p : Params)
include hm hrow

theorem n1_score : (score p n m).n1 = ((lines n m).map fun l => total n (addedAt n l (runPenalty p.runExcessBase))).sum := by
  rw [score, penaltyN1, linesOf_eq hm hrow, List.map_map]
  exact congrArg List.sum (List.map_congr_left fun l _ => sum_runLengths n l _)

theorem n2_score : (score p n m).n2 = 3 * total (n - 1) fun r => lineCount (n - 1) (isBlock m r) := by
  rw [score, penaltyN2, blockCount_eq hrow, hm]

theorem n3_score : (score p n m).n3 = 40 * ((lines n m).map fun l => lineCount (n - 6) (isFinderLike p n l)).sum := by
  rw [score, penaltyN3, linesOf_eq hm hrow, List.map_map]
  refine congrArg (40 * List.sum ·) (List.map_congr_left fun l _ => ?_)
  rw [Function.comp_apply, length_filter_range]
  exact total_congr fun k hk => congrArg Bool.toNat (finderLikeAt_lineCells p (by omega) l)

theorem n4_score : (score p n m).n4 = balancePenalty (darkCells n m) n := by
  rw [score, penaltyN4, sum_count_true hm hrow]

end

/-- What a run adds, its length tested together with its being one (R241). -/
theorem total_addedAt_runPenalty (n base : Nat) (line : Nat → Bool) :
    total n (addedAt n line (runPenalty base)) = total n fun k =>
      total (n + 1) fun len => if isRun n line k len = true ∧ 5 ≤ len then 3 + (len - base) else 0 := by
  refine total_congr fun k _ => total_congr fun len _ => ?_
  by_cases hrun : isRun n line k len = true
  · rw [if_pos hrun, runPenalty]
    simp only [hrun, true_and]
  · rw [if_neg hrun, if_neg fun h => hrun h.1]

/-- Settles O46: the four components, each counted along its lines or rows. -/
theorem penaltyRulesCountTheirPatterns : Obligations.PenaltyRulesCountTheirPatterns := by
  unfold Obligations.PenaltyRulesCountTheirPatterns
  intro p n m hm hrow
  refine ⟨?_, ?_, ?_, ?_⟩
  · simp only [n1_score hm hrow, total_addedAt_runPenalty]
    rfl
  · simp only [n2_score hm hrow, length_filter_range]
    rfl
  · simp only [n3_score hm hrow, length_filter_range]
  · simp only [n4_score hm hrow, balancePenalty_eq, length_filter_range]
    rfl

/-! ## The bounds (R245) -/

/-- The runs from a run of `len` known cells on add at most two less than their cells. -/
theorem sum_runsFrom_le (x : Bool) (len : Nat) (cells : List Bool) :
    ((runsFrom x len cells).map (runPenalty 5)).sum ≤ len + cells.length - 2 := by
  have hone (k : Nat) : runPenalty 5 k ≤ k - 2 := by
    rw [runPenalty]
    split <;> omega
  induction cells generalizing x len with
  | nil => simpa [runsFrom] using hone len
  | cons y cells ih =>
    rw [runsFrom, List.length_cons]
    split
    · have := ih x (len + 1)
      omega
    · have hrest := ih y 1
      have hfirst := hone len
      rw [List.map_cons, List.sum_cons]
      omega

theorem length_lines (n : Nat) (m : List (List Bool)) : (lines n m).length = 2 * n := by
  simp [lines, Nat.two_mul]

/-- A bound for each line, over all lines. -/
theorem sum_lines_le {n k : Nat} (m : List (List Bool)) {f : (Nat → Bool) → Nat} (h : ∀ l, f l ≤ k) :
    ((lines n m).map f).sum ≤ 2 * n * k := by
  have hsum := sum_map_le (l := lines n m) fun l _ => h l
  rwa [length_lines] at hsum

theorem total_addedAt_le (n : Nat) (line : Nat → Bool) : total n (addedAt n line (runPenalty 5)) ≤ n - 2 := by
  rw [← sum_runLengths, lineCells]
  cases n with
  | zero => exact Nat.le_refl 0
  | succ n =>
    rw [List.range_succ_eq_map, List.map_cons, runLengths]
    refine Nat.le_trans (sum_runsFrom_le (line 0) 1 _) ?_
    rw [List.length_map, List.length_map, List.length_range]
    omega

theorem darkCells_le (n : Nat) (m : List (List Bool)) : darkCells n m ≤ n * n :=
  total_le fun _ _ => lineCount_le n _

theorem balancePenalty_le {d n : Nat} (hd : d ≤ n * n) : balancePenalty d n ≤ 100 := by
  have hk : 20 * d / (n * n) ≤ 20 := Nat.div_le_of_le_mul (by omega)
  simp only [balancePenalty, distance]
  generalize 20 * d / (n * n) = k at hk ⊢
  omega

/-- Settles O45: the bounds of a line, a row and the balance, over the counts of O46. -/
theorem penaltyComponentsAreBounded : Obligations.PenaltyComponentsAreBounded := by
  unfold Obligations.PenaltyComponentsAreBounded
  intro n m _ hm hrow
  refine ⟨?_, ?_, ?_, ?_⟩
  · rw [n1_score hm hrow]
    exact sum_lines_le m (total_addedAt_le n)
  · rw [n2_score hm hrow]
    exact Nat.mul_le_mul_left 3 (total_le fun _ _ => lineCount_le (n - 1) _)
  · rw [n3_score hm hrow]
    exact Nat.mul_le_mul_left 40 (sum_lines_le m fun _ => lineCount_le (n - 6) _)
  · rw [n4_score hm hrow]
    exact balancePenalty_le (darkCells_le n m)

/-! ## PENALTY (R246) -/

theorem isModuleCount_iff (n : Nat) : isModuleCount n = true ↔ ∃ v, 1 ≤ v ∧ v ≤ 40 ∧ n = 4 * v + 17 := by
  constructor
  · intro h
    simp only [isModuleCount, List.any_eq_true, List.mem_range, beq_iff_eq, moduleCountOf] at h
    obtain ⟨k, hk, rfl⟩ := h
    exact ⟨k + 1, by omega, by omega, rfl⟩
  · rintro ⟨v, h1, h40, rfl⟩
    exact isModuleCount_of h1 h40

theorem ofCode_beq_dark : ∀ x : Code, (Cell.ofCode x == .dark) = (x == 0b10) := by decide

theorem ofCode_beq_unset : ∀ x : Code, (Cell.ofCode x == .unset) = true ↔ x ≠ 0b01 ∧ x ≠ 0b10 := by decide

/-- The n × n cells that PENALTY reads from WORK (R246). -/
def workCells (s : State) (n : Nat) : Matrix := (s.workOperand n).map (·.map Cell.ofCode)

theorem darkRows_workCells (s : State) (n : Nat) : (workCells s n).darkRows = workMatrix s n := by
  simp [workCells, Matrix.darkRows, workMatrix, workOperand_eq, ofCode_beq_dark, Function.comp_def]

theorem any_unset_workCells_iff (s : State) (n : Nat) :
    (workCells s n).any (·.any (· == .unset)) = true ↔
      ∃ r c, r < n ∧ c < n ∧ s.workAt r c ≠ 0b01 ∧ s.workAt r c ≠ 0b10 := by
  simp only [workCells, workOperand_eq, List.any_map, List.any_eq_true, List.mem_range, Function.comp_def, ofCode_beq_unset]
  exact ⟨fun ⟨r, hr, c, hc, h⟩ => ⟨r, c, hr, hc, h⟩, fun ⟨r, c, hr, hc, h⟩ => ⟨r, hr, c, hc, h⟩⟩

theorem penaltyCmd_of_empty {s : State} (h : s.regs.workSize.toNat = 0) : penaltyCmd s = .raise .sequence s := if_pos h

section
variable {s : State} (hzero : s.regs.workSize.toNat ≠ 0)

include hzero

theorem penaltyCmd_of_badSize (hsize : isModuleCount s.regs.workSize.toNat = false) :
    penaltyCmd s = .raise .badOperand s := by
  rw [penaltyCmd, if_neg hzero, hsize]
  rfl

variable (hsize : isModuleCount s.regs.workSize.toNat = true)
include hsize

theorem penaltyCmd_of_unset (hunset : (workCells s s.regs.workSize.toNat).any (·.any (· == .unset)) = true) :
    penaltyCmd s = .raise .unsetCell s := by
  rw [penaltyCmd, if_neg hzero, hsize]
  exact if_pos hunset

theorem penaltyCmd_of_complete (hset : ¬ (workCells s s.regs.workSize.toNat).any (·.any (· == .unset)) = true) :
    penaltyCmd s =
      .ok (s.setScore (score s.params s.regs.workSize.toNat (workMatrix s s.regs.workSize.toNat))) := by
  rw [penaltyCmd, if_neg hzero, hsize, ← darkRows_workCells]
  exact if_neg hset

end

/-- Settles O44: each clause is a branch of the pseudocode, in its order. -/
theorem penaltyScoresWork : Obligations.PenaltyScoresWork := by
  unfold Obligations.PenaltyScoresWork
  intro s n x
  have hlegal {v : Nat} (h1 : 1 ≤ v) (h40 : v ≤ 40) (hn : n = 4 * v + 17) : n ≠ 0 ∧ isModuleCount n = true :=
    ⟨by omega, (isModuleCount_iff n).2 ⟨v, h1, h40, hn⟩⟩
  refine ⟨fun hn => ?_, fun hn hbad => ?_, fun v h1 h40 hn hunset => ?_, fun v h1 h40 hn hset => ?_⟩
  · exact exec_failed .penalty nofun (penaltyCmd_of_empty hn)
  · rw [← isModuleCount_iff, Bool.not_eq_true] at hbad
    exact exec_failed .penalty nofun (penaltyCmd_of_badSize hn hbad)
  · obtain ⟨hzero, hsize⟩ := hlegal h1 h40 hn
    exact exec_failed .penalty nofun (penaltyCmd_of_unset hzero hsize ((any_unset_workCells_iff s n).2 hunset))
  · obtain ⟨hzero, hsize⟩ := hlegal h1 h40 hn
    refine exec_completed .penalty nofun (penaltyCmd_of_complete hzero hsize fun h => ?_)
    obtain ⟨r, c, hr, hc, hlight, hdark⟩ := (any_unset_workCells_iff s n).1 h
    exact (hset r c hr hc).elim hlight hdark

/-! ## Selection (R247) -/

/-- Of the first m totals, `best` is the lowest index of the minimum. -/
def IsLowestMinimum (p : List Nat) (m best : Nat) : Prop :=
  best < m ∧ (∀ j, j < m → p.getD best 0 ≤ p.getD j 0) ∧ ∀ j, j < best → p.getD best 0 < p.getD j 0

/-- A total below the minimum so far is the new minimum; another leaves it as it is. -/
theorem isLowestMinimum_succ {p : List Nat} {m best : Nat} (h : IsLowestMinimum p m best) :
    IsLowestMinimum p (m + 1) (if p.getD m 0 < p.getD best 0 then m else best) := by
  obtain ⟨hlt, hmin, hlow⟩ := h
  split
  · next hless =>
    have hbelow : ∀ j, j < m → p.getD m 0 < p.getD j 0 := fun j hj => Nat.lt_of_lt_of_le hless (hmin j hj)
    refine ⟨Nat.lt_succ_self m, fun j hj => ?_, hbelow⟩
    obtain hj | rfl := Nat.lt_succ_iff_lt_or_eq.1 hj
    · exact Nat.le_of_lt (hbelow j hj)
    · exact Nat.le_refl _
  · next hless =>
    refine ⟨Nat.lt_succ_of_lt hlt, fun j hj => ?_, hlow⟩
    obtain hj | rfl := Nat.lt_succ_iff_lt_or_eq.1 hj
    · exact hmin j hj
    · exact Nat.not_lt.1 hless

theorem selectFrom_cons (best bestTotal m t : Nat) (rest : List Nat) :
    selectFrom best bestTotal m (t :: rest) =
      selectFrom (if t < bestTotal then m else best) (if t < bestTotal then t else bestTotal) (m + 1) rest := by
  rw [selectFrom]
  split <;> rfl

/-- The search of the totals from m on. -/
theorem isLowestMinimum_selectFrom {p : List Nat} (rest : List Nat) {m best : Nat} (hrest : p.drop m = rest)
    (hm : m + rest.length = p.length) (h : IsLowestMinimum p m best) :
    IsLowestMinimum p p.length (selectFrom best (p.getD best 0) m rest) := by
  induction rest generalizing m best with
  | nil =>
    rw [List.length_nil, Nat.add_zero] at hm
    rw [← hm]
    exact h
  | cons t rest ih =>
    have ht : t = p.getD m 0 := by
      rw [List.getD_eq_getElem?_getD, ← List.head?_drop, hrest]
      rfl
    have hnext : p.drop (m + 1) = rest := by rw [← List.tail_drop, hrest, List.tail_cons]
    have hbest : (if p.getD m 0 < p.getD best 0 then p.getD m 0 else p.getD best 0) =
        p.getD (if p.getD m 0 < p.getD best 0 then m else best) 0 := (apply_ite (p.getD · 0) _ _ _).symm
    rw [List.length_cons] at hm
    rw [selectFrom_cons, ht, hbest]
    exact ih hnext (by omega) (isLowestMinimum_succ h)

/-- Settles O47: the search begins with index 0, the lowest minimum of the first total alone. -/
theorem selectionIsTheLowestMinimum : Obligations.SelectionIsTheLowestMinimum := by
  unfold Obligations.SelectionIsTheLowestMinimum
  intro p hp
  obtain ⟨t, rest, rfl⟩ := List.exists_cons_of_ne_nil hp
  have hfirst : IsLowestMinimum (t :: rest) 1 0 :=
    ⟨Nat.one_pos, fun j hj => Nat.le_of_eq (by rw [Nat.lt_one_iff.1 hj]), fun j hj => absurd hj (Nat.not_lt_zero j)⟩
  exact isLowestMinimum_selectFrom rest rfl (Nat.add_comm 1 _) hfirst

/-! ## The search before its build (R248) -/

theorem candidate_eq (s : State) {m : Nat} (hm : m < 8) : s.candidate m = candidateScore s m := by
  have hmask : (BitVec.ofNat 3 m).toNat = m := by rw [BitVec.toNat_ofNat, Nat.mod_eq_of_lt hm]
  rw [State.candidate, buildMatrix_eq_built, hmask]
  rfl

theorem candidateTotals_eq (s : State) :
    s.candidateTotals = (List.range 8).map fun m => (candidateScore s m).total :=
  List.map_congr_left fun _ hm => congrArg Score.total (candidate_eq s (List.mem_range.1 hm))

/-- The mask a search selects. -/
def bestMaskOf (s : State) : Nat := selectMask ((List.range 8).map fun m => (candidateScore s m).total)

theorem bestMaskOf_lt (s : State) : bestMaskOf s < 8 := by
  have hbest := (selectionIsTheLowestMinimum ((List.range 8).map fun m => (candidateScore s m).total) (by simp)).1
  rwa [List.length_map, List.length_range] at hbest

theorem recordSearch_eq (s : State) :
    s.recordSearch = { s with regs := { s.regs with
      bestMask := BitVec.ofNat 3 (bestMaskOf s)
      penalties := s.recordSearch.regs.penalties
      penN1 := BitVec.ofNat 32 (candidateScore s 7).n1
      penN2 := BitVec.ofNat 32 (candidateScore s 7).n2
      penN3 := BitVec.ofNat 32 (candidateScore s 7).n3
      penN4 := BitVec.ofNat 32 (candidateScore s 7).n4
      penTotal := BitVec.ofNat 32 (candidateScore s 7).total } } := by
  rw [bestMaskOf, ← candidateTotals_eq, ← candidate_eq s (by decide : 7 < 8)]
  rfl

theorem penalties_recordSearch (s : State) (m : Fin 8) :
    s.recordSearch.regs.penalties[m] = BitVec.ofNat 32 (candidateScore s m).total := by
  have hentry : s.recordSearch.regs.penalties[m] = BitVec.ofNat 32 (s.candidateTotals.getD m 0) :=
    Vector.getElem_ofFn m.isLt
  rw [hentry, candidateTotals_eq, List.getD_eq_getElem?_getD, List.getElem?_map, List.getElem?_range m.isLt]
  rfl

/-! ## The build and the commit of a search (R214, R272) -/

theorem size_le {s : State} (h40 : s.regs.version.toNat ≤ 40) : size s ≤ 177 := by
  rw [size]
  omega

/-- What WORK holds after a build (R214). -/
theorem workAt_of_matrixBuild {s b : State} {mask : BitVec 3} {test : Bool} (hcw : s.status.cwValid = true)
    (hb : matrixBuild mask test s = .ok b) (h40 : s.regs.version.toNat ≤ 40) {r c : Nat} (hr : r < 177) (hc : c < 177) :
    b.workAt r c = if r < size s ∧ c < size s then ((built s test mask.toNat).cell r c).code else s.workAt r c := by
  rw [matrixBuild_ok s mask test hcw] at hb
  obtain rfl := Result.ok.inj hb
  rw [buildMatrix_eq_built]
  exact read_writeRows_code (square_built s test mask.toNat) (size_le h40) s hr hc

/-- What GRID holds after a commit (R272). -/
theorem gridAt_of_commitCmd {s u : State} (hvalid : s.status.workValid = true) (hreal : s.status.workTest = false)
    (hu : commitCmd s = .ok u) (hn : s.regs.workSize.toNat ≤ 177) {r c : Nat} (hr : r < 177) (hc : c < 177) :
    u.gridAt r c =
      if r < s.regs.workSize.toNat ∧ c < s.regs.workSize.toNat then s.workAt r c == 0b10 else s.gridAt r c := by
  rw [commitCmd_ok s hvalid hreal] at hu
  obtain rfl := Result.ok.inj hu
  generalize s.regs.workSize.toNat = n at hn ⊢
  have hrows : ∀ row ∈ (s.workOperand n).map (·.map fun x => Cell.ofCode x == .dark), row.length ≤ Config.maxN := by
    intro row hrow
    rw [workOperand_eq, List.map_map] at hrow
    obtain ⟨i, -, rfl⟩ := List.mem_map.1 hrow
    rw [Function.comp_apply, List.length_map, List.length_map, List.length_range]
    exact hn
  have hread := Mem.read_writeRows Config.freeBit _ s.mems.grid 0 r c hrows hr hc
  rw [if_pos (Nat.zero_le r), Nat.sub_zero, workOperand_eq] at hread
  refine hread.trans ?_
  by_cases hrn : r < n
  · by_cases hcn : c < n
    · simp [hrn, hcn, ofCode_beq_dark]
    · simp [hrn, hcn, State.gridAt]
  · simp [hrn, State.gridAt]

theorem code_beq_dark (x : Cell) : (x.code == 0b10) = (x == .dark) := by cases x <;> rfl

theorem gridInfoOf_packInfo (mask : BitVec 3) (version : BitVec 6) (ec : BitVec 2) :
    gridInfoOf (packInfo mask false version ec) = packInfo mask false version ec := by
  have hkept : ∀ i : Fin 12, i ≠ 3 → (0xFF7 : BitVec 12).getLsbD i = true := by decide
  apply BitVec.eq_of_getLsbD_eq
  intro i hi
  by_cases h3 : i = 3
  · rw [h3, getLsbD_gridInfoOf, getLsbD_packInfo]
  · rw [gridInfoOf, BitVec.getLsbD_and, hkept ⟨i, hi⟩ fun h => h3 (congrArg Fin.val h), Bool.and_true]

/-! ## MASK_SEARCH (R248) -/

/-- Settles O48: a search records its candidates, and the build and the commit it then performs leave WORK and GRID. -/
theorem maskSearchCommitsTheBestBuild : Obligations.MaskSearchCommitsTheBestBuild := by
  unfold Obligations.MaskSearchCommitsTheBestBuild
  intro s
  refine ⟨fun hcw => exec_failed .maskSearch nofun (maskSearch_raise s hcw), fun hcw _ h40 => ?_⟩
  obtain ⟨b, u, hb, hu, hok⟩ := maskSearch_ok s hcw
  have hmask : s.recordSearch.regs.bestMask = BitVec.ofNat 3 (bestMaskOf s) := congrArg (·.regs.bestMask) (recordSearch_eq s)
  rw [hmask] at hb
  have hwork {r c : Nat} (hr : r < 177) (hc : c < 177) : b.workAt r c =
      if r < size s ∧ c < size s then ((built s false (bestMaskOf s)).cell r c).code else s.workAt r c := by
    have hread := workAt_of_matrixBuild (s := s.recordSearch) hcw hb h40 hr hc
    rwa [BitVec.toNat_ofNat, Nat.mod_eq_of_lt (bestMaskOf_lt s)] at hread
  rw [matrixBuild_ok s.recordSearch _ false hcw, recordSearch_eq] at hb
  have hb := Result.ok.inj hb
  have hsize : b.regs.workSize.toNat = size s := by
    rw [← hb]
    exact Nat.mod_eq_of_lt (Nat.lt_of_le_of_lt (size_le h40) (by decide))
  have hgrid {r c : Nat} (hr : r < 177) (hc : c < 177) : u.gridAt r c =
      if r < size s ∧ c < size s then (built s false (bestMaskOf s)).cell r c == .dark else s.gridAt r c := by
    have hread := gridAt_of_commitCmd (by rw [← hb]; rfl) (by rw [← hb]; rfl) hu (hsize ▸ size_le h40) hr hc
    have hbefore : b.gridAt r c = s.gridAt r c := by rw [← hb]; rfl
    rw [hread, hsize, hwork hr hc, hbefore]
    split <;> simp only [code_beq_dark]
  subst hb
  rw [commitCmd_ok _ rfl rfl, gridInfoOf_packInfo] at hu
  obtain rfl := Result.ok.inj hu
  exact ⟨_, exec_completed .maskSearch nofun hok, rfl, penalties_recordSearch s, fun r c hr hc =>
    ⟨hwork hr hc, hgrid hr hc⟩⟩

end Sys2Proof.Proofs

/-! PROOFS. The family of spec/46_control.md: the symbol changes only at a commit (O53), NOP (O14), SOFT_RESET (O15),
COMMIT (O49), QUERY (O52) and ENCODE (O51, O50). -/

namespace Sys2Proof.Proofs

open Sys2Proof.Machine Sys2Proof.Claims

/-! ## The committed symbol and the error record (R276, R304) -/

/-- The committed symbol: GRID, GRID_SIZE, GRID_INFO and GRID_VALID (R276). -/
def symbol (s : State) : Mem Bool × BitVec 8 × BitVec 12 × Bool :=
  (s.mems.grid, s.regs.gridSize, s.regs.gridInfo, s.status.gridValid)

/-- ERR and ERRCODE (R24, R25). -/
def errorRecord (s : State) : Bool × ErrRecord := (s.status.err, s.errcode)

theorem symbol_eq_iff {s t : State} :
    symbol t = symbol s ↔ t.mems.grid = s.mems.grid ∧ t.regs.gridSize = s.regs.gridSize ∧
      t.regs.gridInfo = s.regs.gridInfo ∧ t.status.gridValid = s.status.gridValid := by
  simp only [symbol, Prod.mk.injEq]

/-- From `s` to `t` neither the symbol nor the error record has changed. -/
def Untouched (s t : State) : Prop := symbol t = symbol s ∧ errorRecord t = errorRecord s

theorem Untouched.trans {s t u : State} (h : Untouched s t) (h' : Untouched t u) : Untouched s u :=
  ⟨h'.1.trans h.1, h'.2.trans h.2⟩

section
variable (s : State)

/-- No pseudocode but SOFT_RESET's and those that commit touches the symbol or the error record; an error is recorded by the
completion alone (R303). -/
theorem untouched_resultOf (i : Instr) (hr : i ≠ .softReset) (hc : ¬ (i = .commit ∨ i = .maskSearch)) :
    Untouched s (endState (resultOf i s)) := by
  have same : Untouched s s := ⟨rfl, rfl⟩
  have setsRes {r : Result} (h : (∃ v, r = .ok (s.setRes v)) ∨ ∃ e, r = .raise e s) : Untouched s (endState r) := by
    obtain ⟨v, rfl⟩ | ⟨e, rfl⟩ := h
    · exact ⟨rfl, rfl⟩
    · exact same
  have setsPr (i : Instr) (h : i = .polyMul ∨ i = .polyMod ∨ i = .rsGenpoly ∨ i = .rsEcc) :
      Untouched s (endState (resultOf i s)) := by
    obtain ⟨r, h⟩ | ⟨e, h⟩ := poly_cases s i h <;> rw [h]
    · exact ⟨rfl, rfl⟩
    · exact same
  cases i
  case softReset => exact absurd rfl hr
  case commit | maskSearch => simp at hc
  case nop | encode => exact same
  case gfExp | bbClear => exact ⟨rfl, rfl⟩
  case gfLog => exact setsRes (gfLog_cases s)
  case gfMul => exact setsRes (gfMul_cases s)
  case bbGet => exact setsRes (bbGet_cases s)
  case query => exact setsRes (queryCmd_cases s)
  case polyMul => exact setsPr _ (.inl rfl)
  case polyMod => exact setsPr _ (.inr (.inl rfl))
  case rsGenpoly => exact setsPr _ (.inr (.inr (.inl rfl)))
  case rsEcc => exact setsPr _ (.inr (.inr (.inr rfl)))
  case bbPut =>
    rw [resultOf]
    obtain ⟨-, h⟩ | ⟨e, h⟩ := bbPut_cases s <;> rw [h]
    · exact ⟨rfl, rfl⟩
    · exact same
  case segLoad =>
    rw [resultOf]
    obtain ⟨b, -, h⟩ | ⟨e, h⟩ | ⟨e, k, h⟩ := segLoad_cases s <;> rw [h] <;> exact ⟨rfl, rfl⟩
  case selectVersion =>
    rw [resultOf]
    obtain ⟨v, -, -, -, -, h⟩ | ⟨e, h⟩ := selectVersion_cases s <;> rw [h] <;> exact ⟨rfl, rfl⟩
  case buildCodewords =>
    rw [resultOf]
    obtain ⟨bits, -, -, h⟩ | ⟨e, h⟩ := buildCodewords_cases s <;> rw [h] <;> exact ⟨rfl, rfl⟩
  case matrixBuild mask test =>
    rw [resultOf]
    cases h : s.status.cwValid
    · rw [matrixBuild_raise s mask test h]
      exact same
    · rw [matrixBuild_ok s mask test h]
      exact ⟨rfl, rfl⟩
  case penalty =>
    rw [resultOf]
    obtain ⟨x, h⟩ | ⟨e, h⟩ := penaltyCmd_cases s <;> rw [h]
    · exact ⟨rfl, rfl⟩
    · exact same

/-- COMMIT and MASK_SEARCH set GRID_VALID and leave the error record, or raise with nothing changed (R248, R272). -/
theorem commits_or_raises (i : Instr) (hi : i = .commit ∨ i = .maskSearch) :
    (∃ u, resultOf i s = .ok u ∧ u.status.gridValid = true ∧ errorRecord u = errorRecord s) ∨
      ∃ e, resultOf i s = .raise e s := by
  obtain rfl | rfl := hi
  · by_cases h : s.status.workValid = false ∨ s.status.workTest = true
    · exact .inr ⟨_, commitCmd_raise s h⟩
    · simp only [not_or, Bool.not_eq_false, Bool.not_eq_true] at h
      exact .inl ⟨_, commitCmd_ok s h.1 h.2, rfl, rfl⟩
  · cases h : s.status.cwValid
    · exact .inr ⟨_, maskSearch_raise s h⟩
    · obtain ⟨u, hu, hfields⟩ := maskSearch_effect s h
      exact .inl ⟨u, hu, congrArg (·.status.gridValid) hfields, (congrArg errorRecord hfields).trans rfl⟩

/-- A pseudocode other than SOFT_RESET's that runs to its end leaves the error record (R304). -/
theorem errorRecord_of_ok {i : Instr} {u : State} (hi : i ≠ .softReset) (hu : resultOf i s = .ok u) :
    errorRecord u = errorRecord s := by
  by_cases hc : i = .commit ∨ i = .maskSearch
  · obtain ⟨v, hv, -, hrecord⟩ | ⟨e, he⟩ := commits_or_raises s i hc
    · cases hv.symm.trans hu
      exact hrecord
    · cases he.symm.trans hu
  · have hkept := (untouched_resultOf s i hi hc).2
    rwa [hu] at hkept

end

/-! ## Who may change the symbol (R276) -/

/-- What a completion without an error of COMMIT, MASK_SEARCH or ENCODE leaves (R272). -/
def Committed (s t : State) : Prop := t.phase = .idle ∧ t.status.gridValid = true ∧ errorRecord t = errorRecord s

section
variable {s t : State}

/-- The completion of COMMIT or MASK_SEARCH commits or keeps the symbol. -/
theorem exec_committing (i : Instr) (hi : i = .commit ∨ i = .maskSearch) (ht : exec i s = .next t) :
    symbol t = symbol s ∨ Committed s t := by
  have hne : i ≠ .encode := by rintro rfl; simp at hi
  rw [exec_eq_finish s i hne] at ht
  obtain ⟨u, hu, hvalid, hrecord⟩ | ⟨e, he⟩ := commits_or_raises s i hi
  · rw [hu] at ht
    cases ht
    exact .inr ⟨rfl, hvalid, hrecord⟩
  · rw [he] at ht
    cases ht
    exact .inl rfl

/-- ENCODE's first three steps touch neither the symbol nor the error record; its last one commits (R273). -/
theorem encode_committing (ht : exec .encode s = .next t) : symbol t = symbol s ∨ Committed s t := by
  have step (i : Instr) {a b : State} (hr : i ≠ .softReset) (hc : ¬ (i = .commit ∨ i = .maskSearch))
      (h : endState (resultOf i a) = b) : Untouched a b := h ▸ untouched_resultOf a i hr hc
  have fails {u : State} {e : ErrCode} {op : Byte} (h : symbol u = symbol s)
      (hx : execEncode s = .next (u.raise e 0x50 op)) : symbol t = symbol s ∨ Committed s t := by
    cases hx.symm.trans ht
    exact .inl h
  obtain ⟨e, u, hu, hx⟩ | ⟨a, ha, hrest⟩ := execEncode_cases s
  · exact fails (step .segLoad nofun (by simp) (congrArg endState hu)).1 hx
  have hsa := step .segLoad nofun (by simp) (congrArg endState ha)
  obtain ⟨e, u, hu, hx⟩ | ⟨b, hb, hrest⟩ := hrest
  · exact fails (hsa.trans (step .selectVersion nofun (by simp) (congrArg endState hu))).1 hx
  have hsb := hsa.trans (step .selectVersion nofun (by simp) (congrArg endState hb))
  obtain ⟨e, u, hu, hx⟩ | ⟨c, hc, hrest⟩ := hrest
  · exact fails (hsb.trans (step .buildCodewords nofun (by simp) (congrArg endState hu))).1 hx
  have hsc := hsb.trans (step .buildCodewords nofun (by simp) (congrArg endState hc))
  obtain ⟨d, hd, hvalid, hrecord⟩ | ⟨e, he⟩ := commits_or_raises c .maskSearch (.inr rfl)
  · obtain ⟨e, u, hu, -⟩ | ⟨u, hu, hx⟩ := hrest
    · cases hd.symm.trans hu
    · cases hd.symm.trans hu
      cases hx.symm.trans ht
      exact .inr ⟨rfl, hvalid, hrecord.trans hsc.2⟩
  · obtain ⟨e', u, hu, hx⟩ | ⟨u, hu, -⟩ := hrest
    · cases he.symm.trans hu
      exact fails hsc.1 hx
    · cases he.symm.trans hu

/-- The completion of a command keeps the symbol, commits one, or is SOFT_RESET's. -/
theorem exec_symbol {i : Instr} (ht : exec i s = .next t) :
    symbol t = symbol s ∨ (Committed s t ∧ (i = .commit ∨ i = .maskSearch ∨ i = .encode)) ∨
      (i = .softReset ∧ t = s.resetRegisters.complete) := by
  by_cases hc : i = .commit ∨ i = .maskSearch
  · exact (exec_committing i hc ht).imp_right fun h => .inl ⟨h, hc.imp_right .inl⟩
  by_cases he : i = .encode
  · subst he
    exact (encode_committing ht).imp_right fun h => .inl ⟨h, .inr (.inr rfl)⟩
  by_cases hr : i = .softReset
  · subst hr
    cases ht
    exact .inr (.inr ⟨rfl, rfl⟩)
  have hkept := (untouched_resultOf s i hr hc).1
  rw [exec_eq_finish s i he] at ht
  obtain ⟨u, hu, ⟨v, hv, rfl⟩ | ⟨e, v, hv, rfl⟩⟩ := finish_next i.opcode (resultOf i s) <;>
    cases hu.symm.trans ht <;> rw [hv] at hkept <;> exact .inl hkept

/-- No line of the host changes the symbol (R276). -/
theorem symbol_of_hostTurn (h : s.hostTurn = .moved t) : symbol t = symbol s := by
  obtain ⟨p, line, named, -, rfl⟩ | ⟨p, v, line, -, rfl⟩ | ⟨host, rfl⟩ := hostTurn_moved s t h
  · obtain hread | hread := busRead_snd s p <;> rw [hread] <;> rfl
  · have hleaves := busWrite_leaves s p v
    exact symbol_eq_iff.2 ⟨congrArg (·.grid) hleaves.mems, congrArg (·.gridSize) hleaves.regs,
      congrArg (·.gridInfo) hleaves.regs, congrArg (·.gridValid) hleaves.status⟩
  · rfl

end

/-- Settles O53, by the cases of a step: only the engine's completions and RST can reach the symbol. -/
theorem theSymbolChangesOnlyAtACommit : Obligations.TheSymbolChangesOnlyAtACommit := by
  unfold Obligations.TheSymbolChangesOnlyAtACommit
  intro s t ht
  rw [← symbol_eq_iff]
  obtain ⟨w, u, ⟨hbusy, hmoves⟩, hrun⟩ | ⟨u, v, hu, hmoved, hv⟩ | ⟨u, r, -, -, hr⟩ | ⟨-, -, why, -, hf⟩ |
    hskip | ⟨rest, hrst, hv⟩ | ⟨rest, -, hv⟩ := step_cases s _ ht
  · have hengine : s.sched = [] ∨ ∃ rest, s.sched = .engine :: rest :=
      hmoves.imp And.left fun ⟨rest, h, _⟩ => ⟨rest, h⟩
    have hsame : Untouched s u := by
      obtain ⟨-, rfl⟩ | ⟨rest, -, rfl⟩ := hmoves <;> exact ⟨rfl, rfl⟩
    obtain ⟨i, hi, hexec⟩ | ⟨-, hillegal⟩ := runWord_cases w u
    · obtain hsym | ⟨⟨hidle, hvalid, hrecord⟩, hcommits⟩ | ⟨rfl, rfl⟩ := exec_symbol (hexec.symm.trans hrun.symm)
      · exact .inl (hsym.trans hsame.1)
      · have herr := Prod.ext_iff.1 (hrecord.trans hsame.2)
        refine .inr (.inr ⟨w, hbusy, hengine, hidle, .inl ⟨hvalid, herr.1, herr.2, ?_⟩⟩)
        simpa only [hi, Except.ok.injEq] using hcommits
      · have hgrid := (symbol_eq_iff.1 hsame.1).1
        exact .inr (.inr ⟨w, hbusy, hengine, rfl, .inr ⟨hi, hgrid, rfl, rfl, rfl⟩⟩)
    · cases hrun.trans hillegal
      exact .inl hsame.1
  · cases hv
    refine .inl ((symbol_of_hostTurn hmoved).trans ?_)
    obtain rfl | ⟨rest, -, rfl⟩ := hu <;> rfl
  · cases hr
  · cases hf
  · obtain hv | ⟨_, rest, -, hv⟩ := hskip <;> cases hv <;> exact .inl rfl
  · cases hv
    exact .inr (.inl ⟨⟨rest, hrst⟩, rfl, rfl, rfl⟩)
  · cases hv
    exact .inl rfl

/-! ## NOP and SOFT_RESET (R270, R271) -/

/-- Settles O14: the completion is all that NOP does. -/
theorem nopOnlyCompletes : Obligations.NopOnlyCompletes := by
  unfold Obligations.NopOnlyCompletes
  exact fun s => exec_completed .nop nofun rfl

/-- Settles O15: the registers read as at reset one by one; STATUS has DONE alone. -/
theorem softResetReturnsTheRegisters : Obligations.SoftResetReturnsTheRegisters := by
  unfold Obligations.SoftResetReturnsTheRegisters
  intro s
  have hword : s.resetRegisters.complete.statusWord = State.reset.complete.statusWord := rfl
  refine ⟨_, exec_completed .softReset nofun rfl, rfl, hword.trans (by decide),
    fun r hstatus hirq => ?_, rfl, rfl, rfl, rfl, rfl, rfl⟩
  cases r
  case status => exact absurd rfl hstatus
  case irqEn => exact absurd rfl hirq
  all_goals rfl

/-! ## COMMIT (R272) -/

/-- Settles O49: a real build is copied cell by cell; anything else in WORK is a SEQUENCE error. -/
theorem commitCopiesTheRealBuild : Obligations.CommitCopiesTheRealBuild := by
  unfold Obligations.CommitCopiesTheRealBuild
  intro s
  refine ⟨fun h => exec_failed .commit nofun (commitCmd_raise s h), fun hvalid hreal hn => ?_⟩
  have hok := commitCmd_ok s hvalid hreal
  exact ⟨_, exec_completed .commit nofun hok, rfl, fun r c hr hc => gridAt_of_commitCmd hvalid hreal hok hn hr hc⟩

/-! ## QUERY (R274) -/

section
variable {s : State}

theorem queryCmd_of_noSymbol (h : s.status.gridValid = false) : queryCmd s = .raise .sequence s := if_pos h

variable (hvalid : s.status.gridValid = true)
include hvalid

theorem queryCmd_of_outside (h : s.regs.qrow.toInt < 0 ∨ (s.regs.gridSize.toNat : Int) ≤ s.regs.qrow.toInt ∨
    s.regs.qcol.toInt < 0 ∨ (s.regs.gridSize.toNat : Int) ≤ s.regs.qcol.toInt) :
    queryCmd s = .raise .outOfRange s := by
  rw [queryCmd, if_neg (by simp [hvalid])]
  exact if_pos h

/-- Coordinates below GRID_SIZE are not negative, and name a module. -/
theorem queryCmd_of_inside (hrow : s.regs.qrow.toNat < s.regs.gridSize.toNat)
    (hcol : s.regs.qcol.toNat < s.regs.gridSize.toNat) :
    queryCmd s = .ok (s.setRes ((BitVec.ofBool (s.gridAt s.regs.qrow.toNat s.regs.qcol.toNat)).setWidth 32)) := by
  have nonneg {w : Word} (hw : w.toNat < s.regs.gridSize.toNat) : sint w = w.toNat := by
    have hsize := s.regs.gridSize.isLt
    exact BitVec.toInt_eq_toNat_of_lt (by omega)
  rw [queryCmd, if_neg (by simp [hvalid]), nonneg hrow, nonneg hcol, if_neg (by omega), Int.toNat_natCast,
    Int.toNat_natCast]

end

/-- Settles O52: each clause is a branch of the pseudocode, in its order. -/
theorem queryReadsTheCommittedModule : Obligations.QueryReadsTheCommittedModule := by
  unfold Obligations.QueryReadsTheCommittedModule
  intro s
  exact ⟨fun hnone => exec_failed .query nofun (queryCmd_of_noSymbol hnone),
    fun hvalid hout => exec_failed .query nofun (queryCmd_of_outside hvalid hout),
    fun hvalid hrow hcol => exec_completed .query nofun (queryCmd_of_inside hvalid hrow hcol)⟩

/-! ## ENCODE and its four steps (R273) -/

/-- A pseudocode's end with the state it leaves completed. -/
def completeEnd : Result → Result
  | .ok t => .ok t.complete
  | .raise e t => .raise e t.complete

/-- Completing twice, or completing and then recording an error, leaves what the second one leaves (R302, R303). -/
theorem finish_completeEnd (op : Byte) (r : Result) : finish op (completeEnd r) = finish op r := by cases r <;> rfl

section
variable (s : State)

/-! No step of ENCODE reads BUSY or DONE, so each runs the same after the completion of the one before it. -/

theorem selectVersion_complete : selectVersion s.complete = completeEnd (selectVersion s) := by
  simp only [selectVersion, apply_ite completeEnd]
  rfl

theorem buildCodewords_of_overflow (hver : s.status.verValid = true)
    (hbits : bitstream s.segOperand s.regs.version.toNat s.regs.dataCw.toNat = none) :
    buildCodewords s = .raise .capacityExceeded s.loseCodewords := by
  simp [buildCodewords, hver, hbits]

theorem buildCodewords_complete : buildCodewords s.complete = completeEnd (buildCodewords s) := by
  cases hver : s.status.verValid
  · rw [buildCodewords_of_noVersion hver, buildCodewords_of_noVersion (s := s.complete) hver]
    rfl
  cases hbits : bitstream s.segOperand s.regs.version.toNat s.regs.dataCw.toNat with
  | none =>
    rw [buildCodewords_of_overflow s hver hbits, buildCodewords_of_overflow s.complete hver hbits]
    rfl
  | some bits =>
    rw [buildCodewords_ok s hver hbits, buildCodewords_ok s.complete hver hbits]
    rfl

theorem matrixBuild_complete (mask : BitVec 3) (test : Bool) :
    matrixBuild mask test s.complete = completeEnd (matrixBuild mask test s) := by
  simp only [matrixBuild, apply_ite completeEnd]
  rfl

theorem commitCmd_complete : commitCmd s.complete = completeEnd (commitCmd s) := by
  simp only [commitCmd, apply_ite completeEnd]
  rfl

theorem maskSearch_complete : maskSearch s.complete = completeEnd (maskSearch s) := by
  cases hcw : s.status.cwValid
  · rw [maskSearch_raise s hcw, maskSearch_raise s.complete hcw]
    rfl
  obtain ⟨b, u, hb, hu, hok⟩ := maskSearch_ok s hcw
  obtain ⟨b', u', hb', hu', hok'⟩ := maskSearch_ok s.complete hcw
  have hbuild : Result.ok b' = .ok b.complete :=
    hb'.symm.trans ((matrixBuild_complete s.recordSearch _ false).trans (congrArg completeEnd hb))
  obtain rfl := Result.ok.inj hbuild
  rw [commitCmd_complete, hu] at hu'
  rw [hok, hok', hu']

end

/-- A step of ENCODE after the first runs the same whether or not the step before it has been completed. -/
theorem exec_of_complete {i : Instr} (hi : i = .selectVersion ∨ i = .buildCodewords ∨ i = .maskSearch) (s : State) :
    exec i s.complete = exec i s := by
  have hsteps : resultOf i s.complete = completeEnd (resultOf i s) := by
    obtain rfl | rfl | rfl := hi
    · exact selectVersion_complete s
    · exact buildCodewords_complete s
    · exact maskSearch_complete s
  have hne : i ≠ .encode := by rintro rfl; simp at hi
  rw [exec_eq_finish _ i hne, exec_eq_finish _ i hne, hsteps, finish_completeEnd]

/-- How a command other than ENCODE and SOFT_RESET ends from a state without ERR: ERR tells whether it raised. -/
theorem exec_ends (i : Instr) {s t : State} (henc : i ≠ .encode) (hres : i ≠ .softReset) (herr : s.status.err = false)
    (ht : exec i s = .next t) :
    (∃ e u, resultOf i s = .raise e u ∧ t = u.raise e i.opcode i.opcode) ∨
      ∃ u, resultOf i s = .ok u ∧ t = u.complete ∧ u.status.err = false := by
  rw [exec_eq_finish s i henc] at ht
  obtain ⟨v, hv, ⟨u, hu, rfl⟩ | ⟨e, u, hu, rfl⟩⟩ := finish_next i.opcode (resultOf i s) <;> cases hv.symm.trans ht
  · exact .inr ⟨u, hu, rfl, (congrArg Prod.fst (errorRecord_of_ok s hres hu)).trans herr⟩
  · exact .inl ⟨e, u, hu, rfl⟩

section
variable {s a b c d t : State} {e : ErrCode}

theorem encode_of_segLoad_raise (h : segLoad s = .raise e t) : exec .encode s = .next (t.raise e 0x50 0x30) := by
  simp only [exec, execEncode, h]

variable (ha : segLoad s = .ok a)
include ha

theorem encode_of_selectVersion_raise (h : selectVersion a = .raise e t) :
    exec .encode s = .next (t.raise e 0x50 0x31) := by
  simp only [exec, execEncode, ha, h]

variable (hb : selectVersion a = .ok b)
include hb

theorem encode_of_buildCodewords_raise (h : buildCodewords b = .raise e t) :
    exec .encode s = .next (t.raise e 0x50 0x32) := by
  simp only [exec, execEncode, ha, hb, h]

theorem encode_of_ok (hc : buildCodewords b = .ok c) (hd : maskSearch c = .ok d) : exec .encode s = .next d.complete := by
  simp only [exec, execEncode, ha, hb, hc, hd]

end

/-- Settles O51: ERR tells at each step which way ENCODE's pseudocode goes. -/
theorem encodeIsItsFourSteps : Obligations.EncodeIsItsFourSteps := by
  unfold Obligations.EncodeIsItsFourSteps
  intro s a b c d hs hsa hab hbc hcd
  obtain ⟨x, u, hu, rfl⟩ | ⟨a, ha, rfl, haerr⟩ := exec_ends .segLoad nofun nofun hs hsa
  · exact ⟨fun _ => (encode_of_segLoad_raise hu).trans rfl, nofun, nofun, nofun⟩
  refine ⟨fun h => absurd (haerr.symm.trans h) nofun, ?_⟩
  rw [exec_of_complete (.inl rfl)] at hab
  obtain ⟨x, u, hu, rfl⟩ | ⟨b, hb, rfl, hberr⟩ := exec_ends .selectVersion nofun nofun haerr hab
  · exact ⟨fun _ _ => (encode_of_selectVersion_raise ha hu).trans rfl, nofun, nofun⟩
  refine ⟨fun _ h => absurd (hberr.symm.trans h) nofun, ?_⟩
  rw [exec_of_complete (.inr (.inl rfl))] at hbc
  obtain ⟨x, u, hu, rfl⟩ | ⟨c, hc, rfl, hcerr⟩ := exec_ends .buildCodewords nofun nofun hberr hbc
  · exact ⟨fun _ _ _ => (encode_of_buildCodewords_raise ha hb hu).trans rfl, nofun⟩
  refine ⟨fun _ _ h => absurd (hcerr.symm.trans h) nofun, fun _ _ _ herr => ?_⟩
  rw [exec_of_complete (.inr (.inr rfl))] at hcd
  obtain ⟨x, u, -, rfl⟩ | ⟨d, hd, rfl, -⟩ := exec_ends .maskSearch nofun nofun hcerr hcd
  · cases herr
  · exact encode_of_ok ha hb hc hd

/-! ## ENCODE for a text that fits (R173, R181, R273) -/

/-- SELECT_VERSION takes the forced version, or the smallest, where the segment fits it (R173). -/
theorem selectVersion_of_fits {s : State} (hseg : s.status.segValid = true)
    (hfit : (s.regs.forceVersion.toNat = 0 ∧ s.regs.segLen.toNat ≤ cap 40 s.regs.ecLevel) ∨
      (1 ≤ s.regs.forceVersion.toNat ∧ s.regs.forceVersion.toNat ≤ 40 ∧
        s.regs.segLen.toNat ≤ cap s.regs.forceVersion.toNat s.regs.ecLevel)) :
    ∃ v, selectVersion s = .ok (s.setVersion v s.regs.ecLevel) ∧
      1 ≤ v ∧ v ≤ 40 ∧ s.regs.segLen.toNat ≤ cap v s.regs.ecLevel ∧
      (s.regs.forceVersion.toNat = 0 → ∀ u, 1 ≤ u → u < v → cap u s.regs.ecLevel < s.regs.segLen.toNat) ∧
      (s.regs.forceVersion.toNat ≠ 0 → v = s.regs.forceVersion.toNat) := by
  obtain ⟨hauto, hcap⟩ | ⟨h1, h40, hcap⟩ := hfit
  · cases hv : smallestVersion s.regs.ecLevel s.regs.segLen.toNat with
    | none => exact absurd (smallestVersion_none hv) (Nat.not_lt.2 hcap)
    | some v =>
      obtain ⟨h1, h40, hfits, hleast⟩ := smallestVersion_some hv
      exact ⟨v, selectVersion_of_smallest hseg hauto h1 h40 hfits hleast, h1, h40, hfits, fun _ => hleast,
        fun h => absurd hauto h⟩
  · exact ⟨_, (selectVersion_of_forced hseg h1 h40).trans (if_neg (Nat.not_lt.2 hcap)), h1, h40, hcap,
      fun h => absurd h (Nat.ne_of_gt h1), fun _ => rfl⟩

theorem version_setVersion (s : State) {v : Nat} (ec : BitVec 2) (h40 : v ≤ 40) :
    (s.setVersion v ec).regs.version.toNat = v :=
  Nat.mod_eq_of_lt (Nat.lt_of_le_of_lt h40 (by decide))

/-- The segment of a selection that it fits has its bit stream (R181). -/
theorem exists_bitstream_setVersion (s : State) {v : Nat} {ec : BitVec 2} (h1 : 1 ≤ v) (h40 : v ≤ 40)
    (hcap : s.regs.segLen.toNat ≤ cap v ec) :
    ∃ bits, bitstream (s.setVersion v ec).segOperand (s.setVersion v ec).regs.version.toNat
      (s.setVersion v ec).regs.dataCw.toNat = some bits := by
  have hdata : (s.setVersion v ec).regs.dataCw.toNat = dataCodewords v ec :=
    Nat.mod_eq_of_lt (blocks_bounds v ec h1 h40).1
  have hseg : (s.setVersion v ec).segOperand.length ≤ cap v ec := by
    rwa [segOperand_eq, List.length_map, List.length_range]
  rw [version_setVersion s ec h40, hdata]
  exact ⟨_, bitstream_of_fits (fits_of_le_cap h1 h40 hseg)⟩

/-- What a mask search writes to GRID_SIZE and GRID_INFO (R37, R248). -/
theorem gridDescription_of_maskSearch {s u : State} (hcw : s.status.cwValid = true) (hok : maskSearch s = .ok u)
    (h40 : s.regs.version.toNat ≤ 40) :
    u.regs.gridSize.toNat = 4 * s.regs.version.toNat + 17 ∧
      u.regs.gridInfo = s.regs.selEc ++ s.regs.version ++ (0 : BitVec 1) ++ u.regs.bestMask := by
  obtain ⟨v, hv, hfields⟩ := maskSearch_effect s hcw
  cases hv.symm.trans hok
  constructor
  · refine (congrArg (·.regs.gridSize.toNat) hfields).trans (Nat.mod_eq_of_lt ?_)
    rw [moduleCountOf]
    omega
  · exact (congrArg (·.regs.gridInfo) hfields).trans (gridInfoOf_packInfo _ _ _)

/-- Settles O50: each step's state meets the next one's premise, and the last one commits. -/
theorem encodeCommitsASymbolForEveryTextThatFits : Obligations.EncodeCommitsASymbolForEveryTextThatFits := by
  unfold Obligations.EncodeCommitsASymbolForEveryTextThatFits
  intro s hlen hvalid hfit
  have hshort : (payload (text s)).length ≤ 2953 := by
    obtain ⟨-, h⟩ | ⟨h1, h40, h⟩ := hfit
    · exact Nat.le_trans h (cap_le 40 _ (by decide) (by decide)).2
    · exact Nat.le_trans h (cap_le _ _ h1 h40).2
  have hload := (segLoad_of_valid hlen hvalid).trans (if_neg (Nat.not_lt.2 hshort))
  have hsegLen := segLen_setSegment s hshort
  obtain ⟨v, hselect, h1, h40, hcap, hleast, hforced⟩ :=
    selectVersion_of_fits (s := s.setSegment (payload (text s))) rfl (by rwa [hsegLen])
  obtain ⟨bits, hbits⟩ := exists_bitstream_setVersion _ h1 h40 hcap
  obtain ⟨c, hbuild, hc⟩ : ∃ c, buildCodewords _ = .ok c ∧ c = _ := ⟨_, buildCodewords_ok _ rfl hbits, rfl⟩
  have hcw : c.status.cwValid = true := by rw [hc]; rfl
  obtain ⟨u, hsearch, hu⟩ := maskSearch_effect c hcw
  have hversion : u.regs.version = c.regs.version := congrArg (·.regs.version) hu
  have hv : u.regs.version.toNat = v := by
    rw [hversion, hc]
    exact version_setVersion s s.regs.ecLevel h40
  have hexec := encode_of_ok hload hselect hbuild hsearch
  obtain ⟨htext, hpa, hpb, hirq, -, -, -, -, hregs, hpr, -⟩ := theEngineNeverWritesAHostInput .encode s _ hexec
  obtain ⟨hec, hfv, htextLen, hopa, hopb, hpaLen, hpbLen, hqrow, hqcol⟩ := hregs nofun
  rw [hsegLen] at hcap hleast
  rw [← hv] at h1 h40 hcap hleast hforced
  obtain ⟨hsize, hinfo⟩ := gridDescription_of_maskSearch hcw hsearch (hversion ▸ h40)
  rw [← hversion] at hsize hinfo
  subst hc
  exact ⟨_, hexec, rfl, congrArg (·.complete.status) hu, congrArg (·.errcode) hu, hirq, h1, h40, hcap, hleast,
    fun h => BitVec.eq_of_toNat_eq (hforced h), hsize, hinfo, htext, hpa, hpb, hpr (by simp), htextLen, hec, hfv, hopa, hopb,
    hpaLen, hpbLen, hqrow, hqcol, congrArg (·.regs.res) hu, congrArg (·.regs.prLen) hu⟩

end Sys2Proof.Proofs

/-! PROOFS. The family of spec/60_exceptions.md: a CMD write (O6), writes while BUSY (O7), the interrupt line (O18), how
commands end (O12, O13), the stops of the system (O11), the invariant (O55) and a step's agent (O5). -/

namespace Sys2Proof.Proofs

open Sys2Proof.Machine Sys2Proof.Claims

/-! ## Host writes (R300, R304, R305) -/

theorem busWrite_cmd_of_err (s : State) {w : Word} (hp : s.phase = .idle) (he : s.status.err = true) (hw : w ≠ 0x00000001) :
    s.busWrite (.reg .cmd) w = s.setHaz := by
  rw [busWrite_idle_reg s _ w hp]
  have hignored : (s.status.err && w != 1) = true := by rw [he, Bool.true_and]; exact bne_iff_ne.2 hw
  exact if_pos hignored

/-- SOFT_RESET is accepted whatever ERR is (R304). -/
theorem busWrite_cmd_softReset (s : State) (hp : s.phase = .idle) :
    s.busWrite (.reg .cmd) 0x00000001 = s.accept 0x00000001 := by
  rw [busWrite_idle_reg s _ _ hp]
  simp [State.writeReg, State.writeCmd]

/-- Settles O6: the phase, then ERR and the word, choose among the three. -/
theorem cmdWriteIsDroppedIgnoredOrAccepted : Obligations.CmdWriteIsDroppedIgnoredOrAccepted := by
  unfold Obligations.CmdWriteIsDroppedIgnoredOrAccepted
  intro s w
  refine ⟨fun hb => busWrite_busy s _ w hb nofun, fun hp he hw => busWrite_cmd_of_err s hp he hw, fun hp hok => ?_⟩
  obtain he | rfl := hok
  · exact busWrite_cmd_of_err_clear s w hp he
  · exact busWrite_cmd_softReset s hp

/-- A write to IRQ_EN is performed in either phase (R305). -/
theorem busWrite_irqEn (s : State) (v : Word) : s.busWrite (.reg .irqEn) v = { s with irqEn := IrqEnable.ofWord v } := by
  simp [State.busWrite, State.writeReg]

/-- Settles O7: while BUSY a write only sets HAZ, and IRQ_EN's is performed. -/
theorem writesWhileBusyAreDropped : Obligations.WritesWhileBusyAreDropped := by
  unfold Obligations.WritesWhileBusyAreDropped
  exact fun s p v hb => ⟨busWrite_busy s p v hb, busWrite_irqEn s v⟩

/-! ## The interrupt line (R309) -/

theorem getLsbD_irqEnable_word (e : IrqEnable) (i : Nat) :
    e.word.getLsbD i = [false, e.doneIe, e.errIe, e.hazIe].getD i false := by
  simp only [IrqEnable.word, BitVec.getLsbD_append]
  match i with
  | 0 | 1 | 2 | 3 => simp
  | i + 4 => simp

/-- The mask of bits 1 to 3 leaves something exactly where one of them is 1. -/
theorem and_irqMask_ne_zero (v : Word) : (v &&& 0x0000000E != 0) = (v.getLsbD 1 || v.getLsbD 2 || v.getLsbD 3) := by
  have hbit (i : Nat) : (v &&& 0x0000000E).getLsbD i = (v.getLsbD i && (0x0000000E : Word).getLsbD i) := BitVec.getLsbD_and
  have hzero : v &&& 0x0000000E = 0 ↔ v.getLsbD 1 = false ∧ v.getLsbD 2 = false ∧ v.getLsbD 3 = false := by
    constructor
    · intro h
      rw [h] at hbit
      exact ⟨by simpa using (hbit 1).symm, by simpa using (hbit 2).symm, by simpa using (hbit 3).symm⟩
    · rintro ⟨h1, h2, h3⟩
      apply BitVec.eq_of_getLsbD_eq
      intro i _
      rw [hbit]
      match i with
      | 0 => exact Bool.and_false _
      | 1 => rw [h1]; rfl
      | 2 => rw [h2]; rfl
      | 3 => rw [h3]; rfl
      | i + 4 => simp [BitVec.getLsbD_ofNat, Nat.testBit_add]
  rw [Bool.eq_iff_iff, bne_iff_ne, ne_eq, hzero]
  have hsome : ∀ a b c : Bool, ¬ (a = false ∧ b = false ∧ c = false) ↔ (a || b || c) = true := by decide
  exact hsome _ _ _

/-- Settles O18: DONE, ERR and HAZ are bits 1, 2, 3 of STATUS, as their enables are of IRQ_EN. -/
theorem irqIsTheGatedOrOfStatus : Obligations.IrqIsTheGatedOrOfStatus := by
  unfold Obligations.IrqIsTheGatedOrOfStatus
  intro s
  rw [and_irqMask_ne_zero]
  simp only [BitVec.getLsbD_and, State.readReg, getLsbD_statusWord, getLsbD_irqEnable_word]
  rfl

/-! ## How every command ends (R302, R303, R317) -/

/-- Every command completes, from the end `u` of its last pseudocode, which has any property `P` that every pseudocode keeps.
Without an error it leaves the error record, SOFT_RESET apart (R304). -/
theorem exec_completes (P : State → Prop) (keeps : ∀ i a, P a → P (endState (resultOf i a))) (i : Instr) {s : State}
    (h : P s) :
    ∃ u, P u ∧ ((exec i s = .next u.complete ∧ (i ≠ .softReset → errorRecord u = errorRecord s)) ∨
      ∃ e op step, exec i s = .next (u.raise e op step)) := by
  by_cases hi : i = .encode
  · subst hi
    have kept (i : Instr) {a b : State} (ha : P a) (hb : endState (resultOf i a) = b) : P b := hb ▸ keeps i a ha
    obtain ⟨e, u, hu, hx⟩ | ⟨a, ha, hrest⟩ := execEncode_cases s
    · exact ⟨u, kept .segLoad h (congrArg endState hu), .inr ⟨e, _, _, hx⟩⟩
    have hPa := kept .segLoad h (congrArg endState ha)
    obtain ⟨e, u, hu, hx⟩ | ⟨b, hb, hrest⟩ := hrest
    · exact ⟨u, kept .selectVersion hPa (congrArg endState hu), .inr ⟨e, _, _, hx⟩⟩
    have hPb := kept .selectVersion hPa (congrArg endState hb)
    obtain ⟨e, u, hu, hx⟩ | ⟨c, hc, hrest⟩ := hrest
    · exact ⟨u, kept .buildCodewords hPb (congrArg endState hu), .inr ⟨e, _, _, hx⟩⟩
    have hPc := kept .buildCodewords hPb (congrArg endState hc)
    obtain ⟨e, u, hu, hx⟩ | ⟨d, hd, hx⟩ := hrest
    · exact ⟨u, kept .maskSearch hPc (congrArg endState hu), .inr ⟨e, _, _, hx⟩⟩
    have hrecord : errorRecord d = errorRecord s :=
      calc errorRecord d = errorRecord c := errorRecord_of_ok c (i := .maskSearch) nofun hd
        _ = errorRecord b := errorRecord_of_ok b (i := .buildCodewords) nofun hc
        _ = errorRecord a := errorRecord_of_ok a (i := .selectVersion) nofun hb
        _ = errorRecord s := errorRecord_of_ok s (i := .segLoad) nofun ha
    exact ⟨d, kept .maskSearch hPc (congrArg endState hd), .inl ⟨hx, fun _ => hrecord⟩⟩
  · have hend := keeps i s h
    rw [exec_eq_finish s i hi]
    cases hu : resultOf i s with
    | ok u => exact ⟨u, by rwa [hu] at hend, .inl ⟨rfl, fun hr => errorRecord_of_ok s hr hu⟩⟩
    | raise e u => exact ⟨u, by rwa [hu] at hend, .inr ⟨e, _, _, rfl⟩⟩

/-- Settles O12: a completion is IDLE and DONE, and one with ERR = 0 raised nothing. -/
theorem everyCommandCompletes : Obligations.EveryCommandCompletes := by
  unfold Obligations.EveryCommandCompletes
  intro i s
  obtain ⟨u, -, ⟨hx, hrecord⟩ | ⟨e, op, step, hx⟩⟩ :=
    exec_completes (fun _ => True) (fun _ _ _ => trivial) i (s := s) trivial
  · exact ⟨_, hx, rfl, rfl, fun hi _ => congrArg Prod.snd (hrecord hi)⟩
  · exact ⟨_, hx, rfl, rfl, nofun⟩

/-- The error-time effects of R303(c): what a pseudocode leaves where it raises. -/
def RaiseLeaves (i : Instr) (s u : State) : Prop :=
  u = { s with
    regs := { s.regs with
      res := if i = .segLoad then u.regs.res else s.regs.res
      version := if i = .selectVersion then 0 else s.regs.version
      moduleCount := if i = .selectVersion then 0 else s.regs.moduleCount }
    status := { s.status with
      segValid := s.status.segValid && i != .segLoad
      verValid := s.status.verValid && i != .segLoad && i != .selectVersion
      cwValid := s.status.cwValid && i != .segLoad && i != .selectVersion && i != .buildCodewords } }

/-- Every command but the three with error-time effects raises with nothing changed (R303). -/
theorem raise_unchanged {i : Instr} {s u : State} {e : ErrCode} (hi : i ∉ [Instr.segLoad, .selectVersion, .buildCodewords])
    (hu : resultOf i s = .raise e u) : u = s := by
  have same {r : Result} (hr : (∃ v, r = .ok v) ∨ ∃ e, r = .raise e s) (hu : r = .raise e u) : u = s := by
    obtain ⟨v, rfl⟩ | ⟨e, rfl⟩ := hr <;> cases hu
    rfl
  have sets {α : Type} {f : α → State} {r : Result} (hr : (∃ v, r = .ok (f v)) ∨ ∃ e, r = .raise e s)
      (hu : r = .raise e u) : u = s := same (hr.imp_left fun ⟨v, hv⟩ => ⟨f v, hv⟩) hu
  cases i
  case segLoad | selectVersion | buildCodewords => simp at hi
  case nop | softReset | gfExp | bbClear | encode => cases hu
  case gfLog => exact sets (gfLog_cases s) hu
  case gfMul => exact sets (gfMul_cases s) hu
  case polyMul | polyMod | rsGenpoly | rsEcc => exact sets (poly_cases s _ (by simp)) hu
  case bbPut => exact same ((bbPut_cases s).imp_left fun ⟨_, hv⟩ => ⟨_, hv⟩) hu
  case bbGet => exact sets (bbGet_cases s) hu
  case penalty => exact sets (penaltyCmd_cases s) hu
  case query => exact sets (queryCmd_cases s) hu
  case matrixBuild mask test =>
    cases hcw : s.status.cwValid
    · exact same (.inr ⟨_, matrixBuild_raise s mask test hcw⟩) hu
    · exact same (.inl ⟨_, matrixBuild_ok s mask test hcw⟩) hu
  case commit | maskSearch => exact same ((commits_or_raises s _ (by simp)).imp_left fun ⟨v, hv, _⟩ => ⟨v, hv⟩) hu

/-- A flag stays where the command is none of those that clear it. -/
theorem and_bne_of_ne {i j : Instr} (h : i ≠ j) (b : Bool) : (b && i != j) = b := by rw [bne_iff_ne.2 h, Bool.and_true]

/-- A pseudocode that raises has only the error-time effects on the state (R303). -/
theorem raise_leaves (i : Instr) {s u : State} {e : ErrCode} (hu : resultOf i s = .raise e u) : RaiseLeaves i s u := by
  by_cases hi : i ∈ [Instr.segLoad, .selectVersion, .buildCodewords]
  · simp only [List.mem_cons, List.not_mem_nil, or_false] at hi
    obtain rfl | rfl | rfl := hi <;> rw [resultOf] at hu
    · obtain ⟨b, -, h⟩ | ⟨e, h⟩ | ⟨e, k, h⟩ := segLoad_cases s <;> cases h.symm.trans hu <;>
        simp [RaiseLeaves, State.loseSegment, Status.segmentLost, State.setRes]
    · obtain ⟨v, -, -, -, -, h⟩ | ⟨e, h⟩ := selectVersion_cases s <;> cases h.symm.trans hu
      simp [RaiseLeaves, State.loseVersion, Status.versionLost]
    · obtain ⟨bits, -, -, h⟩ | ⟨e, h⟩ := buildCodewords_cases s <;> cases h.symm.trans hu
      have hseg : Instr.buildCodewords ≠ .segLoad := nofun
      have hver : Instr.buildCodewords ≠ .selectVersion := nofun
      simp [RaiseLeaves, State.loseCodewords, and_bne_of_ne hseg, and_bne_of_ne hver]
  · obtain rfl := raise_unchanged hi hu
    simp only [List.mem_cons, List.not_mem_nil, or_false, not_or] at hi
    obtain ⟨hseg, hver, hcw⟩ := hi
    simp only [RaiseLeaves, if_neg hseg, if_neg hver, and_bne_of_ne hseg, and_bne_of_ne hver, and_bne_of_ne hcw]

/-- Settles O13: ERR tells that the pseudocode raised, and a raise has only R303(c)'s effects. -/
theorem failedCommandWritesNoMemory : Obligations.FailedCommandWritesNoMemory := by
  unfold Obligations.FailedCommandWritesNoMemory
  intro i s t hi herr ht hfailed
  have hreset : i ≠ .softReset := by
    rintro rfl
    cases ht
    cases hfailed
  obtain ⟨e, u, hu, rfl⟩ | ⟨u, -, rfl, hok⟩ := exec_ends i hi hreset herr ht
  · have hleaves : RaiseLeaves i s u := raise_leaves i hu
    obtain ⟨hlow, hhigh⟩ := e.code_range
    refine ⟨congrArg (·.mems) hleaves, congrArg (·.irqEn) hleaves, congrArg (·.draws) hleaves, rfl, rfl, hlow, hhigh,
      congrArg (·.regs) hleaves, ?_⟩
    exact congrArg (fun v : State => ({ v.status with done := true, err := true } : Status)) hleaves
  · exact absurd (hok.symm.trans hfailed) nofun

/-! ## The stops of the system (R317) -/

theorem runWord_completes (w : Word) (s : State) : ∃ t, runWord w s = .next t := by
  obtain ⟨i, -, hrun⟩ | ⟨-, hrun⟩ := runWord_cases w s
  · obtain ⟨t, ht, -⟩ := everyCommandCompletes i s
    exact ⟨t, hrun.trans ht⟩
  · exact ⟨_, hrun⟩

/-- What a step comes to: a next state, the stuck host, or a refusal of the host's line. -/
theorem step_stops (s : State) :
    (∃ t, step s = .next t) ∨
    (s.phase = .idle ∧ s.sched = [] ∧ ∃ why, s.hostTurn = .stuck why ∧ step s = .fault (.hostStuck why)) ∨
    ∃ (u : State) (r : Refusal), u.host = s.host ∧ u.hostTurn = .refused r ∧ step s = .refused r := by
  obtain ⟨w, u, -, hrun⟩ | ⟨u, t, -, -, ho⟩ | ⟨u, r, hu, hrefused, ho⟩ | ⟨hidle, hsched, why, hstuck, ho⟩ |
    (ho | ⟨_, rest, -, ho⟩) | ⟨rest, -, ho⟩ | ⟨rest, -, ho⟩ := step_cases s _ rfl
  case inl =>
    obtain ⟨t, ht⟩ := runWord_completes w u
    exact .inl ⟨t, hrun.trans ht⟩
  case inr.inr.inl =>
    have hhost : u.host = s.host := by obtain rfl | ⟨rest, -, rfl⟩ := hu <;> rfl
    exact .inr (.inr ⟨u, r, hhost, hrefused, ho⟩)
  case inr.inr.inr.inl => exact .inr (.inl ⟨hidle, hsched, why, hstuck, ho⟩)
  all_goals exact .inl ⟨_, ho⟩

/-- Settles O11: the engine's moves and RST's answer a next state, so a stop is the host's. -/
theorem onlyTheStuckHostStopsTheSystem : Obligations.OnlyTheStuckHostStopsTheSystem := by
  unfold Obligations.OnlyTheStuckHostStopsTheSystem
  intro s
  obtain ⟨t, ho⟩ | ⟨hidle, hsched, why, hstuck, ho⟩ | ⟨u, r, hhost, hrefused, ho⟩ := step_stops s <;> rw [ho]
  · exact ⟨nofun, nofun⟩
  · refine ⟨fun r hr => ?_, nofun⟩
    cases hr
    exact ⟨hidle, hsched, why, rfl, hstuck⟩
  · refine ⟨nofun, fun r' hr => ?_⟩
    cases hr
    exact ⟨u, hhost, hrefused⟩

/-! ## What the polynomial commands leave fits PR (R31, R116..R119) -/

/-- A pseudocode that sets PR to at most POLY_DEPTH coefficients, or raises with nothing changed. -/
def SetsPrWithin (s : State) (r : Result) : Prop :=
  (∃ p : List Byte, p.length ≤ 256 ∧ r = .ok (s.setPr p)) ∨ ∃ e, r = .raise e s

/-- A product past R116's check fits. -/
theorem length_pmul_le {a b : List Byte}
    (hfits : ¬ (norm a ≠ [] ∧ norm b ≠ [] ∧ 256 < (norm a).length + (norm b).length - 1)) :
    (pmul a b).length ≤ 256 := by
  by_cases hz : norm a = [] ∨ norm b = []
  · rw [pmul_of_zero a b hz]
    exact Nat.zero_le _
  · obtain ⟨ha, hb⟩ := not_or.1 hz
    rw [length_pmul a b ha hb]
    exact Nat.not_lt.1 fun hlong => hfits ⟨ha, hb, hlong⟩

section
variable (s : State)

theorem polyMul_setsPrWithin : SetsPrWithin s (polyMul s) := by
  by_cases hle : s.regs.paLen.toNat ≤ 256 ∧ s.regs.pbLen.toNat ≤ 256
  · rw [polyMul_of_le hle.1 hle.2]
    split
    · exact .inr ⟨_, rfl⟩
    next hfits => exact .inl ⟨_, length_pmul_le hfits, rfl⟩
  · exact .inr ⟨_, (polyMul_polyMod_of_gt (by omega)).1⟩

theorem polyMod_setsPrWithin : SetsPrWithin s (polyMod s) := by
  by_cases hle : s.regs.paLen.toNat ≤ 256 ∧ s.regs.pbLen.toNat ≤ 256
  · rw [polyMod_of_le hle.1 hle.2]
    split
    · exact .inr ⟨_, rfl⟩
    next hnb =>
      have hlen := length_pmod_le (pa s) (pb s) hnb
      rw [length_pa] at hlen
      exact .inl ⟨_, Nat.le_trans hlen hle.1, rfl⟩
  · exact .inr ⟨_, (polyMul_polyMod_of_gt (by omega)).2⟩

theorem rsGenpoly_setsPrWithin : SetsPrWithin s (rsGenpoly s) := by
  unfold rsGenpoly uint
  split
  · exact .inr ⟨_, rfl⟩
  next hle =>
    have hlen := length_genPoly_le s.regs.opa.toNat
    exact .inl ⟨_, by omega, rfl⟩

theorem rsEccCmd_setsPrWithin : SetsPrWithin s (rsEccCmd s) := by
  by_cases hle : s.regs.paLen.toNat ≤ 256 ∧ s.regs.opa.toNat ≤ 255
  · have hlen := length_rsEcc_le (pa s) s.regs.opa.toNat
    exact .inl ⟨_, by omega, rsEccCmd_of_le hle.1 hle.2⟩
  · exact .inr ⟨_, rsEccCmd_of_gt (by omega)⟩

end

/-! ## The machine's invariant (R8, R31..R37, R172, R181, R272, R303, R307, R340) -/

section
variable {s : State} (h : s.Inv)
include h

/-! ### The named updates keep it -/

theorem inv_complete : s.complete.Inv := { h with record := ⟨h.record.1, fun _ => rfl⟩ }

theorem inv_raise (e : ErrCode) (op step : Byte) : (s.raise e op step).Inv :=
  { h with record := ⟨e.code_range.2, fun _ => rfl⟩ }

theorem inv_withSched (sched : List Turn) : State.Inv { s with sched := sched } := { h with }

theorem inv_withHost (host : HostAgent) : State.Inv { s with host := host } := { h with }

theorem inv_withDraws {d : Nat} (hd : s.draws ≤ d) : State.Inv { s with draws := d } :=
  { h with fresh := ⟨h.fresh.1, fun e he => Nat.lt_of_lt_of_le (h.fresh.2 e he) hd⟩ }

theorem inv_setRes (v : Word) : (s.setRes v).Inv := { h with }

theorem inv_setScore (x : Score) : (s.setScore x).Inv := { h with }

theorem inv_recordSearch : s.recordSearch.Inv := { h with }

theorem inv_loseSegment : s.loseSegment.Inv := { h with chain := ⟨nofun, nofun⟩, selection := nofun }

theorem inv_loseVersion : s.loseVersion.Inv :=
  { h with chain := ⟨nofun, nofun⟩, version := .inl ⟨rfl, rfl⟩, selection := nofun }

theorem inv_loseCodewords : s.loseCodewords.Inv := { h with chain := ⟨nofun, h.chain.2⟩ }

theorem inv_resetRegisters : s.resetRegisters.Inv where
  canonical := h.canonical
  fresh := h.fresh
  chain := ⟨nofun, nofun⟩
  version := .inl ⟨rfl, rfl⟩
  selection := nofun
  lengths := ⟨Nat.zero_le _, Nat.zero_le _, Nat.zero_le _⟩
  sizes := ⟨nofun, nofun, BitVec.getLsbD_zero⟩
  record := ⟨Nat.zero_le _, h.record.2⟩
  params := h.params

theorem inv_assertReset : s.assertReset.Inv where
  canonical := Mems.wf_fresh _
  fresh := by
    constructor
    · simp [Mems.fresh, Mems.epochs]
    · simp only [State.assertReset_mems, State.assertReset_draws, Mems.fresh, Mems.epochs, List.mem_cons, List.not_mem_nil,
        or_false]
      omega
  chain := ⟨nofun, nofun⟩
  version := .inl ⟨rfl, rfl⟩
  selection := nofun
  lengths := ⟨Nat.zero_le _, Nat.zero_le _, Nat.zero_le _⟩
  sizes := ⟨nofun, nofun, BitVec.getLsbD_zero⟩
  record := ⟨Nat.zero_le _, fun _ => rfl⟩
  params := h.params

theorem inv_releaseReset : s.releaseReset.Inv := { h with record := ⟨h.record.1, nofun⟩ }

theorem inv_setPr {r : List Byte} (hr : r.length ≤ 256) : (s.setPr r).Inv :=
  { h with
    canonical := by simp [State.MemoriesCanonical, Mems.wf_iff, Mem.wf_renewed, (Mems.wf_iff _).1 h.canonical]
    fresh := epochs_renew s.mems.epochs s.draws 6 h.fresh.1 h.fresh.2
    lengths := by
      obtain ⟨hseg, hbb, -⟩ := h.lengths
      exact ⟨hseg, hbb, Nat.le_trans (Nat.mod_le _ _) hr⟩ }

theorem inv_setBitBuffer {bits : List Bool} (hbits : bits.length ≤ 32768) : (s.setBitBuffer bits).Inv :=
  { h with
    canonical := by simp [State.MemoriesCanonical, Mems.wf_iff, Mem.wf_writeBlock, (Mems.wf_iff _).1 h.canonical]
    lengths := by
      obtain ⟨hseg, -, hpr⟩ := h.lengths
      exact ⟨hseg, Nat.le_trans (Nat.mod_le _ _) hbits, hpr⟩ }

theorem inv_putField {value len : Nat} (hlen : s.regs.bbLen.toNat + len ≤ 32768) : (s.putField value len).Inv :=
  { h with
    canonical := by simp [State.MemoriesCanonical, Mems.wf_iff, Mem.wf_writeBlock, (Mems.wf_iff _).1 h.canonical]
    lengths := by
      obtain ⟨hseg, -, hpr⟩ := h.lengths
      exact ⟨hseg, Nat.le_trans (Nat.mod_le _ _) hlen, hpr⟩ }

theorem inv_setSegment {b : List Byte} (hb : b.length ≤ 2953) : (s.setSegment b).Inv :=
  { h with
    canonical := by simp [State.MemoriesCanonical, Mems.wf_iff, Mem.wf_renewed, (Mems.wf_iff _).1 h.canonical]
    fresh := epochs_renew s.mems.epochs s.draws 1 h.fresh.1 h.fresh.2
    chain := ⟨nofun, nofun⟩
    selection := nofun
    lengths := by
      obtain ⟨-, hbb, hpr⟩ := h.lengths
      exact ⟨Nat.le_trans (Nat.mod_le _ _) hb, hbb, hpr⟩ }

/-- A selection in 1..40 that the segment fits fills the block registers (R172, R173). -/
theorem inv_setVersion {v : Nat} {ec : BitVec 2} (h1 : 1 ≤ v) (h40 : v ≤ 40) (hseg : s.status.segValid = true)
    (hfit : s.regs.segLen.toNat ≤ cap v ec) : (s.setVersion v ec).Inv := by
  obtain ⟨hdata, htotal, hblocks, -⟩ := blocks_bounds v ec h1 h40
  have hv : (s.setVersion v ec).regs.version.toNat = v := version_setVersion s ec h40
  exact
    { h with
      chain := ⟨nofun, fun _ => hseg⟩
      version := by
        refine .inr ?_
        rw [hv]
        exact ⟨h1, h40, Nat.mod_eq_of_lt (by simp only [moduleCountOf]; omega)⟩
      selection := fun _ => by
        rw [hv]
        exact ⟨h1, Nat.mod_eq_of_lt hdata, Nat.mod_eq_of_lt (by omega), Nat.mod_eq_of_lt hblocks, hfit⟩ }

theorem inv_setCodewords (stream : List Byte) (hver : s.status.verValid = true) : (s.setCodewords stream).Inv :=
  { h with
    canonical := by simp [State.MemoriesCanonical, Mems.wf_iff, Mem.wf_renewed, (Mems.wf_iff _).1 h.canonical]
    fresh := epochs_renew s.mems.epochs s.draws 3 h.fresh.1 h.fresh.2
    chain := ⟨fun _ => hver, h.chain.2⟩ }

/-! ### Every pseudocode keeps it -/

theorem inv_segLoad : (endState (segLoad s)).Inv := by
  obtain ⟨b, hb, hres⟩ | ⟨e, hres⟩ | ⟨e, k, hres⟩ := segLoad_cases s <;> rw [hres]
  · exact inv_setSegment h hb
  · exact inv_loseSegment h
  · exact inv_setRes (inv_loseSegment h) k

theorem inv_selectVersion : (endState (selectVersion s)).Inv := by
  obtain ⟨v, h1, h40, hfit, hseg, hres⟩ | ⟨e, hres⟩ := selectVersion_cases s <;> rw [hres]
  · exact inv_setVersion h h1 h40 hseg hfit
  · exact inv_loseVersion h

theorem inv_buildCodewords : (endState (buildCodewords s)).Inv := by
  obtain ⟨bits, hver, hbits, hres⟩ | ⟨e, hres⟩ := buildCodewords_cases s <;> rw [hres]
  · have hlen := length_bitstream hbits
    have hdata := s.regs.dataCw.isLt
    exact inv_setCodewords (inv_setBitBuffer h (by omega)) _ hver
  · exact inv_loseCodewords h

theorem inv_bbPut : (endState (bbPut s)).Inv := by
  obtain ⟨hlen, hres⟩ | ⟨e, hres⟩ := bbPut_cases s <;> rw [hres]
  · exact inv_putField h hlen
  · exact h

/-- A build has the selected version's size, which is legal (R214). -/
theorem inv_matrixBuild (mask : BitVec 3) (test : Bool) : (endState (matrixBuild mask test s)).Inv := by
  cases hcw : s.status.cwValid
  · rwa [matrixBuild_raise s mask test hcw]
  rw [matrixBuild_ok s mask test hcw]
  obtain ⟨h1, h40⟩ := version_of_verValid h.version h.selection (h.chain.1 hcw)
  obtain ⟨-, hgrid⟩ := h.sizes
  exact
    { h with
      canonical := by simp [endState, State.MemoriesCanonical, Mems.wf_iff, Mem.wf_writeRows, (Mems.wf_iff _).1 h.canonical]
      fresh := by simpa [endState, State.DrawsFresh, Mems.epochs] using h.fresh
      sizes := by
        have hsize : (BitVec.ofNat 8 (moduleCountOf s.regs.version.toNat)).toNat = moduleCountOf s.regs.version.toNat :=
          Nat.mod_eq_of_lt (by simp only [moduleCountOf]; omega)
        exact ⟨fun _ => ⟨(congrArg isModuleCount hsize).trans (isModuleCount_of h1 h40), getLsbD_packInfo mask test _ _⟩,
          hgrid⟩ }

/-- A commit takes over the legal size of the build in WORK (R272). -/
theorem inv_commitCmd : (endState (commitCmd s)).Inv := by
  by_cases hwork : s.status.workValid = false ∨ s.status.workTest = true
  · rwa [commitCmd_raise s hwork]
  simp only [not_or, Bool.not_eq_false, Bool.not_eq_true] at hwork
  rw [commitCmd_ok s hwork.1 hwork.2]
  obtain ⟨hsize, -⟩ := h.sizes
  exact
    { h with
      canonical := by simp [endState, State.MemoriesCanonical, Mems.wf_iff, Mem.wf_writeRows, (Mems.wf_iff _).1 h.canonical]
      fresh := by simpa [endState, State.DrawsFresh, Mems.epochs] using h.fresh
      sizes := ⟨hsize, fun _ => (hsize hwork.1).1, getLsbD_gridInfoOf _⟩ }

theorem inv_maskSearch : (endState (maskSearch s)).Inv := by
  cases hcw : s.status.cwValid
  · rwa [maskSearch_raise s hcw]
  obtain ⟨b, u, hb, hu, hok⟩ := maskSearch_ok s hcw
  have hbuild := inv_matrixBuild (inv_recordSearch h) s.recordSearch.regs.bestMask false
  rw [hb] at hbuild
  have hcommit := inv_commitCmd (s := b) hbuild
  rw [hu] at hcommit
  rwa [hok]

/-- A pseudocode that sets RES or raises with nothing changed. -/
theorem inv_of_setRes {r : Result} (hr : (∃ v, r = .ok (s.setRes v)) ∨ ∃ e, r = .raise e s) : (endState r).Inv := by
  obtain ⟨v, rfl⟩ | ⟨e, rfl⟩ := hr
  · exact inv_setRes h v
  · exact h

/-- A pseudocode that sets PR or raises with nothing changed. -/
theorem inv_of_setPr {r : Result} (hr : SetsPrWithin s r) : (endState r).Inv := by
  obtain ⟨p, hp, rfl⟩ | ⟨e, rfl⟩ := hr
  · exact inv_setPr h hp
  · exact h

theorem inv_penaltyCmd : (endState (penaltyCmd s)).Inv := by
  obtain ⟨x, hres⟩ | ⟨e, hres⟩ := penaltyCmd_cases s <;> rw [hres]
  · exact inv_setScore h x
  · exact h

/-- Every pseudocode but ENCODE's, whose steps are four of the others, ends in a state with the invariant. -/
theorem inv_resultOf (i : Instr) : (endState (resultOf i s)).Inv := by
  cases i
  case nop | encode => exact h
  case softReset => exact inv_resetRegisters h
  case gfExp => exact inv_setRes h _
  case gfLog => exact inv_of_setRes h (gfLog_cases s)
  case gfMul => exact inv_of_setRes h (gfMul_cases s)
  case polyMul => exact inv_of_setPr h (polyMul_setsPrWithin s)
  case polyMod => exact inv_of_setPr h (polyMod_setsPrWithin s)
  case rsGenpoly => exact inv_of_setPr h (rsGenpoly_setsPrWithin s)
  case rsEcc => exact inv_of_setPr h (rsEccCmd_setsPrWithin s)
  case bbClear => exact inv_setBitBuffer h (Nat.zero_le _)
  case bbPut => exact inv_bbPut h
  case bbGet => exact inv_of_setRes h (bbGet_cases s)
  case segLoad => exact inv_segLoad h
  case selectVersion => exact inv_selectVersion h
  case buildCodewords => exact inv_buildCodewords h
  case matrixBuild mask test => exact inv_matrixBuild h mask test
  case penalty => exact inv_penaltyCmd h
  case commit => exact inv_commitCmd h
  case maskSearch => exact inv_maskSearch h
  case query => exact inv_of_setRes h (queryCmd_cases s)

/-! ### Every step keeps it -/

variable {t : State}

theorem inv_exec {i : Instr} (ht : exec i s = .next t) : t.Inv := by
  obtain ⟨u, hu, ⟨hx, -⟩ | ⟨e, op, step, hx⟩⟩ := exec_completes State.Inv (fun i _ ha => inv_resultOf ha i) i h <;>
    cases hx.symm.trans ht
  · exact inv_complete hu
  · exact inv_raise hu e op step

theorem inv_runWord {w : Word} (ht : runWord w s = .next t) : t.Inv := by
  obtain ⟨i, -, hrun⟩ | ⟨-, hrun⟩ := runWord_cases w s
  · exact inv_exec h (hrun.symm.trans ht)
  · cases hrun.symm.trans ht
    exact inv_raise h _ _ _

/-- A write of the host reaches no register of the engine but WORK_SIZE, and then clears WORK_VALID (R36). -/
theorem inv_of_writeLeaves (hw : WriteLeaves s t) (hrst : t.rst = true → t.phase = .idle) : t.Inv := by
  have ht : t = { s with
      phase := t.phase
      irqEn := t.irqEn
      mems := t.mems
      status := { s.status with
        done := t.status.done, err := t.status.err, haz := t.status.haz, workValid := t.status.workValid }
      regs := { s.regs with
        ecLevel := t.regs.ecLevel, forceVersion := t.regs.forceVersion, textLen := t.regs.textLen, opa := t.regs.opa
        opb := t.regs.opb, paLen := t.regs.paLen, pbLen := t.regs.pbLen, workSize := t.regs.workSize
        qrow := t.regs.qrow, qcol := t.regs.qcol } } := by
    rw [← hw.status, ← hw.regs, ← hw.params, ← hw.errcode, ← hw.rst, ← hw.host, ← hw.sched, ← hw.draws]
  rw [ht]
  exact
    { h with
      canonical := hw.wf h.canonical
      fresh := by
        simp only [State.DrawsFresh, hw.epochs]
        exact h.fresh
      sizes := by
        obtain ⟨hwork, hgrid⟩ := h.sizes
        refine ⟨fun hvalid => ?_, hgrid⟩
        obtain ⟨hvalid, hsize, -⟩ := hw.work hvalid
        exact ⟨(congrArg (fun n => isModuleCount n.toNat) hsize).trans (hwork hvalid).1, (hwork hvalid).2⟩
      record := ⟨h.record.1, fun hr => hrst (hw.rst.trans hr)⟩ }

/-- A line of the host keeps the invariant and the parameters: no access is admitted while RST is asserted (R340). -/
theorem inv_hostTurn (ht : s.hostTurn = .moved t) : t.Inv ∧ t.params = s.params := by
  obtain ⟨p, line, named, -, rfl⟩ | ⟨p, v, line, hrst, rfl⟩ | ⟨host, rfl⟩ := hostTurn_moved s t ht
  · obtain hread | hread := busRead_snd s p <;> rw [hread]
    · exact ⟨inv_withHost h _, rfl⟩
    · exact ⟨inv_withHost (inv_withDraws h (Nat.le_succ _)) _, rfl⟩
  · have hw := busWrite_leaves s p v
    have hreleased : (s.busWrite p v).rst = false := hw.rst.trans hrst
    exact ⟨inv_withHost (inv_of_writeLeaves h hw fun hr => absurd (hreleased.symm.trans hr) nofun) _, hw.params⟩
  · exact ⟨inv_withHost h _, rfl⟩

end

/-- The completion of a word, legal or not, leaves the parameters (R8). -/
theorem params_of_runWord {w : Word} {s t : State} (ht : runWord w s = .next t) : t.params = s.params := by
  obtain ⟨i, -, hrun⟩ | ⟨-, hrun⟩ := runWord_cases w s
  · obtain ⟨-, -, -, -, -, hparams, -⟩ := theEngineNeverWritesAHostInput i s t (hrun.symm.trans ht)
    exact hparams
  · cases hrun.symm.trans ht
    rfl

/-- Settles O55, by the cases of a step: the engine's completion, the host's line, a turn that passes, and RST. -/
theorem everyStepKeepsTheInvariant : Obligations.EveryStepKeepsTheInvariant := by
  unfold Obligations.EveryStepKeepsTheInvariant
  intro s t h ht
  have turn {u : State} {x : Turn} (hu : u = s ∨ ∃ rest, s.sched = x :: rest ∧ u = { s with sched := rest }) :
      u.Inv ∧ u.params = s.params := by
    obtain rfl | ⟨rest, -, rfl⟩ := hu
    · exact ⟨h, rfl⟩
    · exact ⟨inv_withSched h rest, rfl⟩
  obtain ⟨w, u, ⟨-, hmoves⟩, hrun⟩ | ⟨u, v, hu, hmoved, hv⟩ | ⟨u, r, -, -, hr⟩ | ⟨-, -, why, -, hf⟩ |
    hskip | ⟨rest, -, hv⟩ | ⟨rest, -, hv⟩ := step_cases s _ ht
  · obtain ⟨hinv, hparams⟩ := turn (hmoves.imp And.right id)
    exact ⟨inv_runWord hinv hrun.symm, (params_of_runWord hrun.symm).trans hparams⟩
  · cases hv
    obtain ⟨hinv, hparams⟩ := turn hu
    obtain ⟨hinv', hparams'⟩ := inv_hostTurn hinv hmoved
    exact ⟨hinv', hparams'.trans hparams⟩
  · cases hr
  · cases hf
  · obtain hv | ⟨_, rest, -, hv⟩ := hskip <;> cases hv
    · exact ⟨h, rfl⟩
    · exact ⟨inv_withSched h rest, rfl⟩
  · cases hv
    exact ⟨inv_assertReset (inv_withSched h rest), rfl⟩
  · cases hv
    exact ⟨inv_releaseReset (inv_withSched h rest), rfl⟩

/-! ## Targets and lines (R52, R86) -/

theorem inWindow_iff (w : Window) (k : Nat) : InWindow w k ↔ k < w.words := by
  have hpos := window_words_pos w
  simp only [InWindow, windowRange_eq]
  omega

theorem resolve_of_exists {t : Target} (h : TargetExists t) : t.resolve = .ok (BitVec.ofNat 18 (targetOffset t)) := by
  cases t with
  | reg r => cases r <;> rfl
  | word w k =>
    simp only [Target.resolve, if_pos ((inWindow_iff w k).1 h), Window.addr, targetOffset, windowRange_eq]
  | raw addr => simp only [Target.resolve, targetOffset, BitVec.ofNat_toNat, BitVec.setWidth_eq]

theorem resolve_of_not_inWindow {w : Window} {k : Nat} (h : ¬ InWindow w k) :
    (Target.word w k).resolve = .error (.badTarget w k) :=
  if_neg fun hk => h ((inWindow_iff w k).2 hk)

theorem value_eq_lookup (h : HostAgent) (name : Nat) : h.value name = h.named.lookup name := by
  simp only [HostAgent.value]
  induction h.named with
  | nil => rfl
  | cons x named ih =>
    rw [List.lookup_cons, List.find?_cons, BEq.comm (a := name)]
    cases x.1 == name
    · exact ih
    · rfl

/-- The name a line gives the value it reads (R86). -/
def lineName : HostLine → Option Nat
  | .rd _ name => name
  | _ => none

theorem hostLine_of_lineMakes {l : HostLine} {a : Access} (s : State) (h : LineMakes l a) :
    s.hostLine l = s.access a (lineName l) := by
  cases l with
  | wr t v =>
    obtain ⟨ht, rfl⟩ := h
    simp only [State.hostLine, State.writeTarget, resolve_of_exists ht, lineName]
  | rd t name =>
    obtain ⟨ht, rfl⟩ := h
    simp only [State.hostLine, State.readTarget, resolve_of_exists ht, lineName]
  | command i =>
    cases h
    rfl
  | br | expect => cases h
  | bus b =>
    cases h
    rfl

theorem hostLine_of_lineRefused {l : HostLine} {r : Refusal} {s : State} (h : LineRefused s.host l r) :
    s.hostLine l = .refused r := by
  cases l with
  | wr t v =>
    cases t with
    | word w k =>
      obtain ⟨hw, rfl⟩ := h
      simp only [State.hostLine, State.writeTarget, resolve_of_not_inWindow hw]
    | reg | raw => cases h
  | rd t name =>
    cases t with
    | word w k =>
      obtain ⟨hw, rfl⟩ := h
      simp only [State.hostLine, State.readTarget, resolve_of_not_inWindow hw]
    | reg | raw => cases h
  | br name bit value label =>
    obtain ⟨hname, rfl⟩ := h
    simp only [State.hostLine, value_eq_lookup, hname]
  | expect name value =>
    obtain ⟨hname, rfl⟩ := h
    simp only [State.hostLine, value_eq_lookup, hname]
  | command | bus => cases h

/-! ## A step's agent (R301, R302, R308) -/

theorem step_of_engineMoves {s u : State} {w : Word} (h : EngineMoves s w u) : step s = runWord w u := by
  obtain ⟨hp, ⟨hs, rfl⟩ | ⟨rest, hs, rfl⟩⟩ := h <;> unfold step
  · rw [nextMove_default u hs]
    simp only [State.defaultMove, hp]
  · rw [nextMove_turn s .engine rest hs]
    simp only [State.takeTurn, hp]

theorem runWord_legal {w : Word} {i : Instr} (h : decode w = .ok i) (s : State) : runWord w s = exec i s := by
  simp only [runWord, h]

/-- What a turn of the host from `u` makes of the step of `s`; a stuck host is a fault where no turn is scheduled. -/
def hostOutcome (s u : State) : HostTurn → Host.Outcome State Fault Refusal
  | .moved t => .next t
  | .stuck why => if s.sched = [] then .fault (.hostStuck why) else .next u
  | .ended => .next u
  | .refused r => .refused r

theorem step_of_hostMoves {s u : State} (h : HostMoves s u) : step s = hostOutcome s u u.hostTurn := by
  obtain ⟨hs, hp, rfl⟩ | ⟨rest, hs, rfl⟩ := h <;> unfold step
  · rw [nextMove_default u hs]
    simp only [State.defaultMove, hp]
    cases u.hostTurn <;> simp [hostOutcome, hs]
  · rw [nextMove_turn s .host rest hs]
    simp only [State.takeTurn]
    cases ({ s with sched := rest } : State).hostTurn <;> simp [hostOutcome, hs]

theorem host_of_hostMoves {s u : State} (h : HostMoves s u) : u.host = s.host := by
  obtain ⟨-, -, rfl⟩ | ⟨rest, -, rfl⟩ := h <;> rfl

theorem step_of_line {s u : State} {l : HostLine} (h : HostMoves s u) (hl : s.host.prog[s.host.line]? = some l) :
    step s = hostOutcome s u (u.hostLine l) := by
  rw [step_of_hostMoves h, State.hostTurn, host_of_hostMoves h, hl]

/-! ## A line's access (R50, R51, R60) -/

section
variable (u : State) (size : AccessSize) (addr : BitVec 18)

theorem access_write {p : Place} {v : Word} (name : Option Nat) (hp : u.admission (.write size addr v) = .ok p) :
    u.access (.write size addr v) name =
      .moved { u.busWrite p v with host := { u.host with line := u.host.line + 1 } } := by
  have hhost := (busWrite_leaves u p v).host
  simp only [State.access, hp, State.nextLine, State.goTo, hhost]

theorem access_read {p : Place} (l : HostLine) (hp : u.admission (.read size addr) = .ok p) :
    u.access (.read size addr) (lineName l) =
      .moved { (u.busRead p).2 with
        host := { u.host with line := u.host.line + 1, named := namedAfter u.host l (u.busRead p).1 } } := by
  have hhost : (u.busRead p).2.host = u.host := by obtain h | h := busRead_snd u p <;> rw [h]
  simp only [State.access, hp, State.nextLine, State.goTo]
  cases l with
  | rd t name => cases name <;> simp only [lineName, State.name, namedAfter, hhost]
  | _ => simp only [lineName, State.name, namedAfter, hhost]

end

theorem access_notAdmitted (u : State) (a : Access) {why : NotAdmitted} (name : Option Nat)
    (h : u.admission a = .error why) : u.access a name = .stuck why := by
  simp only [State.access, h]

theorem hostLine_br {u : State} {name label : Nat} {bit : Fin 32} {value : Bool} {v : Word}
    (hv : u.host.named.lookup name = some v) :
    u.hostLine (.br name bit value label) =
      .moved { u with host := { u.host with line := if v.getLsbD bit.val = value then label else u.host.line + 1 } } := by
  simp only [State.hostLine, value_eq_lookup, hv]
  split <;> rfl

theorem hostLine_expect {u : State} {name : Nat} {value v : Word} (hv : u.host.named.lookup name = some v) :
    u.hostLine (.expect name value) =
      .moved { u with host := { u.host with line := u.host.line + 1, failed := u.host.failed || v != value } } := by
  simp only [State.hostLine, value_eq_lookup, hv]
  rfl

/-- Settles O5: the engine's move is the completion of its word, the host's is its line's meaning, clause by clause. -/
theorem stepRunsTheDecodedCommand : Obligations.StepRunsTheDecodedCommand := by
  unfold Obligations.StepRunsTheDecodedCommand
  refine ⟨fun s w hp => ?_, fun s u hmoves => ⟨fun l hl => ?_, fun hpast => ?_⟩⟩
  · have halone (hs : s.sched = []) : step s = runWord w s := step_of_engineMoves ⟨hp, .inl ⟨hs, rfl⟩⟩
    have hturn rest (hs : s.sched = .engine :: rest) : step s = runWord w { s with sched := rest } :=
      step_of_engineMoves ⟨hp, .inr ⟨rest, hs, rfl⟩⟩
    exact ⟨halone, hturn, fun i hi =>
      ⟨fun hs => (halone hs).trans (runWord_legal hi s), fun rest hs => (hturn rest hs).trans (runWord_legal hi _)⟩⟩
  · rw [step_of_line hmoves hl, ← host_of_hostMoves hmoves]
    refine ⟨fun size addr v p hmakes hadm => ?_, fun size addr p hmakes hadm => ?_, fun a why hmakes hadm => ?_, ?_, ?_,
      fun r hrefused => congrArg (hostOutcome s u) (hostLine_of_lineRefused hrefused)⟩
    · rw [hostLine_of_lineMakes u hmakes, access_write u size addr _ hadm]
      rfl
    · rw [hostLine_of_lineMakes u hmakes, access_read u size addr l hadm]
      rfl
    · rw [hostLine_of_lineMakes u hmakes, access_notAdmitted u a _ hadm]
      rfl
    · rintro name bit value label v rfl hv
      exact congrArg (hostOutcome s u) (hostLine_br hv)
    · rintro name value v rfl hv
      exact congrArg (hostOutcome s u) (hostLine_expect hv)
  · have hended : u.hostTurn = .ended := by
      rw [State.hostTurn, host_of_hostMoves hmoves, List.getElem?_eq_none hpast]
    rw [step_of_hostMoves hmoves, hended]
    rfl

end Sys2Proof.Proofs

/-! PROOFS. The family of spec/70_reset_and_hazards.md: the RST input (O16) and the reset state (O17, O56). -/

namespace Sys2Proof.Proofs

open Sys2Proof.Machine Sys2Proof.Claims

/-! ## Fresh memories (R341) -/

theorem nodup_epochs_fresh (d : Nat) : (Mems.fresh d).epochs.Nodup := by
  simp [Mems.fresh, Mems.epochs]

theorem lt_of_mem_epochs_fresh {d n e : Nat} (hn : d + 9 ≤ n) (he : e ∈ (Mems.fresh d).epochs) : e < n := by
  simp only [Mems.fresh, Mems.epochs, List.mem_cons, List.not_mem_nil, or_false] at he
  omega

/-! ## What every reset state has (R318, R341) -/

section
variable {s : State} (h : s.resetLaunch)
include h

/-- No register reads what R341 leaves open: the parameters, the draws, the level of RST, the host and the schedule. -/
theorem readReg_of_resetLaunch (r : Reg) : s.readReg r = State.reset.readReg r := by
  rw [h.1]
  cases r <;> rfl

theorem phase_of_resetLaunch : s.phase = .idle := congrArg State.phase h.1

/-- IRQ is a function of two registers as the host reads them (R309). -/
theorem irq_of_resetLaunch : s.irq = State.reset.irq := by
  simp only [irqIsTheGatedOrOfStatus _, readReg_of_resetLaunch h]

/-- A reset state has the invariant, whatever its draws: of what R341 leaves open, only the parameters matter. -/
theorem inv_of_resetLaunch (hparams : s.ParamsLegal) : s.Inv := by
  obtain ⟨heq, hdraws⟩ := h
  rw [heq]
  exact
    { canonical := Mems.wf_fresh _
      fresh := ⟨nodup_epochs_fresh _, fun _ => lt_of_mem_epochs_fresh hdraws⟩
      chain := ⟨nofun, nofun⟩
      version := .inl ⟨rfl, rfl⟩
      selection := nofun
      lengths := ⟨Nat.zero_le _, Nat.zero_le _, Nat.zero_le _⟩
      sizes := ⟨nofun, nofun, BitVec.getLsbD_zero⟩
      record := ⟨Nat.zero_le _, fun _ => rfl⟩
      params := hparams }

end

/-! ## The reset state -/

theorem readReg_reset_of_ne_id {r : Reg} (hr : r ≠ .id) : State.reset.readReg r = 0 := by
  cases r with
  | id => exact absurd rfl hr
  | penalty m => exact (by decide : ∀ m, State.reset.readReg (.penalty m) = 0) m
  | _ => rfl

theorem irq_reset : State.reset.irq = false := rfl

/-- Settles O17: the registers read as listed one by one. -/
theorem everyRegisterReadsZeroAtReset : Obligations.EveryRegisterReadsZeroAtReset := by
  unfold Obligations.EveryRegisterReadsZeroAtReset
  exact ⟨rfl, fun _ => readReg_reset_of_ne_id, rfl, irq_reset⟩

/-- Settles O56: the reset state is one of those a launch may start from, and its parameters are QRIM-CORE's. -/
theorem theInvariantHoldsAtReset : Obligations.TheInvariantHoldsAtReset := by
  unfold Obligations.TheInvariantHoldsAtReset
  exact inv_of_resetLaunch reset_resetLaunch (.inl rfl)

/-! ## The RST input (R340) -/

theorem step_of_rstAsserted {s : State} {rest : List Turn} (hs : s.sched = .rst true :: rest) :
    step s = .next (State.assertReset { s with sched := rest }) := by
  unfold step
  rw [nextMove_turn s _ rest hs]
  rfl

theorem admission_of_rst {s : State} (hrst : s.rst = true) (a : Access) : s.admission a = .error .inReset :=
  if_pos hrst

/-- Settles O16: the step is the assertion of RST, which leaves a reset state with RST held. -/
theorem resetInputGivesTheResetState : Obligations.ResetInputGivesTheResetState := by
  unfold Obligations.ResetInputGivesTheResetState
  intro s rest hs
  have hreset := assertReset_resetLaunch { s with sched := rest }
  exact ⟨_, step_of_rstAsserted hs, phase_of_resetLaunch hreset, readReg_of_resetLaunch hreset,
    (irq_of_resetLaunch hreset).trans irq_reset, rfl, rfl, rfl, rfl, admission_of_rst rfl⟩

end Sys2Proof.Proofs
